-- ==== Sys2Proof/Word.lean ====
section
/-! DEFINITION. The word types of the CRC-32 engine core. Every value of the core is unsigned (00_scope.md R23). -/

namespace Sys2Proof

/-- A byte of host memory (u8). -/
abbrev Byte := BitVec 8

/-- A register of the block, a command word, a CRC register value (u32). -/
abbrev Word := BitVec 32

/-- A 64-bit operand (LEN, SRC, DST, FADDR) or a word of the braided and Chorba data paths (u64). -/
abbrev DWord := BitVec 64

/-- A fold lane (u128). -/
abbrev Lane := BitVec 128

/-- M32 = 0xFFFFFFFF (00_scope.md R24): the mask between the public and the internal form of a CRC. -/
abbrev M32 : Word := 0xFFFFFFFF#32

end Sys2Proof
end

