-- ==== Sys2Proof/Syntax.lean ====
section
/-! DEFINITION. The commands of the core: one constructor per row of the opcode map (30_encoding.md R106).

A command word carries no operands but the INJ flag of FOLD_UPDATE: every operand is a register of the block (R109). -/

namespace Sys2Proof

/-- A legal command (30_encoding.md R106). -/
inductive Instr where
  /-- NOP (40_dispatcher.md R152). -/
  | nop
  /-- CRC32.AUTO (40_dispatcher.md R156). -/
  | crc32Auto
  /-- CRC32.SCALAR (41_scalar.md R208). -/
  | crc32Scalar
  /-- CRC32.BRAID (42_braided.md R240). -/
  | crc32Braid
  /-- CRC32.CHORBA_S (43_chorba.md R290). -/
  | crc32ChorbaS
  /-- CRC32.CHORBA_L (43_chorba.md R291). -/
  | crc32ChorbaL
  /-- CRC32.SIMD (44_simd_fold.md R321). -/
  | crc32Simd
  /-- FOLD_INIT (44_simd_fold.md R322). -/
  | foldInit
  /-- FOLD_UPDATE, with its INJ flag (44_simd_fold.md R323, 30_encoding.md R104). -/
  | foldUpdate (inj : Bool)
  /-- FOLD_COPY (44_simd_fold.md R324). -/
  | foldCopy
  /-- FOLD_FINAL (44_simd_fold.md R325). -/
  | foldFinal
  /-- FOLD_SAVE (44_simd_fold.md R326). -/
  | foldSave
  /-- FOLD_LOAD (44_simd_fold.md R327). -/
  | foldLoad
  deriving DecidableEq, Repr

end Sys2Proof
end

