-- ==== Sys2Proof/Decode.lean ====
section
/-! DEFINITION. The command-word decoder and encoder (30_encoding.md R100 to R108). A decoder always sees exactly 32 bits;
there is no other length, no prefix and no mode bit (R100). -/

namespace Sys2Proof

/-- Why a command word is illegal: the cases (a) to (e) of R107. All of them end the command with E_ILLEGAL. -/
inductive Reject where
  /-- (a) RSV is not 0 (R105). -/
  | reservedBits
  /-- (b) the OP value is reserved (R102). -/
  | reservedOp
  /-- (c) OP = 0x01 with TIER 6 or 7 (R103). -/
  | reservedTier
  /-- (d) a nonzero TIER with an OP other than 0x01 (R103). -/
  | tierNotTaken
  /-- (e) INJ = 1 with an OP other than 0x11 (R104). -/
  | injNotTaken
  deriving DecidableEq, Repr

/-! ### Fields of a command word (R101) -/

/-- OP = w[7:0]. -/
def opField (w : Word) : BitVec 8 := w.extractLsb' 0 8

/-- TIER = w[10:8]. -/
def tierField (w : Word) : BitVec 3 := w.extractLsb' 8 3

/-- INJ = w[11]. -/
def injField (w : Word) : Bool := w.getLsbD 11

/-- RSV = w[31:12]. -/
def rsvField (w : Word) : BitVec 20 := w.extractLsb' 12 20

/-- `legal(w)` (R108). -/
def legal (w : Word) : Bool :=
  rsvField w == 0
  && [0x00#8, 0x01#8, 0x10#8, 0x11#8, 0x12#8, 0x13#8, 0x14#8, 0x15#8].contains (opField w)
  && (if opField w == 0x01#8 then decide (tierField w ≤ 5) else tierField w == 0)
  && (!injField w || opField w == 0x11#8)

/-! ### Decoder -/

/-- The command OP = 0x01 selects with each TIER value (R103). -/
def decodeTier (t : BitVec 3) : Except Reject Instr :=
  if t = 0 then .ok .crc32Auto
  else if t = 1 then .ok .crc32Scalar
  else if t = 2 then .ok .crc32Braid
  else if t = 3 then .ok .crc32ChorbaS
  else if t = 4 then .ok .crc32ChorbaL
  else if t = 5 then .ok .crc32Simd
  else .error .reservedTier

/-- The command each OP value other than 0x01 selects, with the INJ flag where it takes one (R106). -/
def decodeOp (op : BitVec 8) (inj : Bool) : Option Instr :=
  if op = 0x00 then some .nop
  else if op = 0x10 then some .foldInit
  else if op = 0x11 then some (.foldUpdate inj)
  else if op = 0x12 then some .foldCopy
  else if op = 0x13 then some .foldFinal
  else if op = 0x14 then some .foldSave
  else if op = 0x15 then some .foldLoad
  else none

/-- The command a word stands for, or why it is illegal (R106, R107). Total on all 2^32 words. -/
def decode (w : Word) : Except Reject Instr :=
  if rsvField w ≠ 0 then .error .reservedBits
  else if opField w = 0x01 then
    if injField w then .error .injNotTaken else decodeTier (tierField w)
  else
    match decodeOp (opField w) (injField w) with
    | none => .error .reservedOp
    | some i =>
      if tierField w ≠ 0 then .error .tierNotTaken
      else if injField w && opField w != 0x11 then .error .injNotTaken
      else .ok i

/-- The command the decoder reads from bits numbered as spec/opcode_table.json numbers them. A command word has exactly 32
bits (R100): a value that does not fit them, or a row of any other length, shorter or longer, is no command word. -/
def decodeTableWord (nbits w : Nat) : Option Instr :=
  if nbits = 32 ∧ w < 2 ^ 32 then
    match decode (BitVec.ofNat 32 w) with
    | .ok i => some i
    | .error _ => none
  else none

/-! ### Encoder -/

/-- A command word with RSV = 0 from its three fields (R101). -/
def commandWord (inj : Bool) (tier : BitVec 3) (op : BitVec 8) : Word :=
  ((0#20 ++ BitVec.ofBool inj) ++ tier) ++ op

/-- The word of a command (the column "command word" of R106). -/
def encode : Instr → Word
  | .nop => commandWord false 0 0x00
  | .crc32Auto => commandWord false 0 0x01
  | .crc32Scalar => commandWord false 1 0x01
  | .crc32Braid => commandWord false 2 0x01
  | .crc32ChorbaS => commandWord false 3 0x01
  | .crc32ChorbaL => commandWord false 4 0x01
  | .crc32Simd => commandWord false 5 0x01
  | .foldInit => commandWord false 0 0x10
  | .foldUpdate inj => commandWord inj 0 0x11
  | .foldCopy => commandWord false 0 0x12
  | .foldFinal => commandWord false 0 0x13
  | .foldSave => commandWord false 0 0x14
  | .foldLoad => commandWord false 0 0x15

end Sys2Proof
end

