-- ==== Sys2Proof/Machine/Bytes.lean ====
section
/-! DEFINITION. Byte sequences, little-endian words, the carry-less product, and sparse data by key (00_scope.md R24 to R26,
20_memory.md R75). -/

namespace Sys2Proof.Machine

/-! ### Byte sequences (R26) -/

/-- `zeros(n)`. -/
def zeros (n : Nat) : List Byte := List.replicate n 0#8

/-- The number a byte sequence spells, least significant byte first: the sum of B[k] · 2^(8k). -/
def leNat : List Byte → Nat
  | [] => 0
  | b :: bs => b.toNat + 256 * leNat bs

/-- `le_n(B, i)` as a value of `w` bits; the callers take w ≥ 8n. -/
def le (w n : Nat) (bs : List Byte) (i : Nat) : BitVec w := BitVec.ofNat w (leNat ((bs.drop i).take n))

/-- The `n`-byte little-endian sequence of a number. -/
def natBytes : Nat → Nat → List Byte
  | 0, _ => []
  | n + 1, v => BitVec.ofNat 8 v :: natBytes n (v / 256)

/-- `bytes_n(v)`. -/
def bytesLE {w : Nat} (n : Nat) (v : BitVec w) : List Byte := natBytes n v.toNat

/-- XOR `mask` into the leading bytes of `bs`; the bytes beyond the mask stay. -/
def xorPrefix : List Byte → List Byte → List Byte
  | [], _ => []
  | b :: bs, [] => b :: bs
  | b :: bs, m :: ms => (b ^^^ m) :: xorPrefix bs ms

/-- XOR `mask` into the bytes of `bs` from index `i` on. -/
def xorAt (bs : List Byte) (i : Nat) (mask : List Byte) : List Byte := bs.take i ++ xorPrefix (bs.drop i) mask

/-! ### The carry-less product (R25) -/

/-- XOR of `a · 2^i` over the `i < k` where bit i of `b` is 1. -/
def clmulBits {r q : Nat} (a : BitVec r) (b : BitVec q) : Nat → BitVec r
  | 0 => 0
  | k + 1 => (if b.getLsbD k then a <<< k else 0) ^^^ clmulBits a b k

/-- `clmul(a, b)`: no bit is truncated, since the product of widths p and q fits in p + q − 1 bits. -/
def clmul {p q : Nat} (a : BitVec p) (b : BitVec q) : BitVec (p + q) := clmulBits (a.setWidth (p + q)) b q

/-! ### Repeating a step -/

/-- `f` applied `n` times. -/
def repeatStep {α : Type} (f : α → α) : Nat → α → α
  | 0, x => x
  | n + 1, x => repeatStep f n (f x)

/-! ### Sparse data: the entries that differ from a default, by strictly rising key -/

/-- The value at key `k`, the default `d` where no entry has it. -/
def sparseRead {α : Type} (d : α) : List (Nat × α) → Nat → α
  | [], _ => d
  | (j, v) :: rest, k => if j = k then v else sparseRead d rest k

/-- The value `v` at key `k`; an entry equal to the default is not listed. -/
def sparseWrite {α : Type} [DecidableEq α] (d : α) : List (Nat × α) → Nat → α → List (Nat × α)
  | [], k, v => if v = d then [] else [(k, v)]
  | (j, u) :: rest, k, v =>
    if k < j then (if v = d then (j, u) :: rest else (k, v) :: (j, u) :: rest)
    else if k = j then (if v = d then rest else (k, v) :: rest)
    else (j, u) :: sparseWrite d rest k v

end Sys2Proof.Machine
end

