-- ==== Sys2Proof/Machine/Crc.lean ====
section
/-! DEFINITION. The CRC-32 register: the byte table, the byte step, the raw register, the word reduction and the scalar
tier function (41_scalar.md R200 to R209). Every other tier is measured against `crcRaw` and `crc32`. -/

namespace Sys2Proof.Machine

/-- The tier codes STATUS.TIER reports (10_state.md R33). -/
inductive Tier where
  | none
  | scalar
  | braid
  | chorbaS
  | chorbaL
  | simd
  deriving DecidableEq, Repr

/-- The generator polynomial in 32-bit reflected form (R200). -/
def polyReflected : Word := 0xEDB88320#32

/-- One reflected shift step of the register (R200). -/
def crcStep (c : Word) : Word :=
  if c.getLsbD 0 then (c >>> 1) ^^^ polyReflected else c >>> 1

/-- The byte table T (R200); R201 lists its 256 values. -/
def tableT (b : Byte) : Word := repeatStep crcStep 8 (b.setWidth 32)

/-- `byte_step(acc, b) = T[(acc ^ b) & 0xFF] ^ (acc >> 8)` (R202). -/
def byteStep (acc : Word) (b : Byte) : Word := tableT ((acc ^^^ b.setWidth 32).setWidth 8) ^^^ (acc >>> 8)

/-- `crc_raw(c, B)`: the raw register after the bytes of B, with no complement (R204). -/
def crcRaw : Word → List Byte → Word
  | c, [] => c
  | c, b :: bs => crcRaw (byteStep c b) bs

/-- `CRC32(seed, B)`, the public checksum (R209). -/
def crc32 (seed : Word) (bs : List Byte) : Word := crcRaw (seed ^^^ M32) bs ^^^ M32

/-- One round of the word reduction: the low byte through the table (R205). -/
def wordRound (d : DWord) : DWord := (d >>> 8) ^^^ (tableT (d.setWidth 8)).setWidth 64

/-- `crc_word(d, W)`: W table rounds of the whole word (R205). -/
def crcWord (w : Nat) (d : DWord) : Word := (repeatStep wordRound w d).setWidth 32

/-- The `w`-byte word of B at offset i, zero-extended to 64 bits. -/
def wordAt (w : Nat) (bs : List Byte) (i : Nat) : DWord := le 64 w bs i

/-- `word_step(c, B, i)` (R206). -/
def wordStep (w : Nat) (c : Word) (bs : List Byte) (i : Nat) : Word :=
  crcWord w (c.setWidth 64 ^^^ wordAt w bs i)

/-- The word loop of the scalar tier: `k` word steps from the front of B, and the bytes left (R207). -/
def scalarWords (w : Nat) : Nat → Word → List Byte → Word × List Byte
  | 0, c, bs => (c, bs)
  | k + 1, c, bs => scalarWords w k (wordStep w c bs 0) (bs.drop w)

/-- `scalar_tier(c, D)` with word width W: words while W bytes remain, then bytes (R207). -/
def scalarTier (w : Nat) (c : Word) (bs : List Byte) : Word × Tier :=
  let words := scalarWords w (bs.length / w) c bs
  (crcRaw words.1 words.2, .scalar)

end Sys2Proof.Machine
end

