-- ==== Sys2Proof/Config.lean ====
section
/-! DEFINITION. What an instance of the core fixes (00_scope.md, section 3) and the values the spec leaves free.

The parameters are plain data with the spec's defaults. The free values are constants with no body: no proof can see
what they are, so a claim about the machine holds whatever they are. -/

namespace Sys2Proof

/-- `BRAID_W`, the word width of the scalar word step and of the braided reducer: 4 or 8 bytes (R6). -/
inductive BraidWidth where
  | w4
  | w8
  deriving DecidableEq, Repr

/-- `FOLD_LANES_MODE` (R19): the fold lanes are the exact value of R314, or any value that meets the fold invariant. -/
inductive LanesMode where
  | canonical
  | relational
  deriving DecidableEq, Repr

/-- The kind of an engine access to a byte of host memory (R22). -/
inductive AccessKind where
  | read
  | write
  deriving DecidableEq, Repr

/-- A run of addresses [lo, hi) whose bytes the platform refuses to the engine's reads, writes or both.
`Admit(addr, kind)` (R22) is OPEN: a platform is the list of its refused regions. DESIGN CHOICE, log entry 4, safe: the
address space is finite, so every predicate on it is such a list. -/
structure Region where
  lo : Nat
  hi : Nat
  refusesRead : Bool
  refusesWrite : Bool
  deriving DecidableEq, Repr

/-- The parameters of one instance. The defaults are the spec's where it gives one. -/
structure Params where
  /-- `BRAID_W` (R6). -/
  braidW : BraidWidth := .w8
  /-- `BRAID_N` less one, so that only the legal lane counts 1 to 15 can be written (R7). -/
  braidNPred : Fin 15 := 4
  /-- `CAP_BRAID` (R17). -/
  capBraid : Bool := true
  /-- `CAP_CHORBA` (R17). -/
  capChorba : Bool := true
  /-- `CAP_CLMUL` (R17). -/
  capClmul : Bool := true
  /-- `FOLD_LANES_MODE` (R19). -/
  lanesMode : LanesMode := .canonical
  /-- `HOST_CONCURRENT` (R20). -/
  hostConcurrent : Bool := false
  /-- `ENGINE_BASE` (R21), OPEN. DESIGN CHOICE, log entry 3: the address the default instance has; unsafe only for a
  claim about that instance, since every statement ranges over all bases. -/
  engineBase : DWord := 0x00000000F0000000#64
  /-- `Admit` (R22), OPEN. DESIGN CHOICE, log entry 4: the default platform refuses nothing. -/
  refused : List Region := []
  deriving DecidableEq, Repr

/-! ### Free values -/

/-- The word in slot `slot` of the ring while its contents are the unspecified ones numbered `draw` (10_state.md R48:
"unspecified"). Log entry 6. -/
opaque Config.ringWord : (draw slot : Nat) → DWord

/-- The first 60 bytes of the window a fold command leaves in relational mode (44_simd_fold.md R318: "any four lanes").
Log entry 8. -/
opaque Config.laneDraw : (draw : Nat) → BitVec 480

/-- The byte at `addr` after a reset during a command whose write range holds it (70_reset_and_hazards.md R411: "an
unspecified value"). Log entry 14. -/
opaque Config.resetByte : (draw addr : Nat) → Byte

/-- Which of the values a racing byte may have, by position, read number `index` of a command draws (20_memory.md R85: "a
draw, fixed per read"). Log entry 9. -/
opaque Config.raceChoice : (draw index : Nat) → Nat

/-- Whether the engine's own write of the byte at `addr` lands after those of another agent to it (20_memory.md R85 orders
no such pair). Log entry 10. -/
opaque Config.engineWritesLast : (draw addr : Nat) → Bool

end Sys2Proof
end

