-- ==== Sys2Proof/Machine/Parameters.lean ====
section
/-! DEFINITION. The numbers the parameters of an instance give (00_scope.md, section 3): widths, thresholds, the CAP word,
and which bytes of host memory the platform admits. -/

namespace Sys2Proof.Machine

/-- W = `BRAID_W` in bytes (R6). -/
def braidW (p : Params) : Nat :=
  match p.braidW with
  | .w4 => 4
  | .w8 => 8

/-- N = `BRAID_N`, the number of braid lanes, 1 to 15 (R7). -/
def braidN (p : Params) : Nat := p.braidNPred.val + 1

/-- `SMALL_THRESHOLD` (R8). -/
def smallThreshold (p : Params) : Nat :=
  match p.braidW with
  | .w4 => 80
  | .w8 => 72

/-- `LARGE_THRESHOLD` = 64 · `BRAID_W` · 1024 bytes (R9). -/
def largeThreshold (p : Params) : Nat := 64 * braidW p * 1024

/-- `SIMD_MIN` (R10). -/
def simdMin : Nat := 256

/-- `PREFIX_ALIGN` (R11). -/
def prefixAlign : Nat := 16

/-- `CHORBA_SMALL_MIN` (R12). -/
def chorbaSmallMin : Nat := 72

/-- `CHORBA_SMALL_STEP` (R12). -/
def chorbaSmallStep : Nat := 32

/-- L = `CHORBA_LAG_WORDS` (R13). -/
def chorbaLag : Nat := 14870

/-- C = `CHORBA_RING_WORDS` (R14). -/
def chorbaRingWords : Nat := 16384

/-- `CHORBA_BLOCK_WORDS` (R15). -/
def chorbaBlockWords : Nat := 32

/-- `FOLD_MIN_SEEDED` (R16). -/
def foldMinSeeded : Nat := 16

/-- `SIMD_TIER_MIN` (R16). -/
def simdTierMin : Nat := 16

/-- The constant CAP register of an instance (10_state.md R36). -/
def capWord (p : Params) : Word :=
  BitVec.ofNat 20 0 ++ BitVec.ofNat 4 (braidN p) ++ BitVec.ofNat 4 0
    ++ BitVec.ofBool (braidW p == 8) ++ BitVec.ofBool p.capClmul ++ BitVec.ofBool p.capChorba
    ++ BitVec.ofBool p.capBraid

/-- The tiers that can be enabled: CAP[2:0], zero-extended (10_state.md R35). -/
def capTiers (p : Params) : Word := capWord p &&& 7#32

/-- `Admit(x, k)` of the platform (00_scope.md R22). -/
def admits (p : Params) (x : Nat) (k : AccessKind) : Bool :=
  !p.refused.any fun r =>
    decide (r.lo ≤ x) && decide (x < r.hi) &&
      (match k with
       | .read => r.refusesRead
       | .write => r.refusesWrite)

/-- Whether `x` is an address of the register block [ENGINE_BASE, ENGINE_BASE + 0x40) (20_memory.md R71). -/
def inRegisterBlock (p : Params) (x : Nat) : Bool :=
  decide (p.engineBase.toNat ≤ x) && decide (x < p.engineBase.toNat + 0x40)

/-- A byte access of the engine is admitted when the platform admits it and it lies outside the register block
(20_memory.md R72). -/
def admitted (p : Params) (x : Nat) (k : AccessKind) : Bool := admits p x k && !inRegisterBlock p x

end Sys2Proof.Machine
end

