-- ==== Sys2Proof/Machine/State.lean ====
section
/-! DEFINITION. The state of the core, its reset value, and why a step can stop. Plain data: two states can be compared and
a state can be written out. -/

namespace Sys2Proof.Machine

/-- Host memory: the bytes that differ from 0x00, by strictly rising address. An unlisted address reads as 0x00:
95_test_vectors.md section 4, "Memory not listed is 0". DESIGN CHOICE, log entry 5, unsafe: no rule says what memory
holds before anything has written it. -/
abbrev Memory := List Host.Cell

/-- The canonical form of a memory: equal memories are equal lists, and every address exists (00_scope.md R18). -/
abbrev Memory.wf (m : Memory) : Prop :=
  m.Pairwise (fun x y => x.1 < y.1) ∧ ∀ c ∈ m, c.2 ≠ 0#8 ∧ c.1 < 2 ^ 64

/-- The fold object FOLD: four 128-bit lanes, L0 the oldest data (10_state.md R45, 44_simd_fold.md R310). -/
structure Fold where
  l0 : Lane
  l1 : Lane
  l2 : Lane
  l3 : Lane
  deriving DecidableEq, Repr

/-- The sequencer's two states (10_state.md R52). -/
inductive Sequencer where
  | idle
  | busy
  deriving DecidableEq, Repr

/-- What the host, the platform or another agent does to the core: the inputs a step serves. A program is a list of these,
outside the core (10_state.md R53, 30_encoding.md R111). DESIGN CHOICE, log entry 1, safe. -/
inductive HostEvent where
  /-- A host write of `value` to the register block at byte offset `off`, `width` bytes wide (`wr`, R111). -/
  | write (off width : Nat) (value : Word)
  /-- A host read of the register block at byte offset `off`, `width` bytes wide (`rd`, R111). -/
  | read (off width : Nat)
  /-- The host, or any agent, writes one byte of host memory between two commands (20_memory.md R84). -/
  | store (addr : Nat) (value : Byte)
  /-- The host reads one byte of host memory between two commands (20_memory.md R84). -/
  | load (addr : Nat)
  /-- A host write of `word` to CMD while another agent makes the writes `others` to host memory, in their order, during
  the command (20_memory.md R85). -/
  | commandRacing (word : Word) (others : List Host.Cell)
  /-- The platform asserts reset while the sequencer is idle (70_reset_and_hazards.md R410). -/
  | reset
  /-- A host write of `word` to CMD whose command a reset abandons (70_reset_and_hazards.md R411). -/
  | commandReset (word : Word)
  deriving DecidableEq, Repr

/-- The machine. Fields are in the order of the register block (10_state.md R31), then the objects behind it. -/
structure State where
  /-- The instance's parameters: fixed, no step changes them (log entry 2). -/
  params : Params
  /-- CMD, the last command word written (R32). -/
  cmd : Word
  /-- STATUS (R33). -/
  status : Word
  /-- CTRL, the tier enables (R35). -/
  ctrl : Word
  /-- ACC, the accumulator in public form (R37). -/
  acc : Word
  /-- LEN_LO (R38). -/
  lenLo : Word
  /-- LEN_HI (R38). -/
  lenHi : Word
  /-- SRC_LO (R39). -/
  srcLo : Word
  /-- SRC_HI (R39). -/
  srcHi : Word
  /-- DST_LO (R40). -/
  dstLo : Word
  /-- DST_HI (R40). -/
  dstHi : Word
  /-- FADDR_LO (R41). -/
  faddrLo : Word
  /-- FADDR_HI (R41). -/
  faddrHi : Word
  /-- FOLD (R45). -/
  fold : Fold
  /-- RING: the number of the unspecified contents it holds between commands (R48); `ringSlot` reads a word of them. -/
  ring : Nat
  /-- The sequencer's state (R52). -/
  seq : Sequencer
  /-- Host memory (20_memory.md R70). -/
  mem : Memory
  /-- MODEL's own: the events still to be served, oldest first (log entry 1). -/
  pending : List HostEvent
  /-- MODEL's own: the value the latest host read yielded, of a register or, zero-extended, of a memory byte (log entry
  16). -/
  readData : Option Word
  /-- MODEL's own: the writes of another agent in flight during the running command (20_memory.md R85). -/
  racing : List Host.Cell
  /-- MODEL's own: the number of the current free values (log entry 7). -/
  draws : Nat
  deriving DecidableEq, Repr

/-- Why the machine stops with a fault. The spec's own faults (E_ILLEGAL to E_BUS) are not here: they are result codes in
STATUS, and the machine goes on (60_exceptions.md R370). -/
inductive Fault where
  /-- A memory access of the host or of another agent names an address beyond the 2^64 that exist (00_scope.md R18). Raised
  by serving a `store`, a `load` or a `commandRacing` event. Safe: no such access can be made. Log entry 13. -/
  | noSuchAddress (addr : Nat)
  deriving DecidableEq, Repr

/-- Why a step has no meaning. -/
inductive Refusal where
  /-- An instruction of the opcode table that the dispatcher gives no meaning. Raised by no arm. Safe. -/
  | notModelled (mnemonic : String)
  /-- A register access that is not an aligned 32-bit access: it "has no meaning in this spec" (10_state.md R43, U7).
  Raised by serving a register access, or a byte access that falls in the register block. Safe. -/
  | notAligned32 (off width : Nat)
  /-- A register access beyond the sixteen slots of the block (10_state.md R31): it does not reach the core. Raised by
  serving a register access. Safe. Log entry 12. -/
  | outsideRegisterBlock (off : Nat)
  /-- Another agent writes memory during a command although `HOST_CONCURRENT` is false (00_scope.md R20: "no agent other
  than the engine writes host memory while a command runs"). Raised by serving a `commandRacing` event. Safe. Log
  entry 11. -/
  | concurrentWriteExcluded
  deriving DecidableEq, Repr

/-- FOLD with all four lanes 0 (10_state.md R45; 44_simd_fold.md R322). -/
def Fold.zero : Fold := ⟨0, 0, 0, 0⟩

/-- The machine right after reset (70_reset_and_hazards.md R410), as the default instance, with nothing placed in it: every
register 0 but CTRL = CAP[2:0], FOLD 0, the sequencer idle. The ring's contents are the unspecified ones numbered 0
(R48); memory lists nothing; no event is pending. -/
def State.reset : State where
  params := {}
  cmd := 0
  status := 0
  ctrl := capTiers {}
  acc := 0
  lenLo := 0
  lenHi := 0
  srcLo := 0
  srcHi := 0
  dstLo := 0
  dstHi := 0
  faddrLo := 0
  faddrHi := 0
  fold := Fold.zero
  ring := 0
  seq := .idle
  mem := []
  pending := []
  readData := none
  racing := []
  draws := 0

/-! ### Named updates of one piece of state -/

/-- STATUS <- v. -/
def State.setStatus (s : State) (v : Word) : State := { s with status := v }

/-- ACC <- v. -/
def State.setAcc (s : State) (v : Word) : State := { s with acc := v }

/-- FOLD <- f. -/
def State.setFold (s : State) (f : Fold) : State := { s with fold := f }

/-- Host memory <- m. -/
def State.setMem (s : State) (m : Memory) : State := { s with mem := m }

/-- RING holds the unspecified contents numbered k. -/
def State.setRing (s : State) (k : Nat) : State := { s with ring := k }

/-- The sequencer enters state q. -/
def State.setSeq (s : State) (q : Sequencer) : State := { s with seq := q }

/-- FADDR <- {hi, lo}. -/
def State.setFaddr (s : State) (hi lo : Word) : State := { s with faddrHi := hi, faddrLo := lo }

end Sys2Proof.Machine
end

