-- ==== Sys2Proof/Machine/Flags.lean ====
section
/-! DEFINITION. The STATUS word: its fields, the codes they hold, and what the end of a command and a host write make of it
(10_state.md R33, R34; 40_dispatcher.md R151; 60_exceptions.md R371). The core has no other condition state (R54). -/

namespace Sys2Proof.Machine

/-- The result codes of STATUS.CODE (60_exceptions.md R371). -/
inductive ResultCode where
  | ok
  | eIllegal
  | eUnavail
  | eRange
  | eSeed
  | eOverlap
  | eBus
  deriving DecidableEq, Repr

/-- The 4-bit encoding of a result code (R371). -/
def codeBits : ResultCode → BitVec 4
  | .ok => 0
  | .eIllegal => 1
  | .eUnavail => 2
  | .eRange => 3
  | .eSeed => 4
  | .eOverlap => 5
  | .eBus => 6

/-- The 3-bit encoding of a tier code (10_state.md R33). -/
def tierBits : Tier → BitVec 3
  | .none => 0
  | .scalar => 1
  | .braid => 2
  | .chorbaS => 3
  | .chorbaL => 4
  | .simd => 5

/-- STATUS.DONE. -/
def statusDone (v : Word) : Bool := v.getLsbD 0

/-- STATUS.CODE. -/
def statusCode (v : Word) : BitVec 4 := v.extractLsb' 4 4

/-- STATUS.ERR. -/
def statusErr (v : Word) : Bool := v.getLsbD 8

/-- STATUS.TIER. -/
def statusTier (v : Word) : BitVec 3 := v.extractLsb' 12 3

/-- The mask of STATUS's reserved bits 3:1, 11:9 and 31:15 (10_state.md R33). -/
def statusReserved : Word := 0xFFFF8E0E#32

/-- `v` with its field of `n` bits from bit `lo` replaced by `x`. -/
def insertBits {n : Nat} (v : Word) (lo : Nat) (x : BitVec n) : Word :=
  (v &&& ~~~((BitVec.allOnes n).setWidth 32 <<< lo)) ||| (x.setWidth 32 <<< lo)

/-- The tier code the end of a command reports: 0 after a fault (40_dispatcher.md R151). -/
def reportedTier (code : ResultCode) (t : Tier) : Tier := if code = .ok then t else .none

/-- STATUS after `finish(code, t)`: DONE set, CODE and TIER written, ERR set by a fault and left by a success
(40_dispatcher.md R151). -/
def statusAfter (code : ResultCode) (t : Tier) (old : Word) : Word :=
  let done := insertBits old 0 1#1
  let coded := insertBits done 4 (codeBits code)
  let sticky := if code = .ok then coded else insertBits coded 8 1#1
  insertBits sticky 12 (tierBits (reportedTier code t))

/-- STATUS after a host write of `v` to it: bit 8 = 1 clears ERR, every other bit is ignored (10_state.md R34). -/
def statusHostWrite (v old : Word) : Word := if v.getLsbD 8 then insertBits old 8 0#1 else old

end Sys2Proof.Machine
end

