-- ==== Sys2Proof/Machine/Operands.lean ====
section
/-! DEFINITION. The operands of a command: the 64-bit pairs, the enables, and the memory ranges each command reads and
writes (30_encoding.md R109, R110; 20_memory.md R73, R74). A command samples them at its CMD write (10_state.md R44). -/

namespace Sys2Proof.Machine

/-- LEN = {LEN_HI, LEN_LO}, as a count (00_scope.md R27; counts are naturals, R24). -/
def lenOp (s : State) : Nat := (s.lenHi ++ s.lenLo).toNat

/-- SRC = {SRC_HI, SRC_LO}, as an address. -/
def srcOp (s : State) : Nat := (s.srcHi ++ s.srcLo).toNat

/-- DST = {DST_HI, DST_LO}, as an address. -/
def dstOp (s : State) : Nat := (s.dstHi ++ s.dstLo).toNat

/-- CTRL.BRAID_EN (10_state.md R35). -/
def braidEn (s : State) : Bool := s.ctrl.getLsbD 0

/-- CTRL.CHORBA_EN (10_state.md R35). -/
def chorbaEn (s : State) : Bool := s.ctrl.getLsbD 1

/-- CTRL.SIMD_EN (10_state.md R35). -/
def simdEn (s : State) : Bool := s.ctrl.getLsbD 2

/-- The value a FOLD_UPDATE injects: v = ACC ^ M32 when INJ = 1, else 0 (44_simd_fold.md R323). -/
def injected (inj : Bool) (s : State) : Word := if inj then s.acc ^^^ M32 else 0

/-- A memory range of a command: `size` bytes from `base`, read or written. -/
structure MemRange where
  base : Nat
  size : Nat
  kind : AccessKind
  deriving DecidableEq, Repr

/-- The ranges of a command (60_exceptions.md R374). -/
def ranges (i : Instr) (s : State) : List MemRange :=
  match i with
  | .nop => []
  | .crc32Auto => [⟨srcOp s, lenOp s, .read⟩]
  | .crc32Scalar => [⟨srcOp s, lenOp s, .read⟩]
  | .crc32Braid => [⟨srcOp s, lenOp s, .read⟩]
  | .crc32ChorbaS => [⟨srcOp s, lenOp s, .read⟩]
  | .crc32ChorbaL => [⟨srcOp s, lenOp s, .read⟩]
  | .crc32Simd => [⟨srcOp s, lenOp s, .read⟩]
  | .foldInit => []
  | .foldUpdate _ => [⟨srcOp s, lenOp s, .read⟩]
  | .foldCopy => [⟨srcOp s, lenOp s, .read⟩, ⟨dstOp s, lenOp s, .write⟩]
  | .foldFinal => []
  | .foldSave => [⟨dstOp s, 64, .write⟩]
  | .foldLoad => [⟨srcOp s, 64, .read⟩]

/-- `unavail`: the command needs a tier whose enable is 0 (60_exceptions.md R373). -/
def unavail (i : Instr) (s : State) : Bool :=
  match i with
  | .nop => false
  | .crc32Auto => false
  | .crc32Scalar => false
  | .crc32Braid => !braidEn s
  | .crc32ChorbaS => !chorbaEn s
  | .crc32ChorbaL => !chorbaEn s
  | .crc32Simd => !simdEn s
  | .foldInit => !simdEn s
  | .foldUpdate _ => !simdEn s
  | .foldCopy => !simdEn s
  | .foldFinal => !simdEn s
  | .foldSave => !simdEn s
  | .foldLoad => !simdEn s

/-- Some range of the command is not empty and passes the top of the address space (60_exceptions.md R374). -/
def outOfRange (i : Instr) (s : State) : Bool :=
  (ranges i s).any fun r => decide (0 < r.size) && decide (2 ^ 64 < r.base + r.size)

/-- A nonzero seed is injected into fewer than 16 bytes (60_exceptions.md R375). -/
def seedTooShort (i : Instr) (s : State) : Bool :=
  match i with
  | .foldUpdate inj => injected inj s != 0 && decide (lenOp s < foldMinSeeded)
  | .nop | .crc32Auto | .crc32Scalar | .crc32Braid | .crc32ChorbaS | .crc32ChorbaL | .crc32Simd => false
  | .foldInit | .foldCopy | .foldFinal | .foldSave | .foldLoad => false

/-- The source and destination of a FOLD_COPY share a byte (60_exceptions.md R376). -/
def copyOverlaps (i : Instr) (s : State) : Bool :=
  match i with
  | .foldCopy =>
    decide (0 < lenOp s) && decide (srcOp s < dstOp s + lenOp s) && decide (dstOp s < srcOp s + lenOp s)
  | .nop | .crc32Auto | .crc32Scalar | .crc32Braid | .crc32ChorbaS | .crc32ChorbaL | .crc32Simd => false
  | .foldInit | .foldUpdate _ | .foldFinal | .foldSave | .foldLoad => false

/-- The lowest address of the `n` bytes from `base` that is not admitted (60_exceptions.md R377). -/
def lowestRefused (p : Params) (k : AccessKind) : Nat → Nat → Option Nat
  | _, 0 => none
  | base, n + 1 => if admitted p base k then lowestRefused p k (base + 1) n else some base

/-- The lower of two addresses that may be absent. -/
def lower : Option Nat → Option Nat → Option Nat
  | none, y => y
  | some x, none => some x
  | some x, some y => some (min x y)

/-- `min(bad)`: the lowest refused address over all ranges of the command (60_exceptions.md R377, R378). -/
def refusedAddress (i : Instr) (s : State) : Option Nat :=
  (ranges i s).foldr (fun r rest => lower (lowestRefused s.params r.kind r.base r.size) rest) none

end Sys2Proof.Machine
end

