-- ==== Sys2Proof/Machine/Ops.lean ====
section
/-! DEFINITION. The named operations over memory and registers that every command shares: memory bytes, the checks before a
body, the end of a command, a fault, and reset (00_scope.md R27, R28; 40_dispatcher.md R150, R151; 60_exceptions.md R378,
R379; 70_reset_and_hazards.md R410, R411). -/

namespace Sys2Proof.Machine

/-! ### Host memory -/

/-- The byte at an address. -/
def memRead (m : Memory) (a : Nat) : Byte := sparseRead 0#8 m a

/-- The memory with byte `b` at address `a`; the canonical form is kept. -/
def memWrite (m : Memory) (a : Nat) (b : Byte) : Memory := sparseWrite 0#8 m a b

/-- The `n` bytes from address `a` on. -/
def readBytes (m : Memory) : Nat → Nat → List Byte
  | _, 0 => []
  | a, n + 1 => memRead m a :: readBytes m (a + 1) n

/-- `MemWrite(a, len(B), B)` (00_scope.md R27). -/
def writeBytes (m : Memory) : Nat → List Byte → Memory
  | _, [] => m
  | a, b :: bs => writeBytes (memWrite m a b) (a + 1) bs

/-! ### Engine reads -/

/-- The values the in-flight writes of another agent give the byte at `a`, in their order. -/
def racingValues (others : List Host.Cell) (a : Nat) : List Byte :=
  (others.filter fun c => c.1 == a).map Prod.snd

/-- The byte engine read number `index` of the running command draws at `a`: what memory holds, or, where another agent
writes the byte during the command, one of the values before and after its writes (20_memory.md R85). -/
def engineByte (s : State) (index a : Nat) : Byte :=
  match racingValues s.racing a with
  | [] => memRead s.mem a
  | v :: vs =>
    (memRead s.mem a :: v :: vs).getD (Config.raceChoice s.draws index % (vs.length + 2)) (memRead s.mem a)

/-- `MemRead(a, n)` of the running command, its byte reads numbered from `index` on (00_scope.md R27; 20_memory.md R73:
"one value per address"). -/
def engineRead (s : State) : (index a n : Nat) → List Byte
  | _, _, 0 => []
  | index, a, n + 1 => engineByte s index a :: engineRead s (index + 1) (a + 1) n

/-! ### The end of a command, and a fault -/

/-- `finish(code, t)` (40_dispatcher.md R151); the sequencer returns to IDLE (10_state.md R52). -/
def finish (code : ResultCode) (t : Tier) (s : State) : State :=
  (s.setStatus (statusAfter code t s.status)).setSeq .idle

/-- FADDR <- x: FADDR_LO <- bits 31:0, FADDR_HI <- bits 63:32 (60_exceptions.md R377). -/
def recordAddress (x : Nat) (s : State) : State :=
  s.setFaddr (BitVec.ofNat 32 (x / 2 ^ 32)) (BitVec.ofNat 32 x)

/-- `raise Fault(code, info)`, the core's one way of taking a fault: the command ends with `finish(code, 0)`, an address is
recorded where the fault has one, and nothing else changes (60_exceptions.md R379). There is no trap entry and nothing
to return from (R381, R382). -/
def raiseFault (code : ResultCode) (info : Option Nat) (s : State) : State :=
  match info with
  | none => finish code .none s
  | some x => finish code .none (recordAddress x s)

/-! ### The checks and the frame of a command -/

/-- A fault the checks raise: its code and the address it records. -/
structure Raised where
  code : ResultCode
  info : Option Nat
  deriving DecidableEq, Repr

/-- `check` for a legal command: the first condition that holds, in the order E_UNAVAIL, E_RANGE, E_SEED, E_OVERLAP, E_BUS
(60_exceptions.md R378). -/
def check (i : Instr) (s : State) : Option Raised :=
  if unavail i s then some ⟨.eUnavail, none⟩
  else if outOfRange i s then some ⟨.eRange, none⟩
  else if seedTooShort i s then some ⟨.eSeed, none⟩
  else if copyOverlaps i s then some ⟨.eOverlap, none⟩
  else
    match refusedAddress i s with
    | some x => some ⟨.eBus, some x⟩
    | none => none

/-- The frame every command runs in: checks, then the body, then `finish(OK, t)` (40_dispatcher.md R150). The body runs only
when every check passes. -/
def runCommand (i : Instr) (body : State → State × Tier) (s : State) : Host.Outcome State Fault Refusal :=
  match check i s with
  | some f => .next (raiseFault f.code f.info s)
  | none => .next (finish .ok (body s).2 (body s).1)

/-- `body_crc32`: the frame of every CRC32 command over its tier function (40_dispatcher.md R153). A large Chorba body
leaves the ring with contents of its own, unspecified (10_state.md R48). -/
def crc32Body (tierfn : Word → List Byte → Nat → Word × Tier) (s : State) : State × Tier :=
  let r := tierfn (s.acc ^^^ M32) (engineRead s 0 (srcOp s) (lenOp s)) (srcOp s)
  let done := s.setAcc (r.1 ^^^ M32)
  (if r.2 = .chorbaL then done.setRing s.draws else done, r.2)

/-! ### The ring and reset -/

/-- The word in a slot of the ring between commands: unspecified (10_state.md R48). -/
def ringSlot (s : State) (slot : Nat) : DWord := Config.ringWord s.ring slot

/-- Reset: every piece of the core's state takes the value of R410, and the ring unspecified contents. Host memory, the
parameters and the host's further accesses are outside the core and stay (log entry 22). -/
def applyReset (s : State) : State :=
  { s with
    cmd := 0, status := 0, ctrl := capTiers s.params, acc := 0, lenLo := 0, lenHi := 0, srcLo := 0, srcHi := 0,
    dstLo := 0, dstHi := 0, faddrLo := 0, faddrHi := 0, fold := Fold.zero, ring := s.draws + 1, seq := .idle,
    racing := [], draws := s.draws + 1 }

/-- The `n` bytes from `a` on, each with an unspecified value (70_reset_and_hazards.md R411). -/
def scramble (draw : Nat) (m : Memory) : Nat → Nat → Memory
  | _, 0 => m
  | a, n + 1 => scramble draw (memWrite m a (Config.resetByte draw a)) (a + 1) n

/-- How many bytes of a range exist: addresses end at 2^64 and never wrap (00_scope.md R18, 20_memory.md R81). -/
def existingBytes (r : MemRange) : Nat := min r.size (2 ^ 64 - r.base)

/-- Memory after a reset abandoned a command: each byte of the command's write range holds an unspecified value, the rest is
unchanged (R411). -/
def scrambleWrites (draw : Nat) (m : Memory) (rs : List MemRange) : Memory :=
  rs.foldl (fun m r => if r.kind = .write then scramble draw m r.base (existingBytes r) else m) m

end Sys2Proof.Machine
end

