-- ==== Sys2Proof/Machine/Braided.lean ====
section
/-! DEFINITION. The braided reducer and CRC32.BRAID (42_braided.md R230 to R240). W is `BRAID_W`, N is `BRAID_N`. -/

namespace Sys2Proof.Machine

/-- The braid table entry BT[k][b] (R230); R242 lists the values for N = 5, W = 8. -/
def braidTable (w n k : Nat) (b : Byte) : Word := crcRaw 0 (b :: zeros (n * w - 1 - k))

/-- XOR of BT[k][byte k of u] over the `j` byte positions from `k` on, `u` shifted so that byte k is its low byte. -/
def braidLookup (w n : Nat) : (j k : Nat) → DWord → Word
  | 0, _, _ => 0
  | j + 1, k, u => braidTable w n k (u.setWidth 8) ^^^ braidLookup w n j (k + 1) (u >>> 8)

/-- `lane_step(s, u)` (R231). -/
def laneStep (w n : Nat) (s : Word) (u : DWord) : Word := braidLookup w n w 0 (s.setWidth 64 ^^^ u)

/-- One super-block: each lane takes its own word (R233, R235). -/
def laneRound (w n : Nat) : List Word → List Byte → List Word
  | [], _ => []
  | s :: rest, bs => laneStep w n s (wordAt w bs 0) :: laneRound w n rest (bs.drop w)

/-- `k` super-blocks from the front of B: the lanes after them, and the bytes left (R235). -/
def laneRounds (w n : Nat) : Nat → List Word → List Byte → List Word × List Byte
  | 0, lanes, bs => (lanes, bs)
  | k + 1, lanes, bs => laneRounds w n k (laneRound w n lanes bs) (bs.drop (n * w))

/-- `combine`: the lanes folded into one another over the final super-block (R234). -/
def combine (w : Nat) : Word → List Word → List Byte → Word
  | x, [], _ => x
  | x, s :: rest, bs =>
    combine w (crcWord w (s.setWidth 64 ^^^ wordAt w bs 0 ^^^ x.setWidth 64)) rest (bs.drop w)

/-- The bytes before the next multiple of W: (0 − a) mod W (R232). -/
def bytesToBoundary (w a : Nat) : Nat := (w - a % w) % w

/-- `braided_tier(c, D, a)` (R235). -/
def braidedTier (w n : Nat) (c : Word) (bs : List Byte) (a : Nat) : Word × Tier :=
  if bs.length < n * w + w - 1 then scalarTier w c bs
  else
    let j := bytesToBoundary w a
    let body := bs.drop j
    let blocks := body.length / (n * w)
    let run := laneRounds w n (blocks - 1) (crcRaw c (bs.take j) :: List.replicate (n - 1) 0#32) body
    let x := combine w 0 run.1 run.2
    ((scalarTier w x (run.2.drop (n * w))).1, .braid)

/-- CRC32.BRAID (R240). -/
def execCrc32Braid (s : State) : Host.Outcome State Fault Refusal :=
  runCommand .crc32Braid (crc32Body fun c bs a => braidedTier (braidW s.params) (braidN s.params) c bs a) s

end Sys2Proof.Machine
end

