-- ==== Sys2Proof/Machine/Chorba.lean ====
section
/-! DEFINITION. The Chorba deferred-XOR reducers, CRC32.CHORBA_S and CRC32.CHORBA_L (43_chorba.md R260 to R291). Both work on
64-bit words for every `BRAID_W` (R276). -/

namespace Sys2Proof.Machine

/-! ### The small variant -/

/-- The four contributions of a moved word, to the words 2, 3, 4 and 5 further on. -/
structure Spread where
  s0 : DWord
  s1 : DWord
  s2 : DWord
  s3 : DWord
  deriving DecidableEq, Repr

/-- `spread(v)` (R262). -/
def spread (v : DWord) : Spread where
  s0 := (v <<< 17) ^^^ (v <<< 55)
  s1 := (v >>> 47) ^^^ (v >>> 9) ^^^ (v <<< 19)
  s2 := (v >>> 45) ^^^ (v <<< 44)
  s3 := v >>> 20

/-- The five "next" words: the pending contributions to the next five input words (R263). -/
structure Next5 where
  n0 : DWord
  n1 : DWord
  n2 : DWord
  n3 : DWord
  n4 : DWord
  deriving DecidableEq, Repr

/-- `small_iter`: one iteration over four input words (R263). -/
def smallIter (nx : Next5) (w0 w1 w2 w3 : DWord) : Next5 :=
  let a := spread (w0 ^^^ nx.n0)
  let b := spread (w1 ^^^ nx.n1)
  let c := spread (w2 ^^^ nx.n2 ^^^ a.s0)
  let d := spread (w3 ^^^ nx.n3 ^^^ a.s1 ^^^ b.s0)
  { n0 := nx.n4 ^^^ (a.s2 ^^^ b.s1 ^^^ c.s0)
    n1 := a.s3 ^^^ b.s2 ^^^ c.s1 ^^^ d.s0
    n2 := b.s3 ^^^ c.s2 ^^^ d.s1
    n3 := c.s3 ^^^ d.s2
    n4 := d.s3 }

/-- How many iterations the loop `while n − i >= 72` of R264 makes on `n` bytes, 32 bytes each: it leaves 40 to 71. -/
def smallRounds (n : Nat) : Nat := (n - (chorbaSmallMin - chorbaSmallStep)) / chorbaSmallStep

/-- `k` iterations from the front of B: the state after them, and the bytes left (R264). -/
def smallLoop : Nat → Next5 → List Byte → Next5 × List Byte
  | 0, nx, bs => (nx, bs)
  | k + 1, nx, bs =>
    smallLoop k (smallIter nx (le 64 8 bs 0) (le 64 8 bs 8) (le 64 8 bs 16) (le 64 8 bs 24)) (bs.drop chorbaSmallStep)

/-- The bytes of the five state words, in their order (R264). -/
def nextBytes (nx : Next5) : List Byte :=
  bytesLE 8 nx.n0 ++ bytesLE 8 nx.n1 ++ bytesLE 8 nx.n2 ++ bytesLE 8 nx.n3 ++ bytesLE 8 nx.n4

/-- `chorba_small_tier(c, D)` (R264). W is the scalar reducer's word width. -/
def chorbaSmallTier (w : Nat) (c : Word) (bs : List Byte) : Word × Tier :=
  if bs.length < chorbaSmallMin then scalarTier w c bs
  else
    let run := smallLoop (smallRounds bs.length) ⟨c.setWidth 64, 0, 0, 0, 0⟩ bs
    ((scalarTier w 0 (xorPrefix run.2 (nextBytes run.1))).1, .chorbaS)

/-! ### The large variant

The functions take the lag L, the ring capacity C and the term set J; the tier function takes them from the constants of
00_scope.md R13, R14 and R265. -/

/-- The term set J of the lag 14870: the bit positions of x^(64·14870) mod P = 0x3DBB3B41 (R265). -/
def chorbaTerms : List Nat := [0, 6, 8, 9, 11, 12, 13, 16, 17, 19, 20, 21, 23, 24, 26, 27, 28, 29]

/-- The ring inside one body: the slots that are not 0. It begins empty: every slot cleared (R267). -/
abbrev RingWords := List (Nat × DWord)

/-- XOR a deposit into a slot. -/
def ringDeposit (ring : RingWords) (slot : Nat) (f : DWord) : RingWords :=
  sparseWrite 0#64 ring slot (sparseRead 0#64 ring slot ^^^ f)

/-- The first deposit of `push(w)`, into word u + L − 1 (R266). -/
def pushNear (terms : List Nat) (v : DWord) : DWord :=
  terms.foldr (fun (j : Nat) (f : DWord) => (if j = 0 then 0#64 else v <<< (64 - j)) ^^^ f) 0#64

/-- The second deposit of `push(w)`, into word u + L (R266). -/
def pushFar (terms : List Nat) (v : DWord) : DWord :=
  terms.foldr (fun (j : Nat) (f : DWord) => (v >>> j) ^^^ f) 0#64

/-- `large_word(u)` on the word `d` = le_8(D, 8u) with accumulator c (R268). -/
def largeWord (lag cap : Nat) (terms : List Nat) (c : Word) (u : Nat) (d : DWord) (ring : RingWords) : RingWords :=
  let due := d ^^^ sparseRead 0#64 ring (u % cap)
  let v := if u = 0 then due ^^^ c.setWidth 64 else due
  let consumed := sparseWrite 0#64 ring (u % cap) 0
  let near := ringDeposit consumed ((u + lag - 1) % cap) (pushNear terms v)
  ringDeposit near ((u + lag) % cap) (pushFar terms v)

/-- `k` words from word `u` on, B being the bytes from that word on (R269, R272). -/
def largeWords (lag cap : Nat) (terms : List Nat) (c : Word) : Nat → Nat → List Byte → RingWords → RingWords
  | 0, _, _, ring => ring
  | k + 1, u, bs, ring =>
    largeWords lag cap terms c k (u + 1) (bs.drop 8) (largeWord lag cap terms c u (le 64 8 bs 0) ring)

/-- How many words the block loop `while t + 32 + L <= nw` of R269 processes: whole blocks of 32. -/
def blockWords (lag nw : Nat) : Nat := (nw - lag) / chorbaBlockWords * chorbaBlockWords

/-- The bytes the ring holds for `k` words from word `u` on, in the order of the words (R270). -/
def ringBytes (cap : Nat) (ring : RingWords) : Nat → Nat → List Byte
  | 0, _ => []
  | k + 1, u => bytesLE 8 (sparseRead 0#64 ring (u % cap)) ++ ringBytes cap ring k (u + 1)

/-- `drain(D, t)`: the pending contributions of the words t to min(t + L, nw − 1) XORed into the tail (R270). -/
def drain (lag cap : Nat) (ring : RingWords) (bs : List Byte) (t : Nat) : List Byte :=
  xorPrefix (bs.drop (8 * t)) (ringBytes cap ring (min (t + lag + 1) (bs.length / 8) - t) t)

/-- `chorba_large_tier(c, D)` for a lag, a ring capacity and a term set (R272). -/
def chorbaLarge (lag cap : Nat) (terms : List Nat) (w : Nat) (c : Word) (bs : List Byte) : Word × Tier :=
  if bs.length < 8 * (lag + chorbaBlockWords + 1) then chorbaSmallTier w c bs
  else
    let t := blockWords lag (bs.length / 8)
    let ring := largeWords lag cap terms c t 0 bs []
    ((chorbaSmallTier w 0 (drain lag cap ring bs t)).1, .chorbaL)

/-- `chorba_large_tier(c, D)` (R272). -/
def chorbaLargeTier (w : Nat) (c : Word) (bs : List Byte) : Word × Tier :=
  chorbaLarge chorbaLag chorbaRingWords chorbaTerms w c bs

/-! ### The commands -/

/-- CRC32.CHORBA_S (R290). -/
def execCrc32ChorbaS (s : State) : Host.Outcome State Fault Refusal :=
  runCommand .crc32ChorbaS (crc32Body fun c bs _ => chorbaSmallTier (braidW s.params) c bs) s

/-- CRC32.CHORBA_L (R291). -/
def execCrc32ChorbaL (s : State) : Host.Outcome State Fault Refusal :=
  runCommand .crc32ChorbaL (crc32Body fun c bs _ => chorbaLargeTier (braidW s.params) c bs) s

end Sys2Proof.Machine
end

