-- ==== Sys2Proof/Machine/FoldEngine.lean ====
section
/-! DEFINITION. The carry-less-multiplication fold engine, CRC32.SIMD and the FOLD commands (44_simd_fold.md R310 to R327). -/

namespace Sys2Proof.Machine

/-! ### The fold object and its window -/

/-- `ser(FOLD)`, the window: L0 first, each lane little-endian (10_state.md R45, 20_memory.md R77). -/
def serFold (f : Fold) : List Byte := bytesLE 16 f.l0 ++ bytesLE 16 f.l1 ++ bytesLE 16 f.l2 ++ bytesLE 16 f.l3

/-- `deser(B)` (10_state.md R45). -/
def deserFold (bs : List Byte) : Fold := ⟨le 128 16 bs 0, le 128 16 bs 16, le 128 16 bs 32, le 128 16 bs 48⟩

/-- `reduce(FOLD) = crc_raw(0, ser(FOLD))`, the stream register of the fold object (R316, 10_state.md R47). -/
def reduceFold (f : Fold) : Word := crcRaw 0 (serFold f)

/-! ### Fold arithmetic -/

/-- The low constant of the fold-by-64-bytes pair (R311). -/
def k4lo : BitVec 33 := 0x154442BD4#33

/-- The high constant of the fold-by-64-bytes pair (R311). -/
def k4hi : BitVec 33 := 0x1C6E41596#33

/-- `fold4(X)` (R312). -/
def fold4 (x : Lane) : Lane :=
  (clmul (x.extractLsb' 0 64) k4lo).setWidth 128 ^^^ (clmul (x.extractLsb' 64 64) k4hi).setWidth 128

/-- `wshift(S, n, K)` with n = len(K): the window moves on by the bytes K, its oldest bytes folded into its last 16
(R313). -/
def wshift (window fed : List Byte) : List Byte :=
  let oldest := zeros (16 - fed.length) ++ window.take fed.length
  xorAt (window.drop fed.length ++ fed) 48 (bytesLE 16 (fold4 (le 128 16 oldest 0)))

/-- `k` shifts of 16 bytes from the front of B: the window after them, and the bytes left (R314). -/
def wshiftBlocks : Nat → List Byte → List Byte → List Byte × List Byte
  | 0, window, bs => (window, bs)
  | k + 1, window, bs => wshiftBlocks k (wshift window (bs.take 16)) (bs.drop 16)

/-- The window after the bytes of B, none being a shift of no bytes (R314: each shift is taken only if bytes remain). -/
def wshiftSome (window fed : List Byte) : List Byte := if fed = [] then window else wshift window fed

/-- The leading bytes before the next 16-byte boundary that a fold update feeds as a shift of their own: (0 − a) mod 16 when
that is less than the length, else none (R314). -/
def leadBytes (a n : Nat) : Nat := if (16 - a % 16) % 16 < n then (16 - a % 16) % 16 else 0

/-- `canon_update(S, D, a, v)` (R314), the seed injected into the first four bytes (R315). -/
def canonUpdate (window bs : List Byte) (a : Nat) (v : Word) : List Byte :=
  let fed := xorPrefix bs (bytesLE 4 v)
  let lead := leadBytes a fed.length
  let led := wshiftSome window (fed.take lead)
  let run := wshiftBlocks ((fed.length - lead) / 16) led (fed.drop lead)
  wshiftSome run.1 run.2

/-! ### Relational mode -/

/-- The step before `crcStep`: the register from which one reflected shift gives `c`. The polynomial's top bit is 1, so bit
31 of `c` is the bit that was shifted out. -/
def crcUnstep (c : Word) : Word :=
  if c.getLsbD 31 then ((c ^^^ polyReflected) <<< 1) ||| 1#32 else c <<< 1

/-- The window with free first 60 bytes whose reduction is `target`: its last four bytes are the ones that bring the
register to it. Every window with that reduction is this one for some 60 bytes, so the draw leaves open exactly what
R318 leaves open. DEDUCED from R318 and R205, log entry 8, safe. -/
def relationalWindow (free : BitVec 480) (target : Word) : List Byte :=
  bytesLE 60 free ++ bytesLE 4 (crcRaw 0 (bytesLE 60 free) ^^^ repeatStep crcUnstep 32 target)

/-- The window a fold command that feeds B from address `a` with injected value `v` leaves: the canonical one (R314), or in
relational mode any window of the right reduction (R318). No byte fed leaves FOLD as it is in both modes (R323). -/
def fedWindow (s : State) (bs : List Byte) (a : Nat) (v : Word) : List Byte :=
  match s.params.lanesMode with
  | .canonical => canonUpdate (serFold s.fold) bs a v
  | .relational =>
    if bs = [] then serFold s.fold
    else relationalWindow (Config.laneDraw s.draws) (crcRaw (reduceFold s.fold ^^^ v) bs)

/-! ### The one-shot tier -/

/-- `simd_tier(c, D, a)` on a private window (R320). -/
def simdTier (w : Nat) (c : Word) (bs : List Byte) (a : Nat) : Word × Tier :=
  if bs.length < simdTierMin then scalarTier w c bs
  else (crcRaw 0 (canonUpdate (zeros 64) bs a c), .simd)

/-! ### The commands -/

/-- CRC32.SIMD (R321). -/
def execCrc32Simd (s : State) : Host.Outcome State Fault Refusal :=
  runCommand .crc32Simd (crc32Body fun c bs a => simdTier (braidW s.params) c bs a) s

/-- The body of FOLD_INIT (R322). -/
def foldInitBody (s : State) : State × Tier := (s.setFold Fold.zero, .none)

/-- FOLD_INIT (R322). -/
def execFoldInit (s : State) : Host.Outcome State Fault Refusal := runCommand .foldInit foldInitBody s

/-- The body of FOLD_UPDATE (R323). -/
def foldUpdateBody (inj : Bool) (s : State) : State × Tier :=
  let bs := engineRead s 0 (srcOp s) (lenOp s)
  (s.setFold (deserFold (fedWindow s bs (srcOp s) (injected inj s))), .simd)

/-- FOLD_UPDATE (R323). -/
def execFoldUpdate (inj : Bool) (s : State) : Host.Outcome State Fault Refusal :=
  runCommand (.foldUpdate inj) (foldUpdateBody inj) s

/-- The body of FOLD_COPY (R324). The copied bytes are read by reads of their own, numbered after those that are folded: they
are the same bytes unless another agent writes them meanwhile (20_memory.md R85, log entry 9). -/
def foldCopyBody (s : State) : State × Tier :=
  let bs := engineRead s 0 (srcOp s) (lenOp s)
  let copied := engineRead s (lenOp s) (srcOp s) (lenOp s)
  ((s.setFold (deserFold (fedWindow s bs (srcOp s) 0))).setMem (writeBytes s.mem (dstOp s) copied), .simd)

/-- FOLD_COPY (R324). -/
def execFoldCopy (s : State) : Host.Outcome State Fault Refusal := runCommand .foldCopy foldCopyBody s

/-- The body of FOLD_FINAL: FOLD is unchanged (R325). -/
def foldFinalBody (s : State) : State × Tier := (s.setAcc (reduceFold s.fold ^^^ M32), .none)

/-- FOLD_FINAL (R325). -/
def execFoldFinal (s : State) : Host.Outcome State Fault Refusal := runCommand .foldFinal foldFinalBody s

/-- The body of FOLD_SAVE: FOLD is unchanged (R326). -/
def foldSaveBody (s : State) : State × Tier := (s.setMem (writeBytes s.mem (dstOp s) (serFold s.fold)), .none)

/-- FOLD_SAVE (R326). -/
def execFoldSave (s : State) : Host.Outcome State Fault Refusal := runCommand .foldSave foldSaveBody s

/-- The body of FOLD_LOAD: every 64-byte value is legal (R327). -/
def foldLoadBody (s : State) : State × Tier := (s.setFold (deserFold (engineRead s 0 (srcOp s) 64)), .none)

/-- FOLD_LOAD (R327). -/
def execFoldLoad (s : State) : Host.Outcome State Fault Refusal := runCommand .foldLoad foldLoadBody s

end Sys2Proof.Machine
end

