-- ==== Sys2Proof/Machine/Dispatcher.lean ====
section
/-! DEFINITION. NOP and the tier selector of CRC32.AUTO (40_dispatcher.md R152, R156). -/

namespace Sys2Proof.Machine

/-- NOP: the end of a command and nothing else (R152). -/
def execNop (s : State) : Host.Outcome State Fault Refusal := runCommand .nop (fun s => (s, .none)) s

/-- What the selector reads of the machine: the parameters and CTRL[2:0], sampled at the CMD write. -/
structure Enables where
  braid : Bool
  chorba : Bool
  simd : Bool
  deriving DecidableEq, Repr

/-- CTRL[2:0] as the selector samples it. -/
def enables (s : State) : Enables := ⟨braidEn s, chorbaEn s, simdEn s⟩

/-- The braided tier where it is enabled, else the scalar tier (R156, R162). -/
def braidedOrScalar (p : Params) (en : Enables) (c : Word) (bs : List Byte) (a : Nat) : Word × Tier :=
  if en.braid then braidedTier (braidW p) (braidN p) c bs a else scalarTier (braidW p) c bs

/-- The tier that takes the bytes after the alignment prefix, which start at a 16-byte boundary `a` (R156). -/
def afterPrefix (p : Params) (en : Enables) (c : Word) (bs : List Byte) (a : Nat) : Word × Tier :=
  if en.chorba && decide (largeThreshold p < bs.length) then chorbaLargeTier (braidW p) c bs
  else if en.chorba && decide (smallThreshold p < bs.length) then chorbaSmallTier (braidW p) c bs
  else braidedOrScalar p en c bs a

/-- The alignment prefix: (0 − a) mod `PREFIX_ALIGN` bytes (00_scope.md R11). -/
def prefixBytes (a : Nat) : Nat := (prefixAlign - a % prefixAlign) % prefixAlign

/-- `auto_tier(ctrl, c, D, a)` (R156). -/
def autoTier (p : Params) (en : Enables) (c : Word) (bs : List Byte) (a : Nat) : Word × Tier :=
  let k := prefixBytes a
  if en.simd && decide (simdMin ≤ bs.length) then simdTier (braidW p) c bs a
  else if k < bs.length then
    afterPrefix p en (scalarTier (braidW p) c (bs.take k)).1 (bs.drop k) (a + k)
  else braidedOrScalar p en c bs a

/-- CRC32.AUTO (R156). -/
def execCrc32Auto (s : State) : Host.Outcome State Fault Refusal :=
  runCommand .crc32Auto (crc32Body fun c bs a => autoTier s.params (enables s) c bs a) s

end Sys2Proof.Machine
end

