-- ==== Sys2Proof/Machine/Scalar.lean ====
section
/-! DEFINITION. CRC32.SCALAR (41_scalar.md R208). -/

namespace Sys2Proof.Machine

/-- CRC32.SCALAR: no prefix, no enable, no fallback (R208). -/
def execCrc32Scalar (s : State) : Host.Outcome State Fault Refusal :=
  runCommand .crc32Scalar (crc32Body fun c bs _ => scalarTier (braidW s.params) c bs) s

end Sys2Proof.Machine
end

