-- ==== Sys2Proof/Machine/Dispatch.lean ====
section
/-! DEFINITION. The meaning of each command, one arm per constructor of Instr (30_encoding.md R106). -/

namespace Sys2Proof.Machine

def exec (i : Instr) (s : State) : Host.Outcome State Fault Refusal :=
  match i with
  -- 40_dispatcher.md
  | .nop => Sys2Proof.Machine.execNop s
  | .crc32Auto => Sys2Proof.Machine.execCrc32Auto s
  -- 41_scalar.md, 42_braided.md, 43_chorba.md
  | .crc32Scalar => Sys2Proof.Machine.execCrc32Scalar s
  | .crc32Braid => Sys2Proof.Machine.execCrc32Braid s
  | .crc32ChorbaS => Sys2Proof.Machine.execCrc32ChorbaS s
  | .crc32ChorbaL => Sys2Proof.Machine.execCrc32ChorbaL s
  -- 44_simd_fold.md
  | .crc32Simd => Sys2Proof.Machine.execCrc32Simd s
  | .foldInit => Sys2Proof.Machine.execFoldInit s
  | .foldUpdate inj => Sys2Proof.Machine.execFoldUpdate inj s
  | .foldCopy => Sys2Proof.Machine.execFoldCopy s
  | .foldFinal => Sys2Proof.Machine.execFoldFinal s
  | .foldSave => Sys2Proof.Machine.execFoldSave s
  | .foldLoad => Sys2Proof.Machine.execFoldLoad s

end Sys2Proof.Machine
end

