-- ==== Sys2Proof/Machine/HostPort.lean ====
section
/-! DEFINITION. The host's side of the core: the register block, a CMD write and its command, memory stores, reset
(10_state.md R31 to R44, R52; 40_dispatcher.md R150; 20_memory.md R84, R85; 70_reset_and_hazards.md R410, R411). -/

namespace Sys2Proof.Machine

/-! ### The register block -/

/-- The thirteen named registers (10_state.md R31). -/
inductive Reg where
  | cmd
  | status
  | ctrl
  | cap
  | acc
  | lenLo
  | lenHi
  | srcLo
  | srcHi
  | dstLo
  | dstHi
  | faddrLo
  | faddrHi
  deriving DecidableEq, Repr

/-- The byte offset of a register (R31). -/
def regOffset : Reg → Nat
  | .cmd => 0x00
  | .status => 0x04
  | .ctrl => 0x08
  | .cap => 0x0C
  | .acc => 0x10
  | .lenLo => 0x14
  | .lenHi => 0x18
  | .srcLo => 0x1C
  | .srcHi => 0x20
  | .dstLo => 0x24
  | .dstHi => 0x28
  | .faddrLo => 0x2C
  | .faddrHi => 0x30

/-- The register at a byte offset; none at the reserved offsets 0x34, 0x38 and 0x3C (R31, R42). -/
def regAt (off : Nat) : Option Reg :=
  if off = 0x00 then some .cmd
  else if off = 0x04 then some .status
  else if off = 0x08 then some .ctrl
  else if off = 0x0C then some .cap
  else if off = 0x10 then some .acc
  else if off = 0x14 then some .lenLo
  else if off = 0x18 then some .lenHi
  else if off = 0x1C then some .srcLo
  else if off = 0x20 then some .srcHi
  else if off = 0x24 then some .dstLo
  else if off = 0x28 then some .dstHi
  else if off = 0x2C then some .faddrLo
  else if off = 0x30 then some .faddrHi
  else none

/-- `reg[r]` (00_scope.md R27). -/
def readReg (r : Reg) (s : State) : Word :=
  match r with
  | .cmd => s.cmd
  | .status => s.status
  | .ctrl => s.ctrl
  | .cap => capWord s.params
  | .acc => s.acc
  | .lenLo => s.lenLo
  | .lenHi => s.lenHi
  | .srcLo => s.srcLo
  | .srcHi => s.srcHi
  | .dstLo => s.dstLo
  | .dstHi => s.dstHi
  | .faddrLo => s.faddrLo
  | .faddrHi => s.faddrHi

/-- What a host read of an offset yields: a reserved slot reads 0 (R42). -/
def readOffset (off : Nat) (s : State) : Word :=
  match regAt off with
  | some r => readReg r s
  | none => 0

/-- A host write of `v` to a register: the access column of R31. A write to CMD also starts a command, which `startWord`
does; CAP and FADDR ignore writes, STATUS clears ERR only (R34), CTRL is masked by CAP[2:0] (R35). -/
def writeReg (r : Reg) (v : Word) (s : State) : State :=
  match r with
  | .cmd => { s with cmd := v }
  | .status => s.setStatus (statusHostWrite v s.status)
  | .ctrl => { s with ctrl := v &&& capTiers s.params }
  | .cap => s
  | .acc => s.setAcc v
  | .lenLo => { s with lenLo := v }
  | .lenHi => { s with lenHi := v }
  | .srcLo => { s with srcLo := v }
  | .srcHi => { s with srcHi := v }
  | .dstLo => { s with dstLo := v }
  | .dstHi => { s with dstHi := v }
  | .faddrLo => s
  | .faddrHi => s

/-! ### A command -/

/-- `reg[CMD] <- w` and the sequencer goes BUSY (R32, R52); the command has free values of its own. -/
def startWord (w : Word) (s : State) : State :=
  { writeReg .cmd w s with seq := .busy, draws := s.draws + 1 }

/-- A CMD write of `w` and its whole command (40_dispatcher.md R150). An illegal word ends it with E_ILLEGAL
(60_exceptions.md R372). -/
def runWord (w : Word) (s : State) : Host.Outcome State Fault Refusal :=
  match decode w with
  | .ok i => exec i (startWord w s)
  | .error _ => .next (raiseFault .eIllegal none (startWord w s))

/-- A host write of `v` at an offset of the block (R31, R32, R42). -/
def hostWrite (off : Nat) (v : Word) (s : State) : Host.Outcome State Fault Refusal :=
  match regAt off with
  | some .cmd => runWord v s
  | some r => .next (writeReg r v s)
  | none => .next s

/-- A host read at an offset of the block; what it yields is `readData` (30_encoding.md R111). -/
def hostRead (off : Nat) (s : State) : State := { s with readData := some (readOffset off s) }

/-! ### Memory accesses of the host and of other agents -/

/-- Why a memory access of another agent than the engine has no meaning, if it has none: the address does not exist
(00_scope.md R18), or it lies in the register block, where only aligned 32-bit accesses have one (10_state.md R43). -/
def storeStop (s : State) (a : Nat) : Option (Fault ⊕ Refusal) :=
  if 2 ^ 64 ≤ a then some (.inl (.noSuchAddress a))
  else if inRegisterBlock s.params a then some (.inr (.notAligned32 (a - s.params.engineBase.toNat) 1))
  else none

/-- The first of several memory writes that has no meaning. -/
def storesStop (s : State) : List Host.Cell → Option (Fault ⊕ Refusal)
  | [] => none
  | c :: rest =>
    match storeStop s c.1 with
    | some e => some e
    | none => storesStop s rest

/-- A step that stops. -/
def stopWith : Fault ⊕ Refusal → Host.Outcome State Fault Refusal
  | .inl f => .fault f
  | .inr r => .refused r

/-- Whether the engine's command wrote the byte at `a`: its checks passed and a write range holds it (20_memory.md R74). -/
def engineWrote (i : Instr) (s : State) (a : Nat) : Bool :=
  (check i s).isNone &&
    (ranges i s).any fun r => decide (r.kind = .write) && decide (r.base ≤ a) && decide (a < r.base + r.size)

/-- Memory once the other agent's writes have landed too. Where the engine wrote the same byte, which write is last is open
(log entry 10). -/
def settle (lands : Nat → Bool) (m : Memory) : List Host.Cell → Memory
  | [] => m
  | c :: rest => settle lands (if lands c.1 then memWrite m c.1 c.2 else m) rest

/-- Whether the other agent's write of the byte at `a` is the one that stays after the command of word `w`. -/
def otherStays (w : Word) (s : State) (a : Nat) : Bool :=
  match decode w with
  | .ok i => !(engineWrote i s a && Config.engineWritesLast s.draws a)
  | .error _ => true

/-- A CMD write of `w` while another agent writes memory (20_memory.md R85): the command runs with those writes in flight,
then they have all landed. -/
def runRacing (w : Word) (others : List Host.Cell) (s : State) : Host.Outcome State Fault Refusal :=
  match runWord w { s with racing := others } with
  | .next t =>
    .next { t with mem := settle (otherStays w (startWord w s)) t.mem others, racing := [] }
  | .fault f => .fault f
  | .refused r => .refused r

/-! ### Reset during a command -/

/-- The command of a CMD write of `w` that a reset abandons: no completion, the bytes it was to write unspecified, then the
values of reset (70_reset_and_hazards.md R411). The command has not ended, so it has not faulted either: its write range is
unspecified whatever its checks would have answered. An illegal word has no write range. Log entry 14. -/
def abandonWord (w : Word) (s : State) : State :=
  match decode w with
  | .ok i => applyReset (s.setMem (scrambleWrites (s.draws + 1) s.mem (ranges i s)))
  | .error _ => applyReset s

/-! ### Serving an event -/

/-- Why a register access has no meaning, if it has none: it is not an aligned 32-bit access (10_state.md R43), or it lies
beyond the sixteen slots (R31). -/
def accessStop (off width : Nat) : Option Refusal :=
  if width ≠ 4 ∨ off % 4 ≠ 0 then some (.notAligned32 off width)
  else if 0x40 ≤ off then some (.outsideRegisterBlock off)
  else none

/-- Whether an event is a host access to the register block, which waits while the sequencer is BUSY (10_state.md R52). -/
def isRegisterAccess : HostEvent → Bool
  | .write _ _ _ => true
  | .read _ _ => true
  | .store _ _ => false
  | .load _ => false
  | .commandRacing _ _ => true
  | .reset => false
  | .commandReset _ => true

/-- One event, taken from the queue. -/
def handle (e : HostEvent) (s : State) : Host.Outcome State Fault Refusal :=
  match e with
  | .write off width v =>
    match accessStop off width with
    | some r => .refused r
    | none => hostWrite off v s
  | .read off width =>
    match accessStop off width with
    | some r => .refused r
    | none => .next (hostRead off s)
  | .store a b =>
    match storeStop s a with
    | some e => stopWith e
    | none => .next (s.setMem (memWrite s.mem a b))
  | .load a =>
    match storeStop s a with
    | some e => stopWith e
    | none => .next { s with readData := some ((memRead s.mem a).setWidth 32) }
  | .commandRacing w others =>
    if s.params.hostConcurrent then
      match storesStop s others with
      | some e => stopWith e
      | none => runRacing w others s
    else .refused .concurrentWriteExcluded
  | .reset => .next (applyReset s)
  | .commandReset w => .next (abandonWord w s)

/-- The width in bytes of the host write that delivers a value of `nbits` bits whole; 0, the width of no write, where the
value does not fit them or they are no whole number of bytes. It is 4 for the 32-bit words alone (30_encoding.md
R100). -/
def deliveryWidth (nbits w : Nat) : Nat := if nbits % 8 = 0 ∧ w < 2 ^ nbits then nbits / 8 else 0

/-- The oldest pending event, if it need not wait: with none the core stays IDLE, and a register access waits while the
sequencer is BUSY (10_state.md R52, 70_reset_and_hazards.md R412, R416). -/
def serve (s : State) : Host.Outcome State Fault Refusal :=
  match s.pending with
  | [] => .next s
  | e :: rest =>
    if s.seq = .busy ∧ isRegisterAccess e then .next s
    else handle e { s with pending := rest }

end Sys2Proof.Machine
end

