-- ==== Sys2Proof/Machine/Step.lean ====
section
/-! DEFINITION. One step of the machine, and how a command word is placed for it.

The core fetches nothing (10_state.md R53): a step serves the oldest pending event of the host, and a CMD write among them
runs one whole command (40_dispatcher.md R150). -/

namespace Sys2Proof.Machine

/-- One step: the oldest pending event. -/
def step (s : State) : Host.Outcome State Fault Refusal := serve s

/-- `s` with a host write of the word to CMD as its next event, as wide as the word is long, and the sequencer IDLE to take
it. A command word has exactly 32 bits, delivered whole (30_encoding.md R100): bits of any other length start no command,
since their write has another width and is refused (10_state.md R43). -/
def State.withFetchWord (s : State) (nbits w : Nat) : State :=
  { s with pending := .write 0x00 (deliveryWidth nbits w) (BitVec.ofNat 32 w) :: s.pending, seq := .idle }

end Sys2Proof.Machine
end

