-- ==== Sys2Proof/Machine/HostProgram.lean ====
section
/-! DEFINITION. The host's programs: register accesses and the pseudo-instructions over them (30_encoding.md R111 to R113). A
program is placed in `State.pending`. -/

namespace Sys2Proof.Machine

/-- `wr REG, imm` (R111). -/
def wr (r : Reg) (v : Word) : HostEvent := .write (regOffset r) 4 v

/-- `rd REG` (R111). -/
def rd (r : Reg) : HostEvent := .read (regOffset r) 4

/-- A mnemonic alone on a line: `wr CMD, <its command word>` (R112). -/
def issue (i : Instr) : HostEvent := wr .cmd (encode i)

/-- `setsrc a` (R113). -/
def setsrc (a : DWord) : List HostEvent := [wr .srcLo (a.extractLsb' 0 32), wr .srcHi (a.extractLsb' 32 32)]

/-- `setdst a` (R113). -/
def setdst (a : DWord) : List HostEvent := [wr .dstLo (a.extractLsb' 0 32), wr .dstHi (a.extractLsb' 32 32)]

/-- `setlen n` (R113). -/
def setlen (n : DWord) : List HostEvent := [wr .lenLo (n.extractLsb' 0 32), wr .lenHi (n.extractLsb' 32 32)]

/-- `clrerr` (R113). -/
def clrerr : HostEvent := wr .status 0x00000100

/-- `crc32 seed, a, n` (R113). -/
def crc32Program (seed : Word) (a n : DWord) : List HostEvent :=
  [wr .acc seed] ++ setsrc a ++ setlen n ++ [issue .crc32Auto, rd .acc]

/-- The state with a program placed after what is pending. -/
def load (program : List HostEvent) (s : State) : State := { s with pending := s.pending ++ program }

end Sys2Proof.Machine
end

