-- ==== Sys2Proof/WellFormed.lean ====
section
/-! DEFINITION. Which commands and which instance parameters are well formed. -/

namespace Sys2Proof

/-- Every term of `Instr` is a legal command: the only operand of a command word is the INJ flag of FOLD_UPDATE, and both
of its values are legal (30_encoding.md R104, R106). Words with a nonzero reserved field, an unused TIER or an INJ that
the OP does not take have no term at all. -/
def Instr.wellFormed : Instr → Bool
  | .nop => true
  | .crc32Auto => true
  | .crc32Scalar => true
  | .crc32Braid => true
  | .crc32ChorbaS => true
  | .crc32ChorbaL => true
  | .crc32Simd => true
  | .foldInit => true
  | .foldUpdate _ => true
  | .foldCopy => true
  | .foldFinal => true
  | .foldSave => true
  | .foldLoad => true

/-- A refused region is a run of existing addresses (00_scope.md R18: 2^64 of them). -/
def Region.wellFormed (r : Region) : Bool := decide (r.lo ≤ r.hi) && decide (r.hi ≤ 2 ^ 64)

/-- The sixteen slots of the register block fit in the address space (10_state.md R31). -/
def Params.blockFits (p : Params) : Bool := decide (p.engineBase.toNat + 0x40 ≤ 2 ^ 64)

/-- The parameters of an instance that can exist. `BRAID_W`, `BRAID_N` and the CAP flags are legal by their types
(00_scope.md R6, R7, R17). -/
def Params.wellFormed (p : Params) : Bool := p.blockFits && p.refused.all Region.wellFormed

end Sys2Proof
end

