-- ==== Sys2Proof/Safety.lean ====
section
/-! DEFINITION. What counts as a safe state and a safe run of the core, in the terms claims use. -/

namespace Sys2Proof

open Machine

/-- STATUS is a word the spec lets it be: its reserved bits are 0, CODE is 0 to 6, TIER is 0 to 5 (10_state.md R33), TIER is
0 after a fault, and before the first command nothing is set (40_dispatcher.md R151). -/
def statusLegal (v : Word) : Prop :=
  v &&& statusReserved = 0 ∧ statusCode v ≤ 6 ∧ statusTier v ≤ 5 ∧ (statusCode v ≠ 0 → statusTier v = 0) ∧
    (statusDone v = false → v = 0)

/-- The invariant of the machine between two steps: memory in canonical form, STATUS a legal word, no tier enabled that is not
built in (10_state.md R35), the sequencer idle (R52), no write of another agent in flight. -/
structure Inv (s : State) : Prop where
  memory : Memory.wf s.mem
  status : statusLegal s.status
  ctrl : s.ctrl &&& ~~~ capTiers s.params = 0
  idle : s.seq = .idle
  quiet : s.racing = []

/-! ### The end of a command, in the spec's terms -/

/-- STATUS went from `old` to `new` by the end of a command with result code `code` and tier code `tier`: DONE set, CODE and
TIER written, ERR set by a fault and left by a success, the reserved bits left (40_dispatcher.md R151). -/
def Finished (code : BitVec 4) (tier : BitVec 3) (old new : Word) : Prop :=
  statusDone new = true ∧ statusCode new = code ∧ statusErr new = (statusErr old || code != 0) ∧
    statusTier new = tier ∧ new &&& statusReserved = old &&& statusReserved

/-- `t` is `u` but for STATUS, which reports result code `code` and tier code `tier`, and the sequencer, which is IDLE. -/
def EndsWith (code : BitVec 4) (tier : BitVec 3) (u t : State) : Prop :=
  t = { u with status := t.status, seq := .idle } ∧ Finished code tier u.status t.status

/-- The command completed with its effect: `t` is `u`, ended with OK and tier code `tier`. -/
abbrev EndsOk (tier : BitVec 3) (u t : State) : Prop := EndsWith 0 tier u t

/-- The command ended with a fault code: `t` is `u`, ended with that code and tier code 0 (60_exceptions.md R379). -/
abbrev EndsFault (code : BitVec 4) (u t : State) : Prop := EndsWith code 0 u t

/-- The `n` bytes from `a` on exist and are all admitted to accesses of kind `k` (20_memory.md R72, R81). -/
abbrev Accessible (p : Params) (a n : Nat) (k : AccessKind) : Prop :=
  a + n ≤ 2 ^ 64 ∧ ∀ d < n, admitted p (a + d) k = true

/-- `x` is a byte of a range of the command that the platform refuses or that lies in the register block
(60_exceptions.md R377). -/
def Refuses (i : Instr) (s : State) (x : Nat) : Prop :=
  ∃ r ∈ ranges i s, r.base ≤ x ∧ x < r.base + r.size ∧
    (admits s.params x r.kind = false ∨ (s.params.engineBase.toNat ≤ x ∧ x < s.params.engineBase.toNat + 0x40))

/-- The bytes a CRC32, FOLD_UPDATE or FOLD_COPY command reads: [SRC, SRC + LEN) (20_memory.md R73). -/
abbrev sourceBytes (s : State) : List Byte := engineRead s 0 (srcOp s) (lenOp s)

/-- The CRC32 commands (40_dispatcher.md R153). -/
abbrev crc32Commands : List Instr := [.crc32Auto, .crc32Scalar, .crc32Braid, .crc32ChorbaS, .crc32ChorbaL, .crc32Simd]

/-- `t` holds the values of reset in every register, FOLD and the sequencer of an instance with parameters `p`
(70_reset_and_hazards.md R410). -/
def HasResetValues (p : Params) (t : State) : Prop :=
  (∀ r : Reg, r ≠ .ctrl → r ≠ .cap → readReg r t = 0) ∧ readReg .ctrl t = capWord p &&& 7#32 ∧
    readReg .cap t = capWord p ∧ (∀ off ∈ [0x34, 0x38, 0x3C], readOffset off t = 0) ∧
    t.fold = ⟨0, 0, 0, 0⟩ ∧ reduceFold t.fold = 0 ∧ t.seq = .idle

/-- A command ended without a fault: STATUS.CODE is OK (60_exceptions.md R371). -/
def endedOk (s : State) : Prop := statusCode s.status = 0

/-- No command has faulted since ERR was last cleared: the premise a claim about a whole program takes
(92_eei_decisions.md D4: "ERR = 0 at the end"). -/
def noError (s : State) : Prop := statusErr s.status = false

end Sys2Proof
end

