-- ==== Sys2Proof/Certificates/Slice0/Obligations.lean ====
section
/-! DEFINITION. The statements about the core, from the spec's numbered rules. A statement about a command that reads memory
speaks of `sourceBytes`, the bytes the command reads; `EngineReadsYieldMemoryOrARacingWrite` says what those are. -/

open Sys2Proof Sys2Proof.Machine

/-! ### Encoding (30_encoding.md) -/

/-- R106: the words of the opcode map, written out, decode to their commands. -/
def Obligations.CommandWordsDecodeAsTabled : Prop :=
  decode 0x00000000#32 = .ok .nop ∧ decode 0x00000001#32 = .ok .crc32Auto ∧
  decode 0x00000101#32 = .ok .crc32Scalar ∧ decode 0x00000201#32 = .ok .crc32Braid ∧
  decode 0x00000301#32 = .ok .crc32ChorbaS ∧ decode 0x00000401#32 = .ok .crc32ChorbaL ∧
  decode 0x00000501#32 = .ok .crc32Simd ∧ decode 0x00000010#32 = .ok .foldInit ∧
  decode 0x00000011#32 = .ok (.foldUpdate false) ∧ decode 0x00000811#32 = .ok (.foldUpdate true) ∧
  decode 0x00000012#32 = .ok .foldCopy ∧ decode 0x00000013#32 = .ok .foldFinal ∧
  decode 0x00000014#32 = .ok .foldSave ∧ decode 0x00000015#32 = .ok .foldLoad

/-- The decoder accepts exactly the encoder's words, and reads each as the command it encodes. -/
def Obligations.DecodeInvertsEncode : Prop :=
  ∀ (w : Word) (i : Instr), decode w = .ok i ↔ encode i = w

/-- R108: a word decodes to a command exactly when `legal(w)` holds of its fields. -/
def Obligations.DecodesExactlyTheLegalWords : Prop :=
  ∀ w : Word, (∃ i, decode w = .ok i) ↔
    (w.extractLsb' 12 20 = 0#20 ∧
      w.extractLsb' 0 8 ∈ [0x00#8, 0x01#8, 0x10#8, 0x11#8, 0x12#8, 0x13#8, 0x14#8, 0x15#8] ∧
      (if w.extractLsb' 0 8 = 0x01#8 then (w.extractLsb' 8 3).toNat ≤ 5 else w.extractLsb' 8 3 = 0#3) ∧
      (w.getLsbD 11 = false ∨ w.extractLsb' 0 8 = 0x11#8))

/-- R100: a command word has exactly 32 bits. Bits of any other length, shorter or longer, a whole number of bytes or not,
decode to no command and start none when placed as the next CMD write, and neither does a value that 32 bits do not hold; 32 bits decode as their word does, and placed as the next CMD write they run the command, on the
state with the CMD write and free values of its own (log entries 1 and 7). -/
def Obligations.CommandWordHasExactly32Bits : Prop :=
  (∀ (nbits w : Nat) (i : Instr), decodeTableWord nbits w = some i ↔
    nbits = 32 ∧ w < 2 ^ 32 ∧ encode i = BitVec.ofNat 32 w) ∧
  (∀ (s : State) (nbits w : Nat), (nbits ≠ 32 ∨ 2 ^ 32 ≤ w) →
    ∃ width, width ≠ 4 ∧ step (s.withFetchWord nbits w) = .refused (.notAligned32 0 width)) ∧
  (∀ (s : State) (w : Nat) (i : Instr), decodeTableWord 32 w = some i →
    step (s.withFetchWord 32 w) =
      exec i { s with cmd := BitVec.ofNat 32 w, seq := .busy, draws := s.draws + 1 })

/-- R372: which words are illegal (R107), and that a CMD write of one ends with E_ILLEGAL whatever the operand registers
hold; CMD holds the word and nothing else of the core or of memory changes. The event is taken (log entry 1); of the
counter of free values nothing is said (log entry 7). -/
def Obligations.IllegalWordEndsWithEIllegal : Prop :=
  (∀ w : Word, legal w = false ↔
    (rsvField w ≠ 0 ∨ opField w ∉ [0x00#8, 0x01#8, 0x10#8, 0x11#8, 0x12#8, 0x13#8, 0x14#8, 0x15#8] ∨
      (opField w = 0x01#8 ∧ (tierField w = 6 ∨ tierField w = 7)) ∨ (opField w ≠ 0x01#8 ∧ tierField w ≠ 0) ∨
      (opField w ≠ 0x11#8 ∧ injField w = true))) ∧
  (∀ (s : State) (w : Word) (rest : List HostEvent),
    s.pending = .write 0x00 4 w :: rest → s.seq = .idle → legal w = false →
    ∃ t, step s = .next t ∧ EndsFault 1 { s with pending := rest, cmd := w, draws := t.draws } t)

/-! ### Reset, the step and the invariant -/

/-- R410: the values of the state right after reset. The ring's contents are unspecified and not spoken of. -/
def Obligations.ResetStateHoldsTheSpecsValues : Prop :=
  State.reset.cmd = 0 ∧ State.reset.status = 0 ∧ State.reset.ctrl = 7#32 ∧
  capWord State.reset.params = 0x0000050F#32 ∧ State.reset.acc = 0 ∧
  State.reset.lenLo = 0 ∧ State.reset.lenHi = 0 ∧ State.reset.srcLo = 0 ∧ State.reset.srcHi = 0 ∧
  State.reset.dstLo = 0 ∧ State.reset.dstHi = 0 ∧ State.reset.faddrLo = 0 ∧ State.reset.faddrHi = 0 ∧
  State.reset.fold = ⟨0, 0, 0, 0⟩ ∧ State.reset.seq = .idle ∧
  (∀ off ∈ [0x34, 0x38, 0x3C], readOffset off State.reset = 0)

/-- R410: a reset the platform asserts gives every instance its reset values, from every state; the values CAP and CTRL have
with the default parameters. The ring's contents are unspecified and not spoken of. -/
def Obligations.ResetEventGivesEveryInstanceItsValues : Prop :=
  ∀ (s : State) (rest : List HostEvent), s.pending = .reset :: rest →
    ∃ t, step s = .next t ∧ HasResetValues s.params t ∧
      (s.params = {} → readReg .cap t = 0x0000050F#32 ∧ readReg .ctrl t = 7#32)

/-- The state after reset meets the invariant. -/
def Obligations.ResetMeetsTheInvariant : Prop := Inv State.reset

/-- Every step keeps the invariant, from every state that meets it: memory canonical, STATUS a legal word, no tier enabled
that is not built in, the sequencer idle, no racing write left over. -/
def Obligations.StepKeepsTheInvariant : Prop :=
  ∀ s t : State, Inv s → step s = .next t → Inv t

/-- R150: a step whose oldest event is a CMD write of a word that decodes to a command runs that command, on the state with
CMD written, the sequencer BUSY, the event taken, and free values of its own (the counter of free values and the queue of events are the model's: log entries 7 and 1). -/
def Obligations.StepRunsTheDecodedCommand : Prop :=
  ∀ (s : State) (w : Word) (i : Instr) (rest : List HostEvent),
    s.pending = .write 0x00 4 w :: rest → s.seq = .idle → decode w = .ok i →
    step s = exec i { s with pending := rest, cmd := w, seq := .busy, draws := s.draws + 1 }

/-- R411: a reset during a command, whatever its word, gives every register its reset value and leaves every byte outside
the command's write range alone. A byte of the write range holds an unspecified value, so nothing is said of it. -/
def Obligations.ResetDuringACommandLeavesOtherBytes : Prop :=
  ∀ (s : State) (w : Word) (rest : List HostEvent), s.pending = .commandReset w :: rest → s.seq = .idle →
    ∃ t, step s = .next t ∧ HasResetValues s.params t ∧
      ∀ x, (∀ i, decode w = .ok i → ∀ r ∈ ranges i s, r.kind = .write → x < r.base ∨ r.base + r.size ≤ x) →
        memRead t.mem x = memRead s.mem x

/-- R411: after a reset during a command, whatever its checks would have answered, each existing byte of its write range holds
a free value: that of `Config.resetByte`, which nothing constrains (log entry 14), and not its old value or the command's. -/
def Obligations.AbandonedWriteRangeIsUnspecified : Prop :=
  ∀ (s : State) (w : Word) (i : Instr) (rest : List HostEvent), s.pending = .commandReset w :: rest → s.seq = .idle →
    decode w = .ok i → Memory.wf s.mem →
    ∃ t, step s = .next t ∧ Memory.wf t.mem ∧
      ∀ r ∈ ranges i s, r.kind = .write → ∀ x, r.base ≤ x → x < r.base + r.size → x < 2 ^ 64 →
        memRead t.mem x = Config.resetByte (s.draws + 1) x

/-! ### The register block (10_state.md) -/

/-- R31: a host write to a register other than CMD. The RW registers take the value; STATUS loses ERR at most; CTRL takes the
enables that are built in; CAP and FADDR ignore it. No other register, FOLD or memory changes. -/
def Obligations.HostWriteOfARegister : Prop :=
  ∀ (s : State) (r : Reg) (v : Word) (rest : List HostEvent),
    s.pending = wr r v :: rest → s.seq = .idle → r ≠ .cmd →
    ∃ t, step s = .next t ∧
      readReg r t =
        (match r with
         | .cmd => s.cmd
         | .status => if v.getLsbD 8 then s.status &&& 0xFFFFFEFF#32 else s.status
         | .ctrl => v &&& capWord s.params &&& 7#32
         | .cap => capWord s.params
         | .faddrLo => s.faddrLo
         | .faddrHi => s.faddrHi
         | .acc | .lenLo | .lenHi | .srcLo | .srcHi | .dstLo | .dstHi => v) ∧
      (∀ q : Reg, q ≠ r → readReg q t = readReg q s) ∧
      t.fold = s.fold ∧ t.mem = s.mem ∧ t.seq = .idle ∧ t.pending = rest

/-- R34: a host write to STATUS clears ERR where its bit 8 is 1, and changes nothing else. -/
def Obligations.StatusWriteClearsOnlyErr : Prop :=
  ∀ (s : State) (v : Word) (rest : List HostEvent),
    s.pending = .write 0x04 4 v :: rest → s.seq = .idle →
    ∃ t, step s = .next t ∧ t = { s with pending := rest, status := t.status } ∧
      ∀ k < 32, t.status.getLsbD k = if k = 8 ∧ v.getLsbD 8 = true then false else s.status.getLsbD k

/-- R36: the fields of CAP, that no step changes it, and its value with the default parameters. -/
def Obligations.CapReportsTheInstance : Prop :=
  (∀ s : State,
    (readReg .cap s).getLsbD 0 = s.params.capBraid ∧ (readReg .cap s).getLsbD 1 = s.params.capChorba ∧
    (readReg .cap s).getLsbD 2 = s.params.capClmul ∧
    ((readReg .cap s).getLsbD 3 = true ↔ s.params.braidW = .w8) ∧
    (readReg .cap s).extractLsb' 4 4 = 0#4 ∧
    ((readReg .cap s).extractLsb' 8 4).toNat = s.params.braidNPred.val + 1 ∧
    (readReg .cap s).extractLsb' 12 20 = 0#20) ∧
  (∀ s t : State, step s = .next t → readReg .cap t = readReg .cap s) ∧
  readReg .cap State.reset = 0x0000050F#32

/-- R42: the reserved offsets read 0 and ignore writes. -/
def Obligations.ReservedSlotsReadZeroAndIgnoreWrites : Prop :=
  ∀ (s : State) (off : Nat) (v : Word) (rest : List HostEvent), off ∈ [0x34, 0x38, 0x3C] → s.seq = .idle →
    (s.pending = .write off 4 v :: rest → step s = .next { s with pending := rest }) ∧
    (s.pending = .read off 4 :: rest → step s = .next { s with pending := rest, readData := some 0 })

/-- A host read of a register yields its value and changes nothing else. -/
def Obligations.HostReadYieldsTheRegister : Prop :=
  ∀ (s : State) (r : Reg) (rest : List HostEvent), s.pending = rd r :: rest → s.seq = .idle →
    step s = .next { s with pending := rest, readData := some (readReg r s) }

/-- R43: a register access that is not an aligned 32-bit access is refused. -/
def Obligations.AccessNotAligned32IsRefused : Prop :=
  ∀ (s : State) (off width : Nat) (v : Word) (rest : List HostEvent), s.seq = .idle → (width ≠ 4 ∨ off % 4 ≠ 0) →
    (s.pending = .write off width v :: rest → step s = .refused (.notAligned32 off width)) ∧
    (s.pending = .read off width :: rest → step s = .refused (.notAligned32 off width))

/-! ### The end of a command and its faults (40_dispatcher.md, 60_exceptions.md) -/

/-- R151: STATUS after `finish(code, t)`, and that every command ends so: with the code it reports, tier code 0 after a fault,
and after a success 0 for a command that runs no tier, 5 for FOLD_UPDATE and FOLD_COPY, a tier's code for CRC32. -/
def Obligations.EveryCommandEndsWithFinish : Prop :=
  (∀ (code : ResultCode) (t : Tier) (s : State),
    EndsWith (codeBits code) (if code = .ok then tierBits t else 0) s (finish code t s)) ∧
  (∀ (i : Instr) (s t : State), exec i s = .next t →
    Finished (statusCode t.status) (statusTier t.status) s.status t.status ∧ t.seq = .idle ∧
    (statusCode t.status ≠ 0 → statusTier t.status = 0) ∧
    (statusCode t.status = 0 →
      statusTier t.status ∈
        (match i with
         | .nop | .foldInit | .foldFinal | .foldSave | .foldLoad => [0#3]
         | .foldUpdate _ | .foldCopy => [5#3]
         | .crc32Simd => [1#3, 5#3]
         | .crc32Auto => [1#3, 2#3, 3#3, 4#3, 5#3]
         | .crc32Scalar => [1#3]
         | .crc32Braid => [1#3, 2#3]
         | .crc32ChorbaS => [1#3, 3#3]
         | .crc32ChorbaL => [1#3, 3#3, 4#3])))

/-- R379: a command whose checks raise a fault ends with its code, records the address with E_BUS only, and changes nothing
else; so does a word that is not legal, which leaves CMD holding it. -/
def Obligations.FaultChangesNothingElse : Prop :=
  (∀ (i : Instr) (s : State) (f : Raised), check i s = some f →
    ∃ t, exec i s = .next t ∧
      (f.code ≠ .eBus → EndsFault (codeBits f.code) s t) ∧
      (f.code = .eBus → EndsFault 6 { s with faddrLo := t.faddrLo, faddrHi := t.faddrHi } t ∧
        f.info = some (t.faddrHi ++ t.faddrLo).toNat)) ∧
  (∀ (s : State) (w : Word), legal w = false →
    ∃ t, runWord w s = .next t ∧ EndsFault 1 { s with cmd := w, draws := t.draws } t)

/-- R373: a forced tier whose enable is 0, and every FOLD command with SIMD_EN = 0, ends with E_UNAVAIL; NOP, CRC32.AUTO and
CRC32.SCALAR never do; a tier that is not built in always does, CTRL being within CAP. -/
def Obligations.DisabledTierEndsWithEUnavail : Prop :=
  (∀ s : State, s.ctrl.getLsbD 0 = false → ∃ t, exec .crc32Braid s = .next t ∧ EndsFault 2 s t) ∧
  (∀ (i : Instr) (s : State), i ∈ [.crc32ChorbaS, .crc32ChorbaL] → s.ctrl.getLsbD 1 = false →
    ∃ t, exec i s = .next t ∧ EndsFault 2 s t) ∧
  (∀ (i : Instr) (s : State),
    i ∈ [.crc32Simd, .foldInit, .foldUpdate false, .foldUpdate true, .foldCopy, .foldFinal, .foldSave, .foldLoad] →
    s.ctrl.getLsbD 2 = false → ∃ t, exec i s = .next t ∧ EndsFault 2 s t) ∧
  (∀ (i : Instr) (s t : State), i ∈ [.nop, .crc32Auto, .crc32Scalar] → exec i s = .next t →
    statusCode t.status ≠ 2) ∧
  (∀ s : State, s.ctrl &&& ~~~ capTiers s.params = 0 →
    (s.params.capBraid = false → s.ctrl.getLsbD 0 = false) ∧
    (s.params.capChorba = false → s.ctrl.getLsbD 1 = false) ∧
    (s.params.capClmul = false → s.ctrl.getLsbD 2 = false))

/-- R374: an available command with a range that is not empty and passes 2^64 ends with E_RANGE; the ranges of each command. -/
def Obligations.RangeBeyondTheTopEndsWithERange : Prop :=
  (∀ (i : Instr) (s : State), i ∈ .foldUpdate false :: .foldUpdate true :: crc32Commands → unavail i s = false →
    2 ^ 64 < srcOp s + lenOp s → ∃ t, exec i s = .next t ∧ EndsFault 3 s t) ∧
  (∀ s : State, s.ctrl.getLsbD 2 = true → (2 ^ 64 < srcOp s + lenOp s ∨ 2 ^ 64 < dstOp s + lenOp s) →
    ∃ t, exec .foldCopy s = .next t ∧ EndsFault 3 s t) ∧
  (∀ s : State, s.ctrl.getLsbD 2 = true → 2 ^ 64 < dstOp s + 64 →
    ∃ t, exec .foldSave s = .next t ∧ EndsFault 3 s t) ∧
  (∀ s : State, s.ctrl.getLsbD 2 = true → 2 ^ 64 < srcOp s + 64 →
    ∃ t, exec .foldLoad s = .next t ∧ EndsFault 3 s t) ∧
  (∀ (i : Instr) (s t : State), exec i s = .next t → (∀ r ∈ ranges i s, r.size = 0 ∨ r.base + r.size ≤ 2 ^ 64) →
    statusCode t.status ≠ 3)

/-- R375: injecting a nonzero seed into fewer than 16 bytes ends with E_SEED, and nothing else does. -/
def Obligations.ShortSeededUpdateEndsWithESeed : Prop :=
  (∀ s : State, s.ctrl.getLsbD 2 = true → srcOp s + lenOp s ≤ 2 ^ 64 → s.acc ^^^ M32 ≠ 0 → lenOp s < 16 →
    ∃ t, exec (.foldUpdate true) s = .next t ∧ EndsFault 4 s t) ∧
  (∀ (i : Instr) (s t : State), exec i s = .next t → statusCode t.status = 4 →
    i = .foldUpdate true ∧ s.acc ^^^ M32 ≠ 0 ∧ lenOp s < 16)

/-- R376: a copy whose ranges share a byte ends with E_OVERLAP, and nothing else does. -/
def Obligations.OverlappingCopyEndsWithEOverlap : Prop :=
  (∀ s : State, s.ctrl.getLsbD 2 = true → srcOp s + lenOp s ≤ 2 ^ 64 → dstOp s + lenOp s ≤ 2 ^ 64 → 0 < lenOp s →
    srcOp s < dstOp s + lenOp s → dstOp s < srcOp s + lenOp s →
    ∃ t, exec .foldCopy s = .next t ∧ EndsFault 5 s t) ∧
  (∀ (i : Instr) (s t : State), exec i s = .next t → statusCode t.status = 5 →
    i = .foldCopy ∧ 0 < lenOp s ∧ srcOp s < dstOp s + lenOp s ∧ dstOp s < srcOp s + lenOp s)

/-- R377: when no earlier check fails and some byte of a range is refused, the command ends with E_BUS and FADDR is the
lowest refused address. -/
def Obligations.RefusedByteEndsWithEBus : Prop :=
  ∀ (i : Instr) (s : State) (x : Nat),
    unavail i s = false → outOfRange i s = false → seedTooShort i s = false → copyOverlaps i s = false →
    Refuses i s x → (∀ y < x, ¬ Refuses i s y) →
    ∃ t, exec i s = .next t ∧ (t.faddrHi ++ t.faddrLo).toNat = x ∧
      EndsFault 6 { s with faddrLo := t.faddrLo, faddrHi := t.faddrHi } t

/-- R378: the code a command reports is that of the first condition that holds, in the order E_UNAVAIL, E_RANGE, E_SEED,
E_OVERLAP, E_BUS; an illegal word reports E_ILLEGAL before all of them. -/
def Obligations.ReportedCodeFollowsThePriority : Prop :=
  (∀ (i : Instr) (s t : State), exec i s = .next t →
    (unavail i s = true → statusCode t.status = 2) ∧
    (unavail i s = false → outOfRange i s = true → statusCode t.status = 3) ∧
    (unavail i s = false → outOfRange i s = false → seedTooShort i s = true → statusCode t.status = 4) ∧
    (unavail i s = false → outOfRange i s = false → seedTooShort i s = false → copyOverlaps i s = true →
      statusCode t.status = 5) ∧
    (unavail i s = false → outOfRange i s = false → seedTooShort i s = false → copyOverlaps i s = false →
      (∃ x, Refuses i s x) → statusCode t.status = 6) ∧
    (unavail i s = false → outOfRange i s = false → seedTooShort i s = false → copyOverlaps i s = false →
      (∀ x, ¬ Refuses i s x) → statusCode t.status = 0)) ∧
  (∀ (s t : State) (w : Word) (rest : List HostEvent), s.pending = .write 0x00 4 w :: rest → s.seq = .idle →
    legal w = false → step s = .next t → statusCode t.status = 1)

/-- R371: the codes each command can report. -/
def Obligations.CodesEachCommandCanReport : Prop :=
  ∀ (i : Instr) (s t : State), exec i s = .next t →
    statusCode t.status ∈
      (match i with
       | .nop => [0#4]
       | .crc32Auto | .crc32Scalar => [0#4, 3#4, 6#4]
       | .crc32Braid | .crc32ChorbaS | .crc32ChorbaL | .crc32Simd => [0#4, 2#4, 3#4, 6#4]
       | .foldInit | .foldFinal => [0#4, 2#4]
       | .foldUpdate inj => if inj then [0#4, 2#4, 3#4, 4#4, 6#4] else [0#4, 2#4, 3#4, 6#4]
       | .foldCopy => [0#4, 2#4, 3#4, 5#4, 6#4]
       | .foldSave | .foldLoad => [0#4, 2#4, 3#4, 6#4])

/-- R380: ERR, once set, stays set through every step but a host write of STATUS with bit 8 = 1 and a reset. -/
def Obligations.ErrStaysUntilClearedOrReset : Prop :=
  ∀ s t : State, step s = .next t → statusErr s.status = true →
    statusErr t.status = true ∨
    (∃ v rest, s.pending = .write 0x04 4 v :: rest ∧ v.getLsbD 8 = true) ∨
    (∃ rest, s.pending = .reset :: rest) ∨ (∃ w rest, s.pending = .commandReset w :: rest)

/-! ### Engine reads and writes of memory (20_memory.md) -/

/-- R85: with no other agent writing, every byte the engine reads is what memory holds; else it is that or a value one of the
writes in flight to that byte gives it. -/
def Obligations.EngineReadsYieldMemoryOrARacingWrite : Prop :=
  (∀ (s : State) (j a n : Nat), s.racing = [] → engineRead s j a n = readBytes s.mem a n) ∧
  (∀ (s : State) (j a n k : Nat) (b : Byte), (engineRead s j a n)[k]? = some b →
    b = memRead s.mem (a + k) ∨ (a + k, b) ∈ s.racing)

/-- R84: a host store between commands writes its byte and nothing else, and a host load yields the byte memory holds. An
address that does not exist faults, and a byte access to the register block is refused (the model's stops, log
entry 13). -/
def Obligations.HostMemoryAccesses : Prop :=
  ∀ (s : State) (a : Nat) (b : Byte) (rest : List HostEvent),
    (a < 2 ^ 64 → inRegisterBlock s.params a = false → Memory.wf s.mem → s.pending = .store a b :: rest →
      ∃ t, step s = .next t ∧ t = { s with pending := rest, mem := t.mem } ∧ memRead t.mem a = b ∧
        ∀ x, x ≠ a → memRead t.mem x = memRead s.mem x) ∧
    (a < 2 ^ 64 → inRegisterBlock s.params a = false → s.pending = .load a :: rest →
      step s = .next { s with pending := rest, readData := some ((memRead s.mem a).setWidth 32) }) ∧
    (2 ^ 64 ≤ a → (s.pending = .store a b :: rest ∨ s.pending = .load a :: rest) → step s = .fault (.noSuchAddress a)) ∧
    (a < 2 ^ 64 → inRegisterBlock s.params a = true → (s.pending = .store a b :: rest ∨ s.pending = .load a :: rest) →
      step s = .refused (.notAligned32 (a - s.params.engineBase.toNat) 1))

/-- R85: with HOST_CONCURRENT = true, a CMD write during which another agent writes memory goes on, and afterwards every byte
outside the command's write range holds the last value the agent gave it, or its old value where it gave none. With
HOST_CONCURRENT = false the event is refused. That the writes have landed by then is the model's (log entry 10). -/
def Obligations.RacingWritesLandOutsideTheWriteRange : Prop :=
  ∀ (s : State) (w : Word) (others : List Host.Cell) (rest : List HostEvent),
    s.pending = .commandRacing w others :: rest → s.seq = .idle →
    (s.params.hostConcurrent = false → step s = .refused .concurrentWriteExcluded) ∧
    (s.params.hostConcurrent = true → Memory.wf s.mem →
      (∀ c ∈ others, c.1 < 2 ^ 64 ∧ inRegisterBlock s.params c.1 = false) →
      ∃ t, step s = .next t ∧ t.racing = [] ∧ t.seq = .idle ∧ t.cmd = w ∧
        ∀ x, (∀ i, decode w = .ok i → ∀ r ∈ ranges i s, r.kind = .write → x < r.base ∨ r.base + r.size ≤ x) →
          memRead t.mem x = (racingValues others x).getLastD (memRead s.mem x))

/-- R73: what a command does depends on memory only through the bytes of its read range. -/
def Obligations.OnlyTheReadRangeMatters : Prop :=
  ∀ (i : Instr) (s t : State) (m : Memory), exec i s = .next t →
    (∀ r ∈ ranges i s, r.kind = .read → ∀ x, r.base ≤ x → x < r.base + r.size → memRead m x = memRead s.mem x) →
    ∃ u, exec i { s with mem := m } = .next u ∧ u = { t with mem := u.mem }

/-- R74: no command changes a byte of memory outside its write range. -/
def Obligations.OnlyTheWriteRangeChanges : Prop :=
  ∀ (i : Instr) (s t : State), exec i s = .next t →
    ∀ x, (∀ r ∈ ranges i s, r.kind = .write → x < r.base ∨ r.base + r.size ≤ x) →
      memRead t.mem x = memRead s.mem x

/-- R31, the column "written by the engine": no command writes CMD, CTRL, LEN, SRC or DST; FADDR is written only on E_BUS; ACC
only by a CRC32 command or FOLD_FINAL that ends with OK. -/
def Obligations.RegistersACommandLeaves : Prop :=
  ∀ (i : Instr) (s t : State), exec i s = .next t →
    t.cmd = s.cmd ∧ t.ctrl = s.ctrl ∧ t.lenLo = s.lenLo ∧ t.lenHi = s.lenHi ∧ t.srcLo = s.srcLo ∧
    t.srcHi = s.srcHi ∧ t.dstLo = s.dstLo ∧ t.dstHi = s.dstHi ∧ t.params = s.params ∧
    (statusCode t.status ≠ 6 → t.faddrLo = s.faddrLo ∧ t.faddrHi = s.faddrHi) ∧
    ((statusCode t.status ≠ 0 ∨ i ∉ .foldFinal :: crc32Commands) → t.acc = s.acc)

/-- R46: FOLD is written by FOLD_INIT, FOLD_UPDATE, FOLD_COPY and FOLD_LOAD only, and no CRC32 command's effect depends on
it. -/
def Obligations.FoldIsTheFoldCommandsOwn : Prop :=
  (∀ (i : Instr) (s t : State), exec i s = .next t →
    i ∉ [.foldInit, .foldUpdate false, .foldUpdate true, .foldCopy, .foldLoad] → t.fold = s.fold) ∧
  (∀ (i : Instr) (s t : State) (f : Fold), i ∈ crc32Commands → exec i s = .next t →
    exec i { s with fold := f } = .next { t with fold := f })

/-! ### NOP and the CRC32 commands -/

/-- R152: the NOP word; NOP completes in every state, and writes STATUS only; its worked example. -/
def Obligations.NopCompletes : Prop :=
  decode 0x00000000#32 = .ok .nop ∧ (∀ s : State, ∃ t, exec .nop s = .next t ∧ EndsOk 0 s t) ∧
  ∃ t, step (load [.write 0x00 4 0x00000000#32] State.reset) = .next t ∧ t.status = 0x00000001#32

/-- A CRC32 command that is available and whose source is accessible completes; it writes ACC, STATUS and, only when the large
Chorba body ran, the ring, and leaves every other register, FOLD and every byte of memory. -/
def Obligations.Crc32CommandsWriteOnlyAccAndStatus : Prop :=
  ∀ (i : Instr) (s : State), i ∈ crc32Commands → unavail i s = false →
    Accessible s.params (srcOp s) (lenOp s) .read →
    ∃ t, exec i s = .next t ∧ EndsOk (statusTier t.status) { s with acc := t.acc, ring := t.ring } t ∧
      (statusTier t.status ≠ 4 → t.ring = s.ring) ∧ ∀ x, memRead t.mem x = memRead s.mem x

/-- R208: CRC32.SCALAR leaves the checksum of the source in ACC and reports tier 1. -/
def Obligations.ScalarCommandComputesTheChecksum : Prop :=
  ∀ s : State, Accessible s.params (srcOp s) (lenOp s) .read →
    ∃ t, exec .crc32Scalar s = .next t ∧ EndsOk 1 { s with acc := crc32 s.acc (sourceBytes s) } t

/-- R240 with R235: CRC32.BRAID leaves the checksum in ACC and reports tier 2, or 1 below N·W + W − 1 bytes. -/
def Obligations.BraidCommandComputesTheChecksum : Prop :=
  ∀ s : State, s.ctrl.getLsbD 0 = true → Accessible s.params (srcOp s) (lenOp s) .read →
    ∃ t, exec .crc32Braid s = .next t ∧
      EndsOk (if lenOp s < braidN s.params * braidW s.params + braidW s.params - 1 then 1 else 2)
        { s with acc := crc32 s.acc (sourceBytes s) } t

/-- R290 with R264: CRC32.CHORBA_S leaves the checksum in ACC and reports tier 3, or 1 below 72 bytes. -/
def Obligations.ChorbaSmallCommandComputesTheChecksum : Prop :=
  ∀ s : State, s.ctrl.getLsbD 1 = true → Accessible s.params (srcOp s) (lenOp s) .read →
    ∃ t, exec .crc32ChorbaS s = .next t ∧
      EndsOk (if lenOp s < 72 then 1 else 3) { s with acc := crc32 s.acc (sourceBytes s) } t

/-- R291 with R272: CRC32.CHORBA_L leaves the checksum in ACC and reports tier 4 from 119224 bytes on, else the small
variant's tier. The ring's contents afterwards are unspecified and not spoken of. -/
def Obligations.ChorbaLargeCommandComputesTheChecksum : Prop :=
  ∀ s : State, s.ctrl.getLsbD 1 = true → Accessible s.params (srcOp s) (lenOp s) .read →
    ∃ t, exec .crc32ChorbaL s = .next t ∧
      EndsOk (if lenOp s < 72 then 1 else if lenOp s < 119224 then 3 else 4)
        { s with acc := crc32 s.acc (sourceBytes s), ring := t.ring } t

/-- R321 with R320: CRC32.SIMD leaves the checksum in ACC and reports tier 5, or 1 below 16 bytes. -/
def Obligations.SimdCommandComputesTheChecksum : Prop :=
  ∀ s : State, s.ctrl.getLsbD 2 = true → Accessible s.params (srcOp s) (lenOp s) .read →
    ∃ t, exec .crc32Simd s = .next t ∧
      EndsOk (if lenOp s < 16 then 1 else 5) { s with acc := crc32 s.acc (sourceBytes s) } t

/-- R154 for CRC32.AUTO: whichever tier the selector picks, ACC is the checksum of the source. -/
def Obligations.AutoCommandComputesTheChecksum : Prop :=
  ∀ s : State, Accessible s.params (srcOp s) (lenOp s) .read →
    ∃ t, exec .crc32Auto s = .next t ∧
      EndsOk (statusTier t.status) { s with acc := crc32 s.acc (sourceBytes s), ring := t.ring } t

/-- R156 with R157: the tier CRC32.AUTO reports. With k = (−SRC) mod 16 the prefix and m = LEN − k, or m = LEN where k ≥ LEN:
SIMD from 256 bytes; else large Chorba above the large threshold; else small Chorba above the small threshold; else the
braided tier from its minimum on; else scalar; each only where enabled. -/
def Obligations.AutoCommandReportsTheSelectedTier : Prop :=
  ∀ s t : State, Accessible s.params (srcOp s) (lenOp s) .read → exec .crc32Auto s = .next t →
    let n := lenOp s
    let k := (16 - srcOp s % 16) % 16
    let m := if k < n then n - k else n
    let w := braidW s.params
    statusTier t.status =
      (if s.ctrl.getLsbD 2 = true ∧ 256 ≤ n then 5
       else if s.ctrl.getLsbD 1 = true ∧ k < n ∧ 64 * w * 1024 < m then 4
       else if s.ctrl.getLsbD 1 = true ∧ k < n ∧ (if w = 8 then 72 else 80) < m then 3
       else if s.ctrl.getLsbD 0 = true ∧ braidN s.params * w + w - 1 ≤ m then 2
       else 1)

/-- R158: with LEN = 0 every available CRC32 command completes, leaves ACC and everything else but STATUS unchanged, and reports
tier 1. -/
def Obligations.EmptyInputLeavesAcc : Prop :=
  ∀ (i : Instr) (s : State), i ∈ crc32Commands → unavail i s = false → lenOp s = 0 →
    ∃ t, exec i s = .next t ∧ EndsOk 1 s t

/-- R205: the word reduction, its defining property. -/
def Obligations.WordReductionEqualsItsBytes : Prop :=
  ∀ (w : Nat) (c : Word) (bs : List Byte) (i : Nat), (w = 4 ∨ w = 8) → i + w ≤ bs.length →
    crcWord w (c.setWidth 64 ^^^ le 64 w bs i) = crcRaw c ((bs.drop i).take w)

/-- The polynomial a value spells: bit i is the coefficient of x^i. -/
noncomputable def Sys2Proof.bitsPoly {n : Nat} (v : BitVec n) : Polynomial (ZMod 2) :=
  ∑ i ∈ Finset.range n, if v.getLsbD i then Polynomial.X ^ i else 0

/-- The stream polynomial of a byte sequence of length n: bit k of byte p is the coefficient of
x^(32 + 8n − 1 − (8p + k)) (R203). -/
noncomputable def Sys2Proof.streamPoly (bs : List Byte) : Polynomial (ZMod 2) :=
  ∑ p ∈ Finset.range bs.length, ∑ k ∈ Finset.range 8,
    if (bs.getD p 0).getLsbD k then Polynomial.X ^ (32 + 8 * bs.length - 1 - (8 * p + k)) else 0

/-- R203: the raw register is polynomial division over GF(2), read in reflected bit order:
rev32(crc_raw(c, B)) = (rev32(c)·x^(8n) + M(x)) mod P(x), P = 0x104C11DB7. -/
def Obligations.RawRegisterIsPolynomialDivision : Prop :=
  ∀ (c : Word) (bs : List Byte),
    bitsPoly (crcRaw c bs).reverse =
      (bitsPoly c.reverse * Polynomial.X ^ (8 * bs.length) + streamPoly bs) %ₘ bitsPoly 0x104C11DB7#33

/-- R49: before word t of the steady state, only the ring slots of words t to t + L − 1 can hold anything but 0. -/
def Obligations.RingHoldsOnlyTheLagWindow : Prop :=
  ∀ (c : Word) (bs : List Byte) (t slot : Nat),
    sparseRead 0#64 (largeWords chorbaLag chorbaRingWords chorbaTerms c t 0 bs []) slot ≠ 0 →
    ∃ u, t ≤ u ∧ u < t + chorbaLag ∧ slot = u % chorbaRingWords

/-! ### The fold commands (44_simd_fold.md) -/

/-- R322: the FOLD_INIT word; FOLD_INIT completes and clears the four lanes, so that the window is 64 zero bytes and the
stream register is 0; with SIMD_EN = 0 it ends with E_UNAVAIL. -/
def Obligations.FoldInitClearsTheLanes : Prop :=
  decode 0x00000010#32 = .ok .foldInit ∧
  ∀ s : State,
    (s.ctrl.getLsbD 2 = true →
      ∃ t, exec .foldInit s = .next t ∧ EndsOk 0 { s with fold := ⟨0, 0, 0, 0⟩ } t ∧
        serFold t.fold = zeros 64 ∧ crcRaw 0 (serFold t.fold) = 0) ∧
    (s.ctrl.getLsbD 2 = false → ∃ t, exec .foldInit s = .next t ∧ EndsFault 2 s t)

/-- R323: FOLD_UPDATE completes and feeds the source into the window, the seed ACC ^ M32 injected when INJ = 1; in canonical
mode the window is that of R314. It writes FOLD and STATUS only. -/
def Obligations.FoldUpdateFeedsTheWindow : Prop :=
  ∀ (inj : Bool) (s : State), s.ctrl.getLsbD 2 = true → Accessible s.params (srcOp s) (lenOp s) .read →
    (inj = true → s.acc ^^^ M32 ≠ 0 → 16 ≤ lenOp s) →
    ∃ t, exec (.foldUpdate inj) s = .next t ∧ EndsOk 5 { s with fold := t.fold } t ∧
      (lenOp s = 0 → t.fold = s.fold) ∧
      (s.params.lanesMode = .canonical →
        serFold t.fold = canonUpdate (serFold s.fold) (sourceBytes s) (srcOp s) (if inj then s.acc ^^^ M32 else 0))

/-- R324: FOLD_COPY completes, feeds the source into the window without a seed and copies it to the destination. It writes
FOLD, STATUS and the bytes at [DST, DST + LEN) only; with no other agent writing, those are the source bytes. -/
def Obligations.FoldCopyFeedsAndCopies : Prop :=
  ∀ s : State, s.ctrl.getLsbD 2 = true → Memory.wf s.mem →
    Accessible s.params (srcOp s) (lenOp s) .read → Accessible s.params (dstOp s) (lenOp s) .write →
    (lenOp s = 0 ∨ dstOp s + lenOp s ≤ srcOp s ∨ srcOp s + lenOp s ≤ dstOp s) →
    ∃ t, exec .foldCopy s = .next t ∧ EndsOk 5 { s with fold := t.fold, mem := t.mem } t ∧
      (s.params.lanesMode = .canonical →
        serFold t.fold = canonUpdate (serFold s.fold) (sourceBytes s) (srcOp s) 0) ∧
      (s.racing = [] → readBytes t.mem (dstOp s) (lenOp s) = sourceBytes s) ∧
      ∀ x, (x < dstOp s ∨ dstOp s + lenOp s ≤ x) → memRead t.mem x = memRead s.mem x

/-- R325: the FOLD_FINAL word; FOLD_FINAL completes, leaves the complemented reduction in ACC, and changes FOLD and memory not
at all; with SIMD_EN = 0 it ends with E_UNAVAIL; after FOLD_INIT it gives 0xFFFFFFFF; its worked example. -/
def Obligations.FoldFinalReducesTheWindow : Prop :=
  decode 0x00000013#32 = .ok .foldFinal ∧
  ∀ s : State,
    (s.ctrl.getLsbD 2 = true →
      ∃ t, exec .foldFinal s = .next t ∧ EndsOk 0 { s with acc := crcRaw 0 (serFold s.fold) ^^^ M32 } t ∧
        (s.fold = ⟨0, 0, 0, 0⟩ → t.acc = 0xFFFFFFFF#32) ∧
        (s.fold = ⟨0, 0, 0, 0x666564636261393837363534CCCDCECF#128⟩ → t.acc = 0x68C4F033#32)) ∧
    (s.ctrl.getLsbD 2 = false → ∃ t, exec .foldFinal s = .next t ∧ EndsFault 2 s t)

/-- R326: the FOLD_SAVE word; FOLD_SAVE completes and writes the window's 64 bytes at DST, L0 first and each lane little-endian, and no other
byte; FOLD is unchanged. Else it ends with E_UNAVAIL, E_RANGE or E_BUS. -/
def Obligations.FoldSaveWritesTheWindow : Prop :=
  decode 0x00000014#32 = .ok .foldSave ∧
  (∀ s : State, s.ctrl.getLsbD 2 = true → Memory.wf s.mem → Accessible s.params (dstOp s) 64 .write →
    ∃ t, exec .foldSave s = .next t ∧ EndsOk 0 { s with mem := t.mem } t ∧
      readBytes t.mem (dstOp s) 64 =
        bytesLE 16 s.fold.l0 ++ bytesLE 16 s.fold.l1 ++ bytesLE 16 s.fold.l2 ++ bytesLE 16 s.fold.l3 ∧
      ∀ x, (x < dstOp s ∨ dstOp s + 64 ≤ x) → memRead t.mem x = memRead s.mem x) ∧
  (∀ s t : State, exec .foldSave s = .next t →
    (s.ctrl.getLsbD 2 = false → statusCode t.status = 2) ∧
    (s.ctrl.getLsbD 2 = true → 2 ^ 64 < dstOp s + 64 → statusCode t.status = 3) ∧
    (s.ctrl.getLsbD 2 = true → dstOp s + 64 ≤ 2 ^ 64 → ¬ Accessible s.params (dstOp s) 64 .write →
      statusCode t.status = 6))

/-- R327: the FOLD_LOAD word; FOLD_LOAD completes and loads the lanes from the 64 bytes at SRC, whatever they are; it writes FOLD and STATUS only.
Else it ends with E_UNAVAIL, E_RANGE or E_BUS. -/
def Obligations.FoldLoadReadsTheWindow : Prop :=
  decode 0x00000015#32 = .ok .foldLoad ∧
  (∀ s : State, s.ctrl.getLsbD 2 = true → Accessible s.params (srcOp s) 64 .read →
    ∃ t, exec .foldLoad s = .next t ∧ EndsOk 0 { s with fold := t.fold } t ∧
      serFold t.fold = engineRead s 0 (srcOp s) 64 ∧
      (s.racing = [] → serFold t.fold = readBytes s.mem (srcOp s) 64)) ∧
  (∀ s t : State, exec .foldLoad s = .next t →
    (s.ctrl.getLsbD 2 = false → statusCode t.status = 2) ∧
    (s.ctrl.getLsbD 2 = true → 2 ^ 64 < srcOp s + 64 → statusCode t.status = 3) ∧
    (s.ctrl.getLsbD 2 = true → srcOp s + 64 ≤ 2 ^ 64 → ¬ Accessible s.params (srcOp s) 64 .read →
      statusCode t.status = 6))

/-- R312: a 16-byte block followed by 64 bytes of zeros has the same CRC as its fold. -/
def Obligations.FoldBy64BytesKeepsTheCrc : Prop :=
  ∀ x : Lane, crcRaw 0 (bytesLE 16 x ++ zeros 64) = crcRaw 0 (bytesLE 16 (fold4 x))

/-- R313: a shift of the window by 1 to 16 bytes keeps the running CRC of the stream. -/
def Obligations.WindowShiftKeepsTheCrc : Prop :=
  ∀ window fed : List Byte, window.length = 64 → 1 ≤ fed.length → fed.length ≤ 16 →
    crcRaw 0 (wshift window fed) = crcRaw 0 (window ++ fed)

/-- R47, in both lanes modes: after a FOLD_UPDATE or FOLD_COPY that completes, the reduction of FOLD is the stream register
after the bytes fed, the seed injected. -/
def Obligations.FoldInvariantHoldsInBothModes : Prop :=
  (∀ (inj : Bool) (s t : State), exec (.foldUpdate inj) s = .next t → statusCode t.status = 0 →
    crcRaw 0 (serFold t.fold) =
      crcRaw (crcRaw 0 (serFold s.fold) ^^^ (if inj then s.acc ^^^ M32 else 0)) (sourceBytes s)) ∧
  (∀ s t : State, exec .foldCopy s = .next t → statusCode t.status = 0 →
    crcRaw 0 (serFold t.fold) = crcRaw (crcRaw 0 (serFold s.fold)) (sourceBytes s))

/-- R318: the windows a fold command may leave in relational mode are exactly those of the right reduction. -/
def Obligations.RelationalWindowsAreExactlyTheAllowedOnes : Prop :=
  ∀ (target : Word) (window : List Byte), window.length = 64 →
    (crcRaw 0 window = target ↔ ∃ free, window = relationalWindow free target)

/-- R328: FOLD_SAVE, then FOLD_LOAD from the same address in a state whose memory holds the saved bytes, restores FOLD. -/
def Obligations.SaveThenLoadRestoresTheLanes : Prop :=
  ∀ s u : State, s.ctrl.getLsbD 2 = true → Memory.wf s.mem → Accessible s.params (dstOp s) 64 .write →
    u.ctrl.getLsbD 2 = true → u.racing = [] → srcOp u = dstOp s → Accessible u.params (srcOp u) 64 .read →
    ∃ t, exec .foldSave s = .next t ∧
      ((∀ x, dstOp s ≤ x → x < dstOp s + 64 → memRead u.mem x = memRead t.mem x) →
        ∃ v, exec .foldLoad u = .next v ∧ v.fold = s.fold)

/-- R329: FOLD_INIT, a seeded FOLD_UPDATE over the source, FOLD_FINAL leave the standard checksum of the source. -/
def Obligations.SeededFoldStreamGivesTheChecksum : Prop :=
  ∀ s : State, s.ctrl.getLsbD 2 = true → Accessible s.params (srcOp s) (lenOp s) .read →
    (16 ≤ lenOp s ∨ s.acc = M32) →
    ∃ t u v, exec .foldInit s = .next t ∧ exec (.foldUpdate true) t = .next u ∧ exec .foldFinal u = .next v ∧
      v.acc = crc32 s.acc (sourceBytes s)
end

