-- ==== Sys2Proof/Laws/Crc.lean ====
section
/-! SUPPORT. Byte sequences and the raw register: the consequences of R204 that every tier's law rests on. -/

namespace Sys2Proof.Machine

/-! ### Byte sequences -/

@[simp] theorem length_zeros (n : Nat) : (zeros n).length = n := by simp [zeros]

@[simp] theorem length_natBytes (n v : Nat) : (natBytes n v).length = n := by
  induction n generalizing v with
  | zero => rfl
  | succ n ih => simp [natBytes, ih]

@[simp] theorem length_bytesLE {w : Nat} (n : Nat) (v : BitVec w) : (bytesLE n v).length = n := length_natBytes n _

@[simp] theorem length_xorPrefix (bs ms : List Byte) : (xorPrefix bs ms).length = bs.length := by
  induction bs generalizing ms with
  | nil => rfl
  | cons b bs ih => cases ms <;> simp [xorPrefix, ih]

@[simp] theorem xorPrefix_nil (bs : List Byte) : xorPrefix bs [] = bs := by cases bs <;> rfl

/-- The bytes of a number spell it, up to the width they have: le_n(bytes_n(v)) = v (R26). -/
theorem leNat_natBytes (n v : Nat) : leNat (natBytes n v) = v % 256 ^ n := by
  induction n generalizing v with
  | zero => simp [natBytes, leNat, Nat.mod_one]
  | succ n ih =>
    simp only [natBytes, leNat, ih, BitVec.toNat_ofNat, show 2 ^ 8 = 256 from rfl]
    rw [pow_succ, mul_comm (256 ^ n) 256, Nat.mod_mul]

/-! ### Repeated steps -/

theorem repeatStep_add {α : Type} (f : α → α) (m n : Nat) (x : α) :
    repeatStep f (m + n) x = repeatStep f n (repeatStep f m x) := by
  induction m generalizing x with
  | zero => simp [repeatStep]
  | succ m ih => rw [Nat.add_right_comm]; exact ih (f x)

/-! ### The raw register -/

@[simp] theorem crcRaw_nil (c : Word) : crcRaw c [] = c := rfl

@[simp] theorem crcRaw_cons (c : Word) (b : Byte) (bs : List Byte) : crcRaw c (b :: bs) = crcRaw (byteStep c b) bs := rfl

/-- R204 (b). -/
theorem crcRaw_append (c : Word) (xs ys : List Byte) : crcRaw c (xs ++ ys) = crcRaw (crcRaw c xs) ys := by
  induction xs generalizing c with
  | nil => rfl
  | cons b bs ih => simp [ih]

/-- The shift step is linear over GF(2). -/
theorem crcStep_xor (x y : Word) : crcStep (x ^^^ y) = crcStep x ^^^ crcStep y := by
  have hs : (x ^^^ y) >>> 1 = (x >>> 1) ^^^ (y >>> 1) := BitVec.ushiftRight_xor_distrib x y 1
  have hb : (x ^^^ y).getLsbD 0 = (x.getLsbD 0 ^^ y.getLsbD 0) := BitVec.getLsbD_xor
  rw [crcStep, crcStep, crcStep, hs, hb]
  generalize x >>> 1 = u, y >>> 1 = v, x.getLsbD 0 = p, y.getLsbD 0 = q
  cases p <;> cases q <;> simp only [Bool.xor_self, Bool.false_xor, Bool.xor_false, if_true, Bool.false_eq_true,
    if_false]
  · rw [BitVec.xor_assoc]
  · rw [BitVec.xor_assoc, BitVec.xor_comm v, ← BitVec.xor_assoc]
  · rw [BitVec.xor_comm v polyReflected, ← BitVec.xor_assoc, BitVec.xor_assoc u, BitVec.xor_self, BitVec.xor_zero]

theorem repeatStep_crcStep_xor (n : Nat) (x y : Word) :
    repeatStep crcStep n (x ^^^ y) = repeatStep crcStep n x ^^^ repeatStep crcStep n y := by
  induction n generalizing x y with
  | zero => rfl
  | succ n ih => simp only [repeatStep, crcStep_xor, ih]

/-- The table is linear over GF(2). -/
theorem tableT_xor (x y : Byte) : tableT (x ^^^ y) = tableT x ^^^ tableT y := by
  simp only [tableT, BitVec.setWidth_xor, repeatStep_crcStep_xor]

@[simp] theorem tableT_zero : tableT 0 = 0 := by decide

/-- The byte step is linear over GF(2). -/
theorem byteStep_xor (c d : Word) (x y : Byte) :
    byteStep (c ^^^ d) (x ^^^ y) = byteStep c x ^^^ byteStep d y := by
  have h : (c ^^^ d ^^^ (x ^^^ y).setWidth 32).setWidth 8 =
      (c ^^^ x.setWidth 32).setWidth 8 ^^^ (d ^^^ y.setWidth 32).setWidth 8 := by
    ext i; simp; grind
  simp only [byteStep, h, tableT_xor, BitVec.ushiftRight_xor_distrib]
  ext i; simp; grind

/-- R204 (c): the raw register is linear over GF(2) in the register value and the bytes. -/
theorem crcRaw_xor (c d : Word) (xs ys : List Byte) (h : xs.length = ys.length) :
    crcRaw (c ^^^ d) (List.zipWith (· ^^^ ·) xs ys) = crcRaw c xs ^^^ crcRaw d ys := by
  induction xs generalizing c d ys with
  | nil => cases ys <;> simp_all
  | cons x xs ih =>
    cases ys with
    | nil => simp at h
    | cons y ys =>
      simp only [List.length_cons, Nat.succ.injEq] at h
      simp only [List.zipWith_cons_cons, crcRaw_cons, byteStep_xor, ih _ _ _ h]

@[simp] theorem byteStep_zero_zero : byteStep 0 0 = 0 := by decide

/-- R204 (d). -/
@[simp] theorem crcRaw_zero_zeros (n : Nat) : crcRaw 0 (zeros n) = 0 := by
  induction n with
  | zero => rfl
  | succ n ih =>
    rw [zeros, List.replicate_succ, crcRaw_cons, show byteStep 0 0#8 = 0 from byteStep_zero_zero]
    exact ih

end Sys2Proof.Machine
end

