-- ==== Sys2Proof/Laws/Fold.lean ====
section
/-! SUPPORT. The window: its length, and that the lanes and their serialization carry the same data (10_state.md R45). -/

namespace Sys2Proof.Machine

@[simp] theorem length_serFold (f : Fold) : (serFold f).length = 64 := by simp [serFold]

/-- le_n(bytes_n(v)) = v, whatever stands before and after the bytes (R26). -/
theorem le_append_bytesLE {w n : Nat} (hw : w = 8 * n) (xs ys : List Byte) (v : BitVec w) :
    le w n (xs ++ bytesLE n v ++ ys) xs.length = v := by
  have h : ((xs ++ bytesLE n v ++ ys).drop xs.length).take n = bytesLE n v := by
    rw [List.append_assoc, List.drop_left, List.take_left' (length_bytesLE n v)]
  have hp : 256 ^ n = 2 ^ w := by rw [hw, pow_mul]; rfl
  have hv : leNat (bytesLE n v) = v.toNat := by rw [bytesLE, leNat_natBytes, hp, Nat.mod_eq_of_lt v.isLt]
  rw [le, h, hv, BitVec.ofNat_toNat, BitVec.setWidth_eq]

/-- A saved window loads as the lanes it was saved from. -/
@[simp] theorem deserFold_serFold (f : Fold) : deserFold (serFold f) = f := by
  have h0 := le_append_bytesLE (n := 16) rfl [] (bytesLE 16 f.l1 ++ bytesLE 16 f.l2 ++ bytesLE 16 f.l3) f.l0
  have h1 := le_append_bytesLE (n := 16) rfl (bytesLE 16 f.l0) (bytesLE 16 f.l2 ++ bytesLE 16 f.l3) f.l1
  have h2 := le_append_bytesLE (n := 16) rfl (bytesLE 16 f.l0 ++ bytesLE 16 f.l1) (bytesLE 16 f.l3) f.l2
  have h3 := le_append_bytesLE (n := 16) rfl (bytesLE 16 f.l0 ++ bytesLE 16 f.l1 ++ bytesLE 16 f.l2) [] f.l3
  simp only [List.nil_append, List.append_assoc, List.length_append, length_bytesLE, List.length_nil,
    List.append_nil] at h0 h1 h2 h3
  cases f
  simp only [deserFold, serFold, List.append_assoc, h0, h1, h2, h3]

/-- A shift of at most 16 bytes keeps the window's 64. -/
theorem length_wshift {window fed : List Byte} (h : window.length = 64) (hf : fed.length ≤ 16) :
    (wshift window fed).length = 64 := by
  simp only [wshift, xorAt, List.length_append, List.length_take, length_xorPrefix, List.length_drop]
  omega

theorem length_wshiftSome {window fed : List Byte} (h : window.length = 64) (hf : fed.length ≤ 16) :
    (wshiftSome window fed).length = 64 := by
  unfold wshiftSome
  split
  · exact h
  · exact length_wshift h hf

/-- Whole blocks keep the window's 64 bytes and take 16 bytes each. -/
theorem length_wshiftBlocks {k : Nat} {window bs : List Byte} (h : window.length = 64) (hk : 16 * k ≤ bs.length) :
    (wshiftBlocks k window bs).1.length = 64 ∧ (wshiftBlocks k window bs).2.length = bs.length - 16 * k := by
  induction k generalizing window bs with
  | zero => exact ⟨h, rfl⟩
  | succ k ih =>
    have hw := length_wshift (fed := bs.take 16) h (List.length_take_le 16 bs)
    obtain ⟨h1, h2⟩ := ih hw (bs := bs.drop 16) (by rw [List.length_drop]; omega)
    exact ⟨h1, by rw [wshiftBlocks, h2, List.length_drop]; omega⟩

end Sys2Proof.Machine
end

