-- ==== Sys2Proof/Laws/State.lean ====
section
/-! SUPPORT. One lemma per field per named update of State: no later proof unfolds a record update. -/

namespace Sys2Proof.Machine

variable (s : State)

/-! ### setStatus -/

@[simp] theorem State.setStatus_params (v : Word) : (s.setStatus v).params = s.params := rfl
@[simp] theorem State.setStatus_cmd (v : Word) : (s.setStatus v).cmd = s.cmd := rfl
@[simp] theorem State.setStatus_status (v : Word) : (s.setStatus v).status = v := rfl
@[simp] theorem State.setStatus_ctrl (v : Word) : (s.setStatus v).ctrl = s.ctrl := rfl
@[simp] theorem State.setStatus_acc (v : Word) : (s.setStatus v).acc = s.acc := rfl
@[simp] theorem State.setStatus_lenLo (v : Word) : (s.setStatus v).lenLo = s.lenLo := rfl
@[simp] theorem State.setStatus_lenHi (v : Word) : (s.setStatus v).lenHi = s.lenHi := rfl
@[simp] theorem State.setStatus_srcLo (v : Word) : (s.setStatus v).srcLo = s.srcLo := rfl
@[simp] theorem State.setStatus_srcHi (v : Word) : (s.setStatus v).srcHi = s.srcHi := rfl
@[simp] theorem State.setStatus_dstLo (v : Word) : (s.setStatus v).dstLo = s.dstLo := rfl
@[simp] theorem State.setStatus_dstHi (v : Word) : (s.setStatus v).dstHi = s.dstHi := rfl
@[simp] theorem State.setStatus_faddrLo (v : Word) : (s.setStatus v).faddrLo = s.faddrLo := rfl
@[simp] theorem State.setStatus_faddrHi (v : Word) : (s.setStatus v).faddrHi = s.faddrHi := rfl
@[simp] theorem State.setStatus_fold (v : Word) : (s.setStatus v).fold = s.fold := rfl
@[simp] theorem State.setStatus_ring (v : Word) : (s.setStatus v).ring = s.ring := rfl
@[simp] theorem State.setStatus_seq (v : Word) : (s.setStatus v).seq = s.seq := rfl
@[simp] theorem State.setStatus_mem (v : Word) : (s.setStatus v).mem = s.mem := rfl
@[simp] theorem State.setStatus_pending (v : Word) : (s.setStatus v).pending = s.pending := rfl
@[simp] theorem State.setStatus_readData (v : Word) : (s.setStatus v).readData = s.readData := rfl
@[simp] theorem State.setStatus_racing (v : Word) : (s.setStatus v).racing = s.racing := rfl
@[simp] theorem State.setStatus_draws (v : Word) : (s.setStatus v).draws = s.draws := rfl

/-! ### setAcc -/

@[simp] theorem State.setAcc_params (v : Word) : (s.setAcc v).params = s.params := rfl
@[simp] theorem State.setAcc_cmd (v : Word) : (s.setAcc v).cmd = s.cmd := rfl
@[simp] theorem State.setAcc_status (v : Word) : (s.setAcc v).status = s.status := rfl
@[simp] theorem State.setAcc_ctrl (v : Word) : (s.setAcc v).ctrl = s.ctrl := rfl
@[simp] theorem State.setAcc_acc (v : Word) : (s.setAcc v).acc = v := rfl
@[simp] theorem State.setAcc_lenLo (v : Word) : (s.setAcc v).lenLo = s.lenLo := rfl
@[simp] theorem State.setAcc_lenHi (v : Word) : (s.setAcc v).lenHi = s.lenHi := rfl
@[simp] theorem State.setAcc_srcLo (v : Word) : (s.setAcc v).srcLo = s.srcLo := rfl
@[simp] theorem State.setAcc_srcHi (v : Word) : (s.setAcc v).srcHi = s.srcHi := rfl
@[simp] theorem State.setAcc_dstLo (v : Word) : (s.setAcc v).dstLo = s.dstLo := rfl
@[simp] theorem State.setAcc_dstHi (v : Word) : (s.setAcc v).dstHi = s.dstHi := rfl
@[simp] theorem State.setAcc_faddrLo (v : Word) : (s.setAcc v).faddrLo = s.faddrLo := rfl
@[simp] theorem State.setAcc_faddrHi (v : Word) : (s.setAcc v).faddrHi = s.faddrHi := rfl
@[simp] theorem State.setAcc_fold (v : Word) : (s.setAcc v).fold = s.fold := rfl
@[simp] theorem State.setAcc_ring (v : Word) : (s.setAcc v).ring = s.ring := rfl
@[simp] theorem State.setAcc_seq (v : Word) : (s.setAcc v).seq = s.seq := rfl
@[simp] theorem State.setAcc_mem (v : Word) : (s.setAcc v).mem = s.mem := rfl
@[simp] theorem State.setAcc_pending (v : Word) : (s.setAcc v).pending = s.pending := rfl
@[simp] theorem State.setAcc_readData (v : Word) : (s.setAcc v).readData = s.readData := rfl
@[simp] theorem State.setAcc_racing (v : Word) : (s.setAcc v).racing = s.racing := rfl
@[simp] theorem State.setAcc_draws (v : Word) : (s.setAcc v).draws = s.draws := rfl

/-! ### setFold -/

@[simp] theorem State.setFold_params (f : Fold) : (s.setFold f).params = s.params := rfl
@[simp] theorem State.setFold_cmd (f : Fold) : (s.setFold f).cmd = s.cmd := rfl
@[simp] theorem State.setFold_status (f : Fold) : (s.setFold f).status = s.status := rfl
@[simp] theorem State.setFold_ctrl (f : Fold) : (s.setFold f).ctrl = s.ctrl := rfl
@[simp] theorem State.setFold_acc (f : Fold) : (s.setFold f).acc = s.acc := rfl
@[simp] theorem State.setFold_lenLo (f : Fold) : (s.setFold f).lenLo = s.lenLo := rfl
@[simp] theorem State.setFold_lenHi (f : Fold) : (s.setFold f).lenHi = s.lenHi := rfl
@[simp] theorem State.setFold_srcLo (f : Fold) : (s.setFold f).srcLo = s.srcLo := rfl
@[simp] theorem State.setFold_srcHi (f : Fold) : (s.setFold f).srcHi = s.srcHi := rfl
@[simp] theorem State.setFold_dstLo (f : Fold) : (s.setFold f).dstLo = s.dstLo := rfl
@[simp] theorem State.setFold_dstHi (f : Fold) : (s.setFold f).dstHi = s.dstHi := rfl
@[simp] theorem State.setFold_faddrLo (f : Fold) : (s.setFold f).faddrLo = s.faddrLo := rfl
@[simp] theorem State.setFold_faddrHi (f : Fold) : (s.setFold f).faddrHi = s.faddrHi := rfl
@[simp] theorem State.setFold_fold (f : Fold) : (s.setFold f).fold = f := rfl
@[simp] theorem State.setFold_ring (f : Fold) : (s.setFold f).ring = s.ring := rfl
@[simp] theorem State.setFold_seq (f : Fold) : (s.setFold f).seq = s.seq := rfl
@[simp] theorem State.setFold_mem (f : Fold) : (s.setFold f).mem = s.mem := rfl
@[simp] theorem State.setFold_pending (f : Fold) : (s.setFold f).pending = s.pending := rfl
@[simp] theorem State.setFold_readData (f : Fold) : (s.setFold f).readData = s.readData := rfl
@[simp] theorem State.setFold_racing (f : Fold) : (s.setFold f).racing = s.racing := rfl
@[simp] theorem State.setFold_draws (f : Fold) : (s.setFold f).draws = s.draws := rfl

/-! ### setMem -/

@[simp] theorem State.setMem_params (m : Memory) : (s.setMem m).params = s.params := rfl
@[simp] theorem State.setMem_cmd (m : Memory) : (s.setMem m).cmd = s.cmd := rfl
@[simp] theorem State.setMem_status (m : Memory) : (s.setMem m).status = s.status := rfl
@[simp] theorem State.setMem_ctrl (m : Memory) : (s.setMem m).ctrl = s.ctrl := rfl
@[simp] theorem State.setMem_acc (m : Memory) : (s.setMem m).acc = s.acc := rfl
@[simp] theorem State.setMem_lenLo (m : Memory) : (s.setMem m).lenLo = s.lenLo := rfl
@[simp] theorem State.setMem_lenHi (m : Memory) : (s.setMem m).lenHi = s.lenHi := rfl
@[simp] theorem State.setMem_srcLo (m : Memory) : (s.setMem m).srcLo = s.srcLo := rfl
@[simp] theorem State.setMem_srcHi (m : Memory) : (s.setMem m).srcHi = s.srcHi := rfl
@[simp] theorem State.setMem_dstLo (m : Memory) : (s.setMem m).dstLo = s.dstLo := rfl
@[simp] theorem State.setMem_dstHi (m : Memory) : (s.setMem m).dstHi = s.dstHi := rfl
@[simp] theorem State.setMem_faddrLo (m : Memory) : (s.setMem m).faddrLo = s.faddrLo := rfl
@[simp] theorem State.setMem_faddrHi (m : Memory) : (s.setMem m).faddrHi = s.faddrHi := rfl
@[simp] theorem State.setMem_fold (m : Memory) : (s.setMem m).fold = s.fold := rfl
@[simp] theorem State.setMem_ring (m : Memory) : (s.setMem m).ring = s.ring := rfl
@[simp] theorem State.setMem_seq (m : Memory) : (s.setMem m).seq = s.seq := rfl
@[simp] theorem State.setMem_mem (m : Memory) : (s.setMem m).mem = m := rfl
@[simp] theorem State.setMem_pending (m : Memory) : (s.setMem m).pending = s.pending := rfl
@[simp] theorem State.setMem_readData (m : Memory) : (s.setMem m).readData = s.readData := rfl
@[simp] theorem State.setMem_racing (m : Memory) : (s.setMem m).racing = s.racing := rfl
@[simp] theorem State.setMem_draws (m : Memory) : (s.setMem m).draws = s.draws := rfl

/-! ### setRing -/

@[simp] theorem State.setRing_params (k : Nat) : (s.setRing k).params = s.params := rfl
@[simp] theorem State.setRing_cmd (k : Nat) : (s.setRing k).cmd = s.cmd := rfl
@[simp] theorem State.setRing_status (k : Nat) : (s.setRing k).status = s.status := rfl
@[simp] theorem State.setRing_ctrl (k : Nat) : (s.setRing k).ctrl = s.ctrl := rfl
@[simp] theorem State.setRing_acc (k : Nat) : (s.setRing k).acc = s.acc := rfl
@[simp] theorem State.setRing_lenLo (k : Nat) : (s.setRing k).lenLo = s.lenLo := rfl
@[simp] theorem State.setRing_lenHi (k : Nat) : (s.setRing k).lenHi = s.lenHi := rfl
@[simp] theorem State.setRing_srcLo (k : Nat) : (s.setRing k).srcLo = s.srcLo := rfl
@[simp] theorem State.setRing_srcHi (k : Nat) : (s.setRing k).srcHi = s.srcHi := rfl
@[simp] theorem State.setRing_dstLo (k : Nat) : (s.setRing k).dstLo = s.dstLo := rfl
@[simp] theorem State.setRing_dstHi (k : Nat) : (s.setRing k).dstHi = s.dstHi := rfl
@[simp] theorem State.setRing_faddrLo (k : Nat) : (s.setRing k).faddrLo = s.faddrLo := rfl
@[simp] theorem State.setRing_faddrHi (k : Nat) : (s.setRing k).faddrHi = s.faddrHi := rfl
@[simp] theorem State.setRing_fold (k : Nat) : (s.setRing k).fold = s.fold := rfl
@[simp] theorem State.setRing_ring (k : Nat) : (s.setRing k).ring = k := rfl
@[simp] theorem State.setRing_seq (k : Nat) : (s.setRing k).seq = s.seq := rfl
@[simp] theorem State.setRing_mem (k : Nat) : (s.setRing k).mem = s.mem := rfl
@[simp] theorem State.setRing_pending (k : Nat) : (s.setRing k).pending = s.pending := rfl
@[simp] theorem State.setRing_readData (k : Nat) : (s.setRing k).readData = s.readData := rfl
@[simp] theorem State.setRing_racing (k : Nat) : (s.setRing k).racing = s.racing := rfl
@[simp] theorem State.setRing_draws (k : Nat) : (s.setRing k).draws = s.draws := rfl

/-! ### setSeq -/

@[simp] theorem State.setSeq_params (q : Sequencer) : (s.setSeq q).params = s.params := rfl
@[simp] theorem State.setSeq_cmd (q : Sequencer) : (s.setSeq q).cmd = s.cmd := rfl
@[simp] theorem State.setSeq_status (q : Sequencer) : (s.setSeq q).status = s.status := rfl
@[simp] theorem State.setSeq_ctrl (q : Sequencer) : (s.setSeq q).ctrl = s.ctrl := rfl
@[simp] theorem State.setSeq_acc (q : Sequencer) : (s.setSeq q).acc = s.acc := rfl
@[simp] theorem State.setSeq_lenLo (q : Sequencer) : (s.setSeq q).lenLo = s.lenLo := rfl
@[simp] theorem State.setSeq_lenHi (q : Sequencer) : (s.setSeq q).lenHi = s.lenHi := rfl
@[simp] theorem State.setSeq_srcLo (q : Sequencer) : (s.setSeq q).srcLo = s.srcLo := rfl
@[simp] theorem State.setSeq_srcHi (q : Sequencer) : (s.setSeq q).srcHi = s.srcHi := rfl
@[simp] theorem State.setSeq_dstLo (q : Sequencer) : (s.setSeq q).dstLo = s.dstLo := rfl
@[simp] theorem State.setSeq_dstHi (q : Sequencer) : (s.setSeq q).dstHi = s.dstHi := rfl
@[simp] theorem State.setSeq_faddrLo (q : Sequencer) : (s.setSeq q).faddrLo = s.faddrLo := rfl
@[simp] theorem State.setSeq_faddrHi (q : Sequencer) : (s.setSeq q).faddrHi = s.faddrHi := rfl
@[simp] theorem State.setSeq_fold (q : Sequencer) : (s.setSeq q).fold = s.fold := rfl
@[simp] theorem State.setSeq_ring (q : Sequencer) : (s.setSeq q).ring = s.ring := rfl
@[simp] theorem State.setSeq_seq (q : Sequencer) : (s.setSeq q).seq = q := rfl
@[simp] theorem State.setSeq_mem (q : Sequencer) : (s.setSeq q).mem = s.mem := rfl
@[simp] theorem State.setSeq_pending (q : Sequencer) : (s.setSeq q).pending = s.pending := rfl
@[simp] theorem State.setSeq_readData (q : Sequencer) : (s.setSeq q).readData = s.readData := rfl
@[simp] theorem State.setSeq_racing (q : Sequencer) : (s.setSeq q).racing = s.racing := rfl
@[simp] theorem State.setSeq_draws (q : Sequencer) : (s.setSeq q).draws = s.draws := rfl

/-! ### setFaddr -/

@[simp] theorem State.setFaddr_params (hi lo : Word) : (s.setFaddr hi lo).params = s.params := rfl
@[simp] theorem State.setFaddr_cmd (hi lo : Word) : (s.setFaddr hi lo).cmd = s.cmd := rfl
@[simp] theorem State.setFaddr_status (hi lo : Word) : (s.setFaddr hi lo).status = s.status := rfl
@[simp] theorem State.setFaddr_ctrl (hi lo : Word) : (s.setFaddr hi lo).ctrl = s.ctrl := rfl
@[simp] theorem State.setFaddr_acc (hi lo : Word) : (s.setFaddr hi lo).acc = s.acc := rfl
@[simp] theorem State.setFaddr_lenLo (hi lo : Word) : (s.setFaddr hi lo).lenLo = s.lenLo := rfl
@[simp] theorem State.setFaddr_lenHi (hi lo : Word) : (s.setFaddr hi lo).lenHi = s.lenHi := rfl
@[simp] theorem State.setFaddr_srcLo (hi lo : Word) : (s.setFaddr hi lo).srcLo = s.srcLo := rfl
@[simp] theorem State.setFaddr_srcHi (hi lo : Word) : (s.setFaddr hi lo).srcHi = s.srcHi := rfl
@[simp] theorem State.setFaddr_dstLo (hi lo : Word) : (s.setFaddr hi lo).dstLo = s.dstLo := rfl
@[simp] theorem State.setFaddr_dstHi (hi lo : Word) : (s.setFaddr hi lo).dstHi = s.dstHi := rfl
@[simp] theorem State.setFaddr_faddrLo (hi lo : Word) : (s.setFaddr hi lo).faddrLo = lo := rfl
@[simp] theorem State.setFaddr_faddrHi (hi lo : Word) : (s.setFaddr hi lo).faddrHi = hi := rfl
@[simp] theorem State.setFaddr_fold (hi lo : Word) : (s.setFaddr hi lo).fold = s.fold := rfl
@[simp] theorem State.setFaddr_ring (hi lo : Word) : (s.setFaddr hi lo).ring = s.ring := rfl
@[simp] theorem State.setFaddr_seq (hi lo : Word) : (s.setFaddr hi lo).seq = s.seq := rfl
@[simp] theorem State.setFaddr_mem (hi lo : Word) : (s.setFaddr hi lo).mem = s.mem := rfl
@[simp] theorem State.setFaddr_pending (hi lo : Word) : (s.setFaddr hi lo).pending = s.pending := rfl
@[simp] theorem State.setFaddr_readData (hi lo : Word) : (s.setFaddr hi lo).readData = s.readData := rfl
@[simp] theorem State.setFaddr_racing (hi lo : Word) : (s.setFaddr hi lo).racing = s.racing := rfl
@[simp] theorem State.setFaddr_draws (hi lo : Word) : (s.setFaddr hi lo).draws = s.draws := rfl

end Sys2Proof.Machine
end

