-- ==== Sys2Proof/Laws/Memory.lean ====
section
/-! SUPPORT. Sparse data and host memory: reads after writes, and the canonical form every operation keeps. -/

namespace Sys2Proof.Machine

/-! ### Sparse data -/

section Sparse

variable {α : Type} {d : α}

/-- Keys strictly rising, no entry equal to the default. -/
def SparseOk (d : α) (xs : List (Nat × α)) : Prop :=
  xs.Pairwise (fun x y => x.1 < y.1) ∧ ∀ c ∈ xs, c.2 ≠ d

theorem SparseOk.nil : SparseOk d ([] : List (Nat × α)) := by simp [SparseOk]

theorem SparseOk.tail {x : Nat × α} {xs : List (Nat × α)} (h : SparseOk d (x :: xs)) : SparseOk d xs :=
  ⟨(List.pairwise_cons.1 h.1).2, fun c hc => h.2 c (List.mem_cons_of_mem _ hc)⟩

/-- Below its first key, sparse data reads as the default. -/
theorem sparseRead_lt {xs : List (Nat × α)} {k : Nat} (h : ∀ c ∈ xs, k < c.1) : sparseRead d xs k = d := by
  induction xs with
  | nil => rfl
  | cons x xs ih =>
    have hk : x.1 ≠ k := Nat.ne_of_gt (h x (by simp))
    simp [sparseRead, hk, ih fun c hc => h c (List.mem_cons_of_mem _ hc)]

variable [DecidableEq α]

/-- Every entry of the data after a write was there before, or is the one written. -/
theorem mem_sparseWrite {xs : List (Nat × α)} {k : Nat} {v : α} {c : Nat × α} (h : c ∈ sparseWrite d xs k v) :
    c ∈ xs ∨ (c = (k, v) ∧ v ≠ d) := by
  induction xs with
  | nil =>
    by_cases hv : v = d
    · simp [sparseWrite, hv] at h
    · simp [sparseWrite, hv] at h
      exact .inr ⟨h, hv⟩
  | cons x xs ih =>
    simp only [sparseWrite] at h
    split at h
    · split at h
      · exact .inl h
      · next hv =>
        rcases List.mem_cons.1 h with rfl | h
        · exact .inr ⟨rfl, hv⟩
        · exact .inl h
    · split at h
      · split at h
        · exact .inl (List.mem_cons_of_mem _ h)
        · next hv =>
          rcases List.mem_cons.1 h with rfl | h
          · exact .inr ⟨rfl, hv⟩
          · exact .inl (List.mem_cons_of_mem _ h)
      · rcases List.mem_cons.1 h with rfl | h
        · exact .inl (by simp)
        · rcases ih h with h | h
          · exact .inl (List.mem_cons_of_mem _ h)
          · exact .inr h

/-- A write keeps the canonical form. -/
theorem SparseOk.write {xs : List (Nat × α)} (h : SparseOk d xs) (k : Nat) (v : α) :
    SparseOk d (sparseWrite d xs k v) := by
  refine ⟨?_, fun c hc => ?_⟩
  · induction xs with
    | nil => by_cases hv : v = d <;> simp [sparseWrite, hv]
    | cons x xs ih =>
      have hx := List.pairwise_cons.1 h.1
      simp only [sparseWrite]
      split
      · next hlt =>
        split
        · exact h.1
        · refine List.pairwise_cons.2 ⟨fun c hc => ?_, h.1⟩
          rcases List.mem_cons.1 hc with rfl | hc
          · exact hlt
          · exact lt_trans hlt (hx.1 c hc)
      · next hlt =>
        split
        · next he =>
          split
          · exact hx.2
          · exact List.pairwise_cons.2 ⟨fun c hc => he ▸ hx.1 c hc, hx.2⟩
        · next he =>
          refine List.pairwise_cons.2 ⟨fun c hc => ?_, ih h.tail⟩
          rcases mem_sparseWrite hc with hc | ⟨rfl, -⟩
          · exact hx.1 c hc
          · exact lt_of_le_of_ne (not_lt.1 hlt) (Ne.symm he)
  · rcases mem_sparseWrite hc with hc | ⟨rfl, hv⟩
    · exact h.2 c hc
    · exact hv

/-- A read of the key just written gives the value written. -/
theorem sparseRead_write_same {xs : List (Nat × α)} (h : SparseOk d xs) (k : Nat) (v : α) :
    sparseRead d (sparseWrite d xs k v) k = v := by
  induction xs with
  | nil => by_cases hv : v = d <;> simp [sparseWrite, sparseRead, hv]
  | cons x xs ih =>
    have hx := List.pairwise_cons.1 h.1
    simp only [sparseWrite]
    split
    · next hlt =>
      by_cases hv : v = d
      · simp only [hv, if_true]
        refine sparseRead_lt fun c hc => ?_
        rcases List.mem_cons.1 hc with rfl | hc
        · exact hlt
        · exact lt_trans hlt (hx.1 c hc)
      · simp [hv, sparseRead]
    · split
      · next he =>
        by_cases hv : v = d
        · simp only [hv, if_true]
          exact sparseRead_lt fun c hc => he ▸ hx.1 c hc
        · simp [hv, sparseRead]
      · next he => simp [sparseRead, Ne.symm he, ih h.tail]

/-- A read of another key gives what it gave before the write. -/
theorem sparseRead_write_ne {xs : List (Nat × α)} {k j : Nat} (v : α) (hkj : j ≠ k) :
    sparseRead d (sparseWrite d xs k v) j = sparseRead d xs j := by
  induction xs with
  | nil => by_cases hv : v = d <;> simp [sparseWrite, sparseRead, hv, Ne.symm hkj]
  | cons x xs ih =>
    simp only [sparseWrite]
    split
    · by_cases hv : v = d <;> simp [hv, sparseRead, Ne.symm hkj]
    · split
      · next he => by_cases hv : v = d <;> simp [hv, sparseRead, ← he, Ne.symm hkj]
      · simp [sparseRead, ih]

end Sparse

/-! ### Host memory -/

theorem Memory.wf_iff {m : Memory} : Memory.wf m ↔ SparseOk 0#8 m ∧ ∀ c ∈ m, c.1 < 2 ^ 64 := by
  constructor
  · exact fun h => ⟨⟨h.1, fun c hc => (h.2 c hc).1⟩, fun c hc => (h.2 c hc).2⟩
  · exact fun h => ⟨h.1.1, fun c hc => ⟨h.1.2 c hc, h.2 c hc⟩⟩

/-- A byte write at an existing address keeps memory canonical. -/
theorem Memory.wf_memWrite {m : Memory} (h : Memory.wf m) {a : Nat} (ha : a < 2 ^ 64) (b : Byte) :
    Memory.wf (memWrite m a b) := by
  rw [Memory.wf_iff] at h ⊢
  refine ⟨h.1.write a b, fun c hc => ?_⟩
  rcases mem_sparseWrite hc with hc | ⟨rfl, -⟩
  · exact h.2 c hc
  · exact ha

@[simp] theorem memRead_nil (a : Nat) : memRead [] a = 0#8 := rfl

theorem memRead_memWrite_same {m : Memory} (h : Memory.wf m) (a : Nat) (b : Byte) :
    memRead (memWrite m a b) a = b :=
  sparseRead_write_same (Memory.wf_iff.1 h).1 a b

theorem memRead_memWrite_ne (m : Memory) {a x : Nat} (b : Byte) (h : x ≠ a) :
    memRead (memWrite m a b) x = memRead m x :=
  sparseRead_write_ne b h

@[simp] theorem readBytes_zero (m : Memory) (a : Nat) : readBytes m a 0 = [] := rfl

@[simp] theorem length_readBytes (m : Memory) (a n : Nat) : (readBytes m a n).length = n := by
  induction n generalizing a with
  | zero => rfl
  | succ n ih => simp [readBytes, ih]

/-- A range write inside the address space keeps memory canonical. -/
theorem Memory.wf_writeBytes {m : Memory} (h : Memory.wf m) {a : Nat} {bs : List Byte}
    (ha : a + bs.length ≤ 2 ^ 64) : Memory.wf (writeBytes m a bs) := by
  induction bs generalizing m a with
  | nil => exact h
  | cons b bs ih =>
    simp only [List.length_cons] at ha
    exact ih (Memory.wf_memWrite h (by omega) b) (by omega)

/-- A range write leaves every byte outside the range alone. -/
theorem memRead_writeBytes_outside (m : Memory) {a x : Nat} {bs : List Byte}
    (h : x < a ∨ a + bs.length ≤ x) : memRead (writeBytes m a bs) x = memRead m x := by
  induction bs generalizing m a with
  | nil => rfl
  | cons b bs ih =>
    simp only [List.length_cons] at h
    rw [writeBytes, ih _ (by omega), memRead_memWrite_ne _ _ (by omega)]

/-- A read of the range just written gives the bytes written. -/
theorem readBytes_writeBytes {m : Memory} (h : Memory.wf m) {a : Nat} {bs : List Byte}
    (ha : a + bs.length ≤ 2 ^ 64) : readBytes (writeBytes m a bs) a bs.length = bs := by
  induction bs generalizing m a with
  | nil => rfl
  | cons b bs ih =>
    simp only [List.length_cons] at ha
    have hm := Memory.wf_memWrite h (a := a) (by omega) b
    have h0 : memRead (writeBytes (memWrite m a b) (a + 1) bs) a = b := by
      rw [memRead_writeBytes_outside _ (.inl (Nat.lt_succ_self a)), memRead_memWrite_same h]
    have hs := ih hm (a := a + 1) (by omega)
    simp only [List.length_cons, readBytes, writeBytes, h0, hs]

/-- A scrambled range keeps memory canonical. -/
theorem Memory.wf_scramble {m : Memory} (h : Memory.wf m) (draw : Nat) {a n : Nat} (ha : a + n ≤ 2 ^ 64) :
    Memory.wf (scramble draw m a n) := by
  induction n generalizing m a with
  | zero => exact h
  | succ n ih => exact ih (Memory.wf_memWrite h (by omega) _) (by omega)

/-- Scrambling a range leaves every byte outside it alone. -/
theorem memRead_scramble_outside (draw : Nat) (m : Memory) {a n x : Nat} (h : x < a ∨ a + n ≤ x) :
    memRead (scramble draw m a n) x = memRead m x := by
  induction n generalizing m a with
  | zero => rfl
  | succ n ih => rw [scramble, ih _ (by omega), memRead_memWrite_ne _ _ (by omega)]

/-- Scrambling a range leaves a free value in each of its bytes. -/
theorem memRead_scramble_inside {m : Memory} (h : Memory.wf m) (draw : Nat) {a n x : Nat} (ha : a + n ≤ 2 ^ 64)
    (h1 : a ≤ x) (h2 : x < a + n) : memRead (scramble draw m a n) x = Config.resetByte draw x := by
  induction n generalizing m a with
  | zero => omega
  | succ n ih =>
    rw [scramble]
    by_cases hx : x = a
    · rw [hx, memRead_scramble_outside _ _ (.inl (Nat.lt_succ_self a)), memRead_memWrite_same h]
    · exact ih (Memory.wf_memWrite h (by omega) _) (by omega) (by omega) (by omega)

/-- Scrambling the write ranges keeps memory canonical, wherever they lie. -/
theorem Memory.wf_scrambleWrites {m : Memory} (h : Memory.wf m) (draw : Nat) {rs : List MemRange}
    (hb : ∀ r ∈ rs, r.base ≤ 2 ^ 64) : Memory.wf (scrambleWrites draw m rs) := by
  induction rs generalizing m with
  | nil => exact h
  | cons r rs ih =>
    refine ih ?_ fun q hq => hb q (List.mem_cons_of_mem _ hq)
    have := hb r List.mem_cons_self
    dsimp only
    split
    · exact Memory.wf_scramble h draw (by unfold existingBytes; omega)
    · exact h

/-- Scrambling the write ranges leaves every byte outside them alone. -/
theorem memRead_scrambleWrites_outside (draw : Nat) (m : Memory) {rs : List MemRange} {x : Nat}
    (h : ∀ r ∈ rs, r.kind = .write → x < r.base ∨ r.base + r.size ≤ x) :
    memRead (scrambleWrites draw m rs) x = memRead m x := by
  induction rs generalizing m with
  | nil => rfl
  | cons r rs ih =>
    refine (ih _ fun q hq => h q (List.mem_cons_of_mem _ hq)).trans ?_
    dsimp only
    split
    · next hk =>
      have := h r List.mem_cons_self hk
      exact memRead_scramble_outside draw m (by unfold existingBytes; omega)
    · rfl

end Sys2Proof.Machine
end

