-- ==== Sys2Proof/Laws/Ops.lean ====
section
/-! SUPPORT. What the shared operations of a command can do, said once: the end of a command, a fault, the checks, the frame,
the body of CRC32, and engine reads. -/

namespace Sys2Proof.Machine

/-! ### The end of a command and a fault -/

section Finish

variable (code : ResultCode) (t : Tier) (s : State)

@[simp] theorem finish_status : (finish code t s).status = statusAfter code t s.status := rfl
@[simp] theorem finish_seq : (finish code t s).seq = .idle := rfl
@[simp] theorem finish_params : (finish code t s).params = s.params := rfl
@[simp] theorem finish_cmd : (finish code t s).cmd = s.cmd := rfl
@[simp] theorem finish_ctrl : (finish code t s).ctrl = s.ctrl := rfl
@[simp] theorem finish_acc : (finish code t s).acc = s.acc := rfl
@[simp] theorem finish_lenLo : (finish code t s).lenLo = s.lenLo := rfl
@[simp] theorem finish_lenHi : (finish code t s).lenHi = s.lenHi := rfl
@[simp] theorem finish_srcLo : (finish code t s).srcLo = s.srcLo := rfl
@[simp] theorem finish_srcHi : (finish code t s).srcHi = s.srcHi := rfl
@[simp] theorem finish_dstLo : (finish code t s).dstLo = s.dstLo := rfl
@[simp] theorem finish_dstHi : (finish code t s).dstHi = s.dstHi := rfl
@[simp] theorem finish_faddrLo : (finish code t s).faddrLo = s.faddrLo := rfl
@[simp] theorem finish_faddrHi : (finish code t s).faddrHi = s.faddrHi := rfl
@[simp] theorem finish_fold : (finish code t s).fold = s.fold := rfl
@[simp] theorem finish_ring : (finish code t s).ring = s.ring := rfl
@[simp] theorem finish_mem : (finish code t s).mem = s.mem := rfl
@[simp] theorem finish_pending : (finish code t s).pending = s.pending := rfl
@[simp] theorem finish_readData : (finish code t s).readData = s.readData := rfl
@[simp] theorem finish_racing : (finish code t s).racing = s.racing := rfl
@[simp] theorem finish_draws : (finish code t s).draws = s.draws := rfl

end Finish

/-- A fault writes STATUS, the sequencer's state and, if it records an address, FADDR. -/
theorem raiseFault_eq (code : ResultCode) (info : Option Nat) (s : State) :
    raiseFault code info s =
      { s with
        status := statusAfter code .none s.status
        seq := .idle
        faddrLo := (info.map fun x => BitVec.ofNat 32 x).getD s.faddrLo
        faddrHi := (info.map fun x => BitVec.ofNat 32 (x / 2 ^ 32)).getD s.faddrHi } := by
  cases info <;> rfl

/-! ### The frame of a command -/

/-- Whatever the frame answers is a next state: a fault of the checks, or the body's state finished with OK. -/
theorem runCommand_cases (i : Instr) (body : State → State × Tier) (s : State) :
    (∃ f, check i s = some f ∧ runCommand i body s = .next (raiseFault f.code f.info s)) ∨
      (check i s = none ∧ runCommand i body s = .next (finish .ok (body s).2 (body s).1)) := by
  unfold runCommand
  cases h : check i s with
  | none => exact .inr ⟨rfl, rfl⟩
  | some f => exact .inl ⟨f, rfl, rfl⟩

theorem runCommand_ready {i : Instr} {body : State → State × Tier} {s : State} (h : check i s = none) :
    runCommand i body s = .next (finish .ok (body s).2 (body s).1) := by
  simp [runCommand, h]

theorem runCommand_raised {i : Instr} {body : State → State × Tier} {s : State} {f : Raised}
    (h : check i s = some f) : runCommand i body s = .next (raiseFault f.code f.info s) := by
  simp [runCommand, h]

/-- The body of each command, by the command. -/
def bodyOf (i : Instr) : State → State × Tier :=
  match i with
  | .nop => fun s => (s, .none)
  | .crc32Auto => fun s => crc32Body (fun c bs a => autoTier s.params (enables s) c bs a) s
  | .crc32Scalar => fun s => crc32Body (fun c bs _ => scalarTier (braidW s.params) c bs) s
  | .crc32Braid => fun s => crc32Body (fun c bs a => braidedTier (braidW s.params) (braidN s.params) c bs a) s
  | .crc32ChorbaS => fun s => crc32Body (fun c bs _ => chorbaSmallTier (braidW s.params) c bs) s
  | .crc32ChorbaL => fun s => crc32Body (fun c bs _ => chorbaLargeTier (braidW s.params) c bs) s
  | .crc32Simd => fun s => crc32Body (fun c bs a => simdTier (braidW s.params) c bs a) s
  | .foldInit => foldInitBody
  | .foldUpdate inj => foldUpdateBody inj
  | .foldCopy => foldCopyBody
  | .foldFinal => foldFinalBody
  | .foldSave => foldSaveBody
  | .foldLoad => foldLoadBody

/-- Every command is the frame around its body. -/
theorem exec_eq_runCommand (i : Instr) (s : State) : exec i s = runCommand i (bodyOf i) s := by
  cases i <;> simp only [exec, bodyOf, execNop, execCrc32Auto, execCrc32Scalar, execCrc32Braid, execCrc32ChorbaS,
    execCrc32ChorbaL, execCrc32Simd, execFoldInit, execFoldUpdate, execFoldCopy, execFoldFinal, execFoldSave,
    execFoldLoad, runCommand]

/-! ### The body of CRC32 -/

/-- The body of CRC32 writes ACC, and the ring when the large Chorba body ran. -/
theorem crc32Body_state (tierfn : Word → List Byte → Nat → Word × Tier) (s : State) :
    ∃ k, (crc32Body tierfn s).1 =
      { s with
        acc := (tierfn (s.acc ^^^ M32) (engineRead s 0 (srcOp s) (lenOp s)) (srcOp s)).1 ^^^ M32
        ring := k } := by
  by_cases h : (tierfn (s.acc ^^^ M32) (engineRead s 0 (srcOp s) (lenOp s)) (srcOp s)).2 = .chorbaL
  · exact ⟨s.draws, by simp [crc32Body, h, State.setRing, State.setAcc]⟩
  · exact ⟨s.ring, by simp [crc32Body, h, State.setAcc]⟩

/-- The tier code the body of CRC32 reports is its tier function's. -/
theorem crc32Body_tier (tierfn : Word → List Byte → Nat → Word × Tier) (s : State) :
    (crc32Body tierfn s).2 =
      (tierfn (s.acc ^^^ M32) (engineRead s 0 (srcOp s) (lenOp s)) (srcOp s)).2 := by
  simp [crc32Body]

/-! ### Engine reads -/

@[simp] theorem length_engineRead (s : State) (j a n : Nat) : (engineRead s j a n).length = n := by
  induction n generalizing j a with
  | zero => rfl
  | succ n ih => simp [engineRead, ih]

theorem engineByte_quiet {s : State} (h : s.racing = []) (j a : Nat) : engineByte s j a = memRead s.mem a := by
  simp [engineByte, racingValues, h]

/-- With no other agent writing, the engine reads what memory holds. -/
theorem engineRead_quiet {s : State} (h : s.racing = []) (j a n : Nat) :
    engineRead s j a n = readBytes s.mem a n := by
  induction n generalizing j a with
  | zero => rfl
  | succ n ih => simp [engineRead, readBytes, engineByte_quiet h, ih]

/-! ### The checks -/

/-- The lowest refused address of a range, when there is none: every byte is admitted. -/
theorem lowestRefused_none {p : Params} {k : AccessKind} {a n : Nat} :
    lowestRefused p k a n = none ↔ ∀ d < n, admitted p (a + d) k = true := by
  induction n generalizing a with
  | zero => simp [lowestRefused]
  | succ n ih =>
    by_cases h : admitted p a k
    · simp only [lowestRefused, h, if_true, ih]
      constructor
      · intro hd d hlt
        cases d with
        | zero => exact h
        | succ d => rw [← Nat.add_assoc, Nat.add_right_comm]; exact hd d (by omega)
      · intro hd d hlt
        have := hd (d + 1) (by omega)
        rwa [← Nat.add_assoc, Nat.add_right_comm] at this
    · simp only [lowestRefused, h, Bool.false_eq_true, if_false, reduceCtorEq, false_iff]
      exact fun hd => h (hd 0 (Nat.succ_pos n))

/-- The lowest refused address of a range lies in it, is refused, and every lower byte is admitted. -/
theorem lowestRefused_some {p : Params} {k : AccessKind} {a n x : Nat} (h : lowestRefused p k a n = some x) :
    a ≤ x ∧ x < a + n ∧ admitted p x k = false ∧ ∀ y, a ≤ y → y < x → admitted p y k = true := by
  induction n generalizing a with
  | zero => simp [lowestRefused] at h
  | succ n ih =>
    by_cases ha : admitted p a k
    · simp only [lowestRefused, ha, if_true] at h
      obtain ⟨h1, h2, h3, h4⟩ := ih h
      refine ⟨by omega, by omega, h3, fun y hy hyx => ?_⟩
      rcases Nat.eq_or_lt_of_le hy with rfl | hy
      · exact ha
      · exact h4 y hy hyx
    · simp only [lowestRefused, ha, Bool.false_eq_true, if_false, Option.some.injEq] at h
      subst h
      exact ⟨le_rfl, by omega, by simpa using ha, fun y h1 h2 => absurd h1 (by omega)⟩

end Sys2Proof.Machine
end

