-- ==== Sys2Proof/Laws/PerInstr.lean ====
section
/-! SUPPORT. Per command: its word is legal, and the decoder reads it back (30_encoding.md R106, R108). -/

namespace Sys2Proof.Laws.RoundTrip

/-- The command is well formed, its word is legal, and decodes to it. -/
def Statement (i : Instr) : Prop := i.wellFormed = true ∧ legal (encode i) = true ∧ decode (encode i) = .ok i

theorem nop : Statement .nop := ⟨rfl, by decide, rfl⟩
theorem crc32Auto : Statement .crc32Auto := ⟨rfl, by decide, rfl⟩
theorem crc32Scalar : Statement .crc32Scalar := ⟨rfl, by decide, rfl⟩
theorem crc32Braid : Statement .crc32Braid := ⟨rfl, by decide, rfl⟩
theorem crc32ChorbaS : Statement .crc32ChorbaS := ⟨rfl, by decide, rfl⟩
theorem crc32ChorbaL : Statement .crc32ChorbaL := ⟨rfl, by decide, rfl⟩
theorem crc32Simd : Statement .crc32Simd := ⟨rfl, by decide, rfl⟩
theorem foldInit : Statement .foldInit := ⟨rfl, by decide, rfl⟩
theorem foldUpdate (inj : Bool) : Statement (.foldUpdate inj) := by cases inj <;> exact ⟨rfl, by decide, rfl⟩
theorem foldCopy : Statement .foldCopy := ⟨rfl, by decide, rfl⟩
theorem foldFinal : Statement .foldFinal := ⟨rfl, by decide, rfl⟩
theorem foldSave : Statement .foldSave := ⟨rfl, by decide, rfl⟩
theorem foldLoad : Statement .foldLoad := ⟨rfl, by decide, rfl⟩

end Sys2Proof.Laws.RoundTrip
end

