-- ==== Sys2Proof/Tests/Slice0.lean ====
section
/-! SUPPORT. The model's own tests. Expected values are the spec's: the opcode map of 30_encoding.md R106, the tables of
41_scalar.md R201 and 42_braided.md R242, the vectors of 95_test_vectors.md, or a rule's own words. After them, one
witness for each statement that has hypotheses: a concrete case that meets them all. -/

open Sys2Proof Sys2Proof.Machine

namespace Sys2Proof.Tests

set_option Elab.async false

/-! ### Small states -/

/-- The state an outcome goes on with; the reset state where the machine stops. -/
def after : Host.Outcome State Fault Refusal → State
  | .next t => t
  | .fault _ => State.reset
  | .refused _ => State.reset

/-- Whether the machine goes on. -/
def goesOn : Host.Outcome State Fault Refusal → Bool
  | .next _ => true
  | .fault _ => false
  | .refused _ => false

theorem eq_next {o : Host.Outcome State Fault Refusal} (h : goesOn o = true) : o = .next (after o) := by
  cases o <;> simp_all [goesOn, after]

/-- Every command goes on, from every state. -/
theorem exec_next (i : Instr) (s : State) : exec i s = .next (after (exec i s)) := by
  apply eq_next
  rw [exec_eq_runCommand]
  unfold runCommand
  split <;> rfl

/-- The bytes i mod 256, the pattern of 95_test_vectors.md. -/
def pattern (n : Nat) : List Byte := (List.range n).map (BitVec.ofNat 8)

/-- "123456789" in ASCII. -/
def check9 : List Byte := [0x31, 0x32, 0x33, 0x34, 0x35, 0x36, 0x37, 0x38, 0x39]

/-- "0123456789abcdef" in ASCII. -/
def hex16 : List Byte :=
  [0x30, 0x31, 0x32, 0x33, 0x34, 0x35, 0x36, 0x37, 0x38, 0x39, 0x61, 0x62, 0x63, 0x64, 0x65, 0x66]

/-- The state after reset with the operands `src`, `dst`, `len`, the accumulator, the enables and the bytes at SRC. -/
def ready (src dst len : DWord) (acc ctrl : Word) (bs : List Byte) : State :=
  { State.reset with
    srcLo := src.setWidth 32, srcHi := (src >>> 32).setWidth 32, dstLo := dst.setWidth 32,
    dstHi := (dst >>> 32).setWidth 32, lenLo := len.setWidth 32, lenHi := (len >>> 32).setWidth 32,
    acc := acc, ctrl := ctrl, mem := writeBytes [] src.toNat bs }

/-- The state after reset with one pending event. -/
def served (e : HostEvent) : State := load [e] State.reset

/-- The state after the command. -/
def run (i : Instr) (s : State) : State := after (exec i s)

/-- The state after k events. -/
def steps : Nat → State → State
  | 0, s => s
  | k + 1, s => steps k (after (step s))

/-! ### Encoding (30_encoding.md R106, R107) -/

/-- The command words of R106, bit by bit: RSV, INJ, TIER, OP. -/
theorem test_decode_words :
    decode 0b00000000000000000000_0_000_00000000#32 = .ok .nop ∧
    decode 0b00000000000000000000_0_000_00000001#32 = .ok .crc32Auto ∧
    decode 0b00000000000000000000_0_001_00000001#32 = .ok .crc32Scalar ∧
    decode 0b00000000000000000000_0_010_00000001#32 = .ok .crc32Braid ∧
    decode 0b00000000000000000000_0_011_00000001#32 = .ok .crc32ChorbaS ∧
    decode 0b00000000000000000000_0_100_00000001#32 = .ok .crc32ChorbaL ∧
    decode 0b00000000000000000000_0_101_00000001#32 = .ok .crc32Simd ∧
    decode 0b00000000000000000000_0_000_00010000#32 = .ok .foldInit ∧
    decode 0b00000000000000000000_0_000_00010001#32 = .ok (.foldUpdate false) ∧
    decode 0b00000000000000000000_1_000_00010001#32 = .ok (.foldUpdate true) ∧
    decode 0b00000000000000000000_0_000_00010010#32 = .ok .foldCopy ∧
    decode 0b00000000000000000000_0_000_00010011#32 = .ok .foldFinal ∧
    decode 0b00000000000000000000_0_000_00010100#32 = .ok .foldSave ∧
    decode 0b00000000000000000000_0_000_00010101#32 = .ok .foldLoad := by decide

/-- The column "command word" of R106. -/
theorem test_encode_words :
    encode .nop = 0x00000000 ∧ encode .crc32Auto = 0x00000001 ∧ encode .crc32Scalar = 0x00000101 ∧
    encode .crc32Braid = 0x00000201 ∧ encode .crc32ChorbaS = 0x00000301 ∧ encode .crc32ChorbaL = 0x00000401 ∧
    encode .crc32Simd = 0x00000501 ∧ encode .foldInit = 0x00000010 ∧ encode (.foldUpdate false) = 0x00000011 ∧
    encode (.foldUpdate true) = 0x00000811 ∧ encode .foldCopy = 0x00000012 ∧ encode .foldFinal = 0x00000013 ∧
    encode .foldSave = 0x00000014 ∧ encode .foldLoad = 0x00000015 := by decide

/-- The illegal words of 95_test_vectors.md section 3.7, each with the case of R107 it falls under. -/
theorem test_reject_words :
    decode 0x00000002#32 = .error .reservedOp ∧ decode 0x00000016#32 = .error .reservedOp ∧
    decode 0x000000FF#32 = .error .reservedOp ∧ decode 0x00000601#32 = .error .reservedTier ∧
    decode 0x00000701#32 = .error .reservedTier ∧ decode 0x00000111#32 = .error .tierNotTaken ∧
    decode 0x00000812#32 = .error .injNotTaken ∧ decode 0x00000801#32 = .error .injNotTaken ∧
    decode 0x00001000#32 = .error .reservedBits ∧ decode 0x80000001#32 = .error .reservedBits := by decide

/-- The table word decoder: 32 bits, numbered as the opcode table numbers them, and no other length (R100). -/
theorem test_decode_table_word :
    decodeTableWord 32 0x811 = some (.foldUpdate true) ∧ decodeTableWord 32 0x2 = none ∧
    decodeTableWord 32 0x100000001 = none ∧ decodeTableWord 8 0x1 = none ∧ decodeTableWord 16 0x101 = none ∧
    decodeTableWord 64 0x1 = none := by decide

/-! ### WellFormed -/

/-- A register block that passes the top of the address space. -/
theorem test_engine_base_too_high : Params.wellFormed { engineBase := 0xFFFFFFFFFFFFFFC1#64 } = false := by decide

/-- A refused region whose end is below its start. -/
theorem test_region_reversed : Params.wellFormed { refused := [⟨2, 1, true, true⟩] } = false := by decide

/-- A refused region beyond the address space. -/
theorem test_region_beyond : Params.wellFormed { refused := [⟨0, 2 ^ 64 + 1, true, false⟩] } = false := by decide

/-- The default instance, and one at the very top of the address space. -/
theorem test_params_well_formed :
    Params.wellFormed {} = true ∧ Params.wellFormed { engineBase := 0xFFFFFFFFFFFFFFC0#64 } = true := by decide

/-- No term of Instr is ill formed: what R107 makes illegal has no term, and the decoder refuses its word. -/
theorem test_instr_well_formed : Instr.wellFormed (.foldUpdate true) = true ∧ Instr.wellFormed .crc32Simd = true := by
  decide

/-! ### The scalar family (41_scalar.md R201, R202, R205, R209; 95_test_vectors.md section 2) -/

theorem test_table_T_0 :
    (List.range 64).map (fun i => tableT (BitVec.ofNat 8 (i + 0))) =
      [0x00000000#32, 0x77073096#32, 0xEE0E612C#32, 0x990951BA#32, 0x076DC419#32, 0x706AF48F#32, 0xE963A535#32, 0x9E6495A3#32,
        0x0EDB8832#32, 0x79DCB8A4#32, 0xE0D5E91E#32, 0x97D2D988#32, 0x09B64C2B#32, 0x7EB17CBD#32, 0xE7B82D07#32, 0x90BF1D91#32,
        0x1DB71064#32, 0x6AB020F2#32, 0xF3B97148#32, 0x84BE41DE#32, 0x1ADAD47D#32, 0x6DDDE4EB#32, 0xF4D4B551#32, 0x83D385C7#32,
        0x136C9856#32, 0x646BA8C0#32, 0xFD62F97A#32, 0x8A65C9EC#32, 0x14015C4F#32, 0x63066CD9#32, 0xFA0F3D63#32, 0x8D080DF5#32] ++
      [0x3B6E20C8#32, 0x4C69105E#32, 0xD56041E4#32, 0xA2677172#32, 0x3C03E4D1#32, 0x4B04D447#32, 0xD20D85FD#32, 0xA50AB56B#32,
        0x35B5A8FA#32, 0x42B2986C#32, 0xDBBBC9D6#32, 0xACBCF940#32, 0x32D86CE3#32, 0x45DF5C75#32, 0xDCD60DCF#32, 0xABD13D59#32,
        0x26D930AC#32, 0x51DE003A#32, 0xC8D75180#32, 0xBFD06116#32, 0x21B4F4B5#32, 0x56B3C423#32, 0xCFBA9599#32, 0xB8BDA50F#32,
        0x2802B89E#32, 0x5F058808#32, 0xC60CD9B2#32, 0xB10BE924#32, 0x2F6F7C87#32, 0x58684C11#32, 0xC1611DAB#32, 0xB6662D3D#32] := by
  decide +kernel

theorem test_table_T_1 :
    (List.range 64).map (fun i => tableT (BitVec.ofNat 8 (i + 64))) =
      [0x76DC4190#32, 0x01DB7106#32, 0x98D220BC#32, 0xEFD5102A#32, 0x71B18589#32, 0x06B6B51F#32, 0x9FBFE4A5#32, 0xE8B8D433#32,
        0x7807C9A2#32, 0x0F00F934#32, 0x9609A88E#32, 0xE10E9818#32, 0x7F6A0DBB#32, 0x086D3D2D#32, 0x91646C97#32, 0xE6635C01#32,
        0x6B6B51F4#32, 0x1C6C6162#32, 0x856530D8#32, 0xF262004E#32, 0x6C0695ED#32, 0x1B01A57B#32, 0x8208F4C1#32, 0xF50FC457#32,
        0x65B0D9C6#32, 0x12B7E950#32, 0x8BBEB8EA#32, 0xFCB9887C#32, 0x62DD1DDF#32, 0x15DA2D49#32, 0x8CD37CF3#32, 0xFBD44C65#32] ++
      [0x4DB26158#32, 0x3AB551CE#32, 0xA3BC0074#32, 0xD4BB30E2#32, 0x4ADFA541#32, 0x3DD895D7#32, 0xA4D1C46D#32, 0xD3D6F4FB#32,
        0x4369E96A#32, 0x346ED9FC#32, 0xAD678846#32, 0xDA60B8D0#32, 0x44042D73#32, 0x33031DE5#32, 0xAA0A4C5F#32, 0xDD0D7CC9#32,
        0x5005713C#32, 0x270241AA#32, 0xBE0B1010#32, 0xC90C2086#32, 0x5768B525#32, 0x206F85B3#32, 0xB966D409#32, 0xCE61E49F#32,
        0x5EDEF90E#32, 0x29D9C998#32, 0xB0D09822#32, 0xC7D7A8B4#32, 0x59B33D17#32, 0x2EB40D81#32, 0xB7BD5C3B#32, 0xC0BA6CAD#32] := by
  decide +kernel

theorem test_table_T_2 :
    (List.range 64).map (fun i => tableT (BitVec.ofNat 8 (i + 128))) =
      [0xEDB88320#32, 0x9ABFB3B6#32, 0x03B6E20C#32, 0x74B1D29A#32, 0xEAD54739#32, 0x9DD277AF#32, 0x04DB2615#32, 0x73DC1683#32,
        0xE3630B12#32, 0x94643B84#32, 0x0D6D6A3E#32, 0x7A6A5AA8#32, 0xE40ECF0B#32, 0x9309FF9D#32, 0x0A00AE27#32, 0x7D079EB1#32,
        0xF00F9344#32, 0x8708A3D2#32, 0x1E01F268#32, 0x6906C2FE#32, 0xF762575D#32, 0x806567CB#32, 0x196C3671#32, 0x6E6B06E7#32,
        0xFED41B76#32, 0x89D32BE0#32, 0x10DA7A5A#32, 0x67DD4ACC#32, 0xF9B9DF6F#32, 0x8EBEEFF9#32, 0x17B7BE43#32, 0x60B08ED5#32] ++
      [0xD6D6A3E8#32, 0xA1D1937E#32, 0x38D8C2C4#32, 0x4FDFF252#32, 0xD1BB67F1#32, 0xA6BC5767#32, 0x3FB506DD#32, 0x48B2364B#32,
        0xD80D2BDA#32, 0xAF0A1B4C#32, 0x36034AF6#32, 0x41047A60#32, 0xDF60EFC3#32, 0xA867DF55#32, 0x316E8EEF#32, 0x4669BE79#32,
        0xCB61B38C#32, 0xBC66831A#32, 0x256FD2A0#32, 0x5268E236#32, 0xCC0C7795#32, 0xBB0B4703#32, 0x220216B9#32, 0x5505262F#32,
        0xC5BA3BBE#32, 0xB2BD0B28#32, 0x2BB45A92#32, 0x5CB36A04#32, 0xC2D7FFA7#32, 0xB5D0CF31#32, 0x2CD99E8B#32, 0x5BDEAE1D#32] := by
  decide +kernel

theorem test_table_T_3 :
    (List.range 64).map (fun i => tableT (BitVec.ofNat 8 (i + 192))) =
      [0x9B64C2B0#32, 0xEC63F226#32, 0x756AA39C#32, 0x026D930A#32, 0x9C0906A9#32, 0xEB0E363F#32, 0x72076785#32, 0x05005713#32,
        0x95BF4A82#32, 0xE2B87A14#32, 0x7BB12BAE#32, 0x0CB61B38#32, 0x92D28E9B#32, 0xE5D5BE0D#32, 0x7CDCEFB7#32, 0x0BDBDF21#32,
        0x86D3D2D4#32, 0xF1D4E242#32, 0x68DDB3F8#32, 0x1FDA836E#32, 0x81BE16CD#32, 0xF6B9265B#32, 0x6FB077E1#32, 0x18B74777#32,
        0x88085AE6#32, 0xFF0F6A70#32, 0x66063BCA#32, 0x11010B5C#32, 0x8F659EFF#32, 0xF862AE69#32, 0x616BFFD3#32, 0x166CCF45#32] ++
      [0xA00AE278#32, 0xD70DD2EE#32, 0x4E048354#32, 0x3903B3C2#32, 0xA7672661#32, 0xD06016F7#32, 0x4969474D#32, 0x3E6E77DB#32,
        0xAED16A4A#32, 0xD9D65ADC#32, 0x40DF0B66#32, 0x37D83BF0#32, 0xA9BCAE53#32, 0xDEBB9EC5#32, 0x47B2CF7F#32, 0x30B5FFE9#32,
        0xBDBDF21C#32, 0xCABAC28A#32, 0x53B39330#32, 0x24B4A3A6#32, 0xBAD03605#32, 0xCDD70693#32, 0x54DE5729#32, 0x23D967BF#32,
        0xB3667A2E#32, 0xC4614AB8#32, 0x5D681B02#32, 0x2A6F2B94#32, 0xB40BBE37#32, 0xC30C8EA1#32, 0x5A05DF1B#32, 0x2D02EF8D#32] := by
  decide +kernel

theorem test_byte_step :
    byteStep 0 0x00 = 0 ∧ byteStep 0 0x01 = 0x77073096 ∧ byteStep 0 0x80 = 0xEDB88320 ∧
    byteStep 0xFFFFFFFF 0x00 = 0x2DFD1072 ∧ byteStep 0xFFFFFFFF 0x31 = 0x7C231048 ∧
    byteStep 0x12345678 0xAB = 0x1FC8B738 := by decide +kernel

theorem test_crc_word :
    crcWord 8 (0xFFFFFFFF ^^^ 0x3837363534333231#64) = 0x651F2550 ∧
    crcWord 4 (0xFFFFFFFF ^^^ 0x34333231#64) = 0x641C1F5C ∧ crcWord 8 0 = 0 ∧ crcWord 8 1 = 0xCCAA009E ∧
    crcWord 8 0x8000000000000000 = 0xEDB88320 := by decide +kernel

theorem test_crc32_vectors :
    crc32 0 [] = 0 ∧ crc32 0 [0x61] = 0xE8B7BE43 ∧ crc32 0 [0x61, 0x62, 0x63] = 0x352441C2 ∧
    crc32 0 check9 = 0xCBF43926 ∧ crc32 0 (zeros 32) = 0x190A55AD ∧ crc32 0 (List.replicate 32 0xFF) = 0xFF6CAB0B ∧
    crc32 0 hex16 = 0x68C4F033 ∧
    crc32 0xCBF43926 check9 = 0x4B837AE4 := by decide +kernel

/-- Both word widths, on a length that is no multiple of either. -/
theorem test_scalar_tier :
    scalarTier 8 0xFFFFFFFF check9 = (0x340BC6D9, .scalar) ∧ scalarTier 4 0xFFFFFFFF check9 = (0x340BC6D9, .scalar) := by
  decide +kernel

/-! ### The braided family (42_braided.md R230, R241; 95_test_vectors.md section 3.1) -/

theorem test_braid_tables :
    braidTable 8 5 0 0x01 = 0xAF449247 ∧ braidTable 8 5 7 0x01 = 0x36F290F3 ∧ braidTable 8 5 0 0x80 = 0xCAFC06F4 ∧
    braidTable 8 5 3 0x5A = 0x378BAD09 ∧ braidTable 8 5 7 0xFF = 0xF4377108 ∧ braidTable 4 5 0 0x01 = 0x65673B46 ∧
    braidTable 4 5 3 0x01 = 0x87A6CB43 ∧ braidTable 4 5 3 0xFF = 0x18BA364E := by decide +kernel

/-- R241: the lanes after one super-block, and the combination over the next. -/
theorem test_braid_intermediates :
    laneRound 8 5 [0xFFFFFFFF, 0, 0, 0, 0] (pattern 40) =
      [0xE61F0392, 0xD1005E43, 0xB215FEE2, 0x9319617D, 0x743EBFA0] ∧
    combine 8 0 [0xE61F0392, 0xD1005E43, 0xB215FEE2, 0x9319617D, 0x743EBFA0] ((pattern 80).drop 40) = 0x35D93C1E := by
  decide +kernel

theorem test_braided_tier :
    braidedTier 8 5 0xFFFFFFFF (pattern 46) 0 = (0x83FBC6CB, .scalar) ∧
    braidedTier 8 5 0xFFFFFFFF (pattern 47) 0 = (0xD0E3ED31, .braid) ∧
    braidedTier 8 5 0xFFFFFFFF (pattern 47) 3 = (0xD0E3ED31, .braid) ∧
    braidedTier 8 5 0xFFFFFFFF (pattern 100) 5 = (0xA736CD0A, .braid) := by decide +kernel

/-! ### The Chorba family (43_chorba.md R262 to R273; 95_test_vectors.md sections 3.2, 3.3) -/

theorem test_spread :
    spread 1 = ⟨0x0080000000020000, 0x0000000000080000, 0x0000100000000000, 0⟩ ∧
    spread 0x8000000000000000 = ⟨0, 0x0040000000010000, 0x0000000000040000, 0x0000080000000000⟩ := by decide +kernel

theorem test_small_iter :
    smallLoop 1 ⟨0xFFFFFFFF, 0, 0, 0, 0⟩ (pattern 32) =
      (⟨0xE657F28EEC65A328, 0xED9441FE4CF18488, 0xBE6E75A45D34C03F, 0xC69EB629FECBB7FD, 0x00000A9226FE57C8⟩, []) := by
  decide +kernel

theorem test_chorba_small_tier :
    chorbaSmallTier 8 0xFFFFFFFF (pattern 71) = (0xA7511C8E, .scalar) ∧
    chorbaSmallTier 8 0xFFFFFFFF (pattern 72) = (0xE21F2B08, .chorbaS) ∧
    chorbaSmallTier 8 0xFFFFFFFF (pattern 103) = (0x4FFC8198, .chorbaS) ∧
    chorbaSmallTier 4 0xFFFFFFFF (pattern 104) = (0x2D4D130C, .chorbaS) := by decide +kernel

/-- R265: J is the set of the bit positions of R = 0x3DBB3B41. -/
theorem test_chorba_terms : chorbaTerms = (List.range 32).filter fun j => (0x3DBB3B41#32).getLsbD j := by decide +kernel

theorem test_push :
    pushNear chorbaTerms 1 = 0x05B9BB7800000000 ∧ pushFar chorbaTerms 1 = 1 ∧
    pushNear chorbaTerms 0x8000000000000000 = 0 ∧ pushFar chorbaTerms 0x8000000000000000 = 0x82DCDDBC00000000 := by
  decide +kernel

/-- The large algorithm with a short lag, whose term set is that of x^(64·3) mod P, in two blocks and over the ring's
wrap, gives the checksum (R274: its result is the reference's). -/
theorem test_chorba_large_short_lag :
    chorbaLarge 3 40 [2, 3, 6, 8, 10, 11, 14, 15, 16, 19, 20, 21, 23, 24, 26, 30, 31] 8 0xFFFFFFFF (pattern 320) =
      (0x7D7950E9, .chorbaL) := by decide +kernel

/-! ### The fold family (44_simd_fold.md R311 to R320; 95_test_vectors.md section 3.4) -/

theorem test_fold4 :
    fold4 1 = 0x154442BD4 ∧ fold4 0x10000000000000000 = 0x1C6E41596 ∧
    fold4 0xFFFFFFFFFFFFFFFFFFFFFFFFFFFFFFFF = 0x719FEA3E00000000719FEA3E ∧
    fold4 0x0123456789ABCDEFFEDCBA9876543210 = 0xCCBD7CD0ABB0DAD73258F352 := by decide +kernel

/-- The window W1. -/
def windowW1 : List Byte :=
  zeros 48 ++ [0xcf, 0xce, 0xcd, 0xcc, 0x34, 0x35, 0x36, 0x37, 0x38, 0x39, 0x61, 0x62, 0x63, 0x64, 0x65, 0x66]

theorem test_window_W1 :
    canonUpdate (zeros 64) hex16 0 0xFFFFFFFF = windowW1 ∧ canonUpdate (zeros 64) hex16 5 0xFFFFFFFF = windowW1 ∧
    crcRaw 0 windowW1 = 0x973B0FCC := by decide +kernel

theorem test_window_W2 : wshift windowW1 [0x78, 0x79, 0x7a] = windowW1.drop 3 ++ [0x78, 0x79, 0x7a] := by decide +kernel

theorem test_window_W3 :
    leadBytes 0x1005 20 = 11 ∧
    canonUpdate (zeros 64) ((pattern 21).drop 1) 0x1005 0 = zeros 44 ++ (pattern 21).drop 1 ∧
    crcRaw 0 (zeros 44 ++ (pattern 21).drop 1) = 0x585C4475 := by decide +kernel

theorem test_window_W4 :
    canonUpdate (zeros 64) (pattern 80) 0 0xFFFFFFFF =
      (pattern 64).drop 16 ++
        [0xbc, 0x06, 0xf8, 0x9e, 0x95, 0x2f, 0x02, 0xae, 0x5c, 0x5d, 0x8d, 0x46, 0x4c, 0x4d, 0x4e, 0x4f] := by
  decide +kernel

theorem test_simd_tier :
    simdTier 8 0xFFFFFFFF (pattern 15) 0 = (0x5F9398A1, .scalar) ∧
    simdTier 8 0xFFFFFFFF (pattern 16) 5 = (0x31311D77, .simd) ∧
    simdTier 8 0xFFFFFFFF (pattern 17) 3 = (0xD3E7C5E6, .simd) ∧
    simdTier 8 0xFFFFFFFF (pattern 100) 7 = (0xA736CD0A, .simd) := by decide +kernel

/-- R318: a relational window reduces to the register asked for, whatever its free bytes. -/
theorem test_relational_window :
    crcRaw 0 (relationalWindow 0x123456789ABCDEF0#480 0xCBF43926) = 0xCBF43926 ∧
    crcRaw 0 (relationalWindow 0 0) = 0 := by decide +kernel

/-! ### The commands -/

/-- R152's worked example, through the step. -/
theorem test_nop : (after (step (served (issue .nop)))).status = 0x00000001 := by decide +kernel

/-- Program P1. -/
theorem test_auto_check_value :
    let t := run .crc32Auto (ready 0x1000 0 9 0 7 check9)
    t.acc = 0xCBF43926 ∧ t.status = 0x00001001 := by decide +kernel

/-- R161: 88 bytes from 1 past a boundary go to small Chorba, 73 bytes there to the braided tier, 256 (of zeros) to
SIMD. -/
theorem test_auto_tiers :
    (run .crc32Auto (ready 0x2001 0 88 0 7 (pattern 88))).status = 0x00003001 ∧
    (run .crc32Auto (ready 0x2001 0 73 0 7 (pattern 73))).status = 0x00002001 ∧
    (run .crc32Auto (ready 0x2000 0 256 0 7 [])).status = 0x00005001 := by decide +kernel

/-- Program P2, line 4. -/
theorem test_scalar :
    let t := run .crc32Scalar (ready 0x1000 0 4 0 0 check9)
    t.acc = 0x9BE3E0A3 ∧ t.status = 0x00001001 := by decide +kernel

/-- Section 3.1: 100 bytes, public form. -/
theorem test_braid :
    let t := run .crc32Braid (ready 0x2005 0 100 0 7 (pattern 100))
    t.acc = 0x58C932F5 ∧ t.status = 0x00002001 := by decide +kernel

/-- Section 3.2: 104 bytes, public form. -/
theorem test_chorba_s :
    let t := run .crc32ChorbaS (ready 0x2000 0 104 0 7 (pattern 104))
    t.acc = 0xD2B2ECF3 ∧ t.status = 0x00003001 := by decide +kernel

theorem test_chorba_l :
    let t := run .crc32ChorbaL (ready 0x2000 0 104 0 7 (pattern 104))
    t.acc = 0xD2B2ECF3 ∧ t.status = 0x00003001 := by decide +kernel

/-- Section 3.4: 100 bytes from 7 past a boundary. -/
theorem test_simd :
    let t := run .crc32Simd (ready 0x2007 0 100 0 7 (pattern 100))
    t.acc = 0x58C932F5 ∧ t.status = 0x00005001 := by decide +kernel

/-- A source that ends at 2^64 is legal, one that passes it is not. -/
theorem test_top_of_memory :
    (run .crc32Auto (ready 0xFFFFFFFFFFFFFFFF 0 1 0 7 [])).acc = 0xD202EF8D ∧
    (run .crc32Auto (ready 0xFFFFFFFFFFFFFFFF 0 2 0 7 [])).status = 0x00000131 := by decide +kernel

/-- FOLD_INIT clears the lanes; with SIMD_EN = 0 it leaves them and ends with E_UNAVAIL. -/
theorem test_fold_init :
    let f : Fold := ⟨1, 2, 3, 4⟩
    (run .foldInit { State.reset with fold := f }).fold = ⟨0, 0, 0, 0⟩ ∧
    (run .foldInit { State.reset with fold := f, ctrl := 3 }).fold = f ∧
    (run .foldInit { State.reset with fold := f, ctrl := 3 }).status = 0x00000121 := by decide +kernel

/-- Section 3.5: the seeded update, and the seed that is too short. -/
theorem test_fold_update :
    serFold (run (.foldUpdate true) (ready 0x1000 0 16 0 7 hex16)).fold = windowW1 ∧
    (run (.foldUpdate true) (ready 0x1000 0 16 0 7 hex16)).status = 0x00005001 ∧
    (run (.foldUpdate true) (ready 0x1000 0 15 0 7 hex16)).status = 0x00000141 ∧
    (run (.foldUpdate true) (ready 0x1000 0 15 0xFFFFFFFF 7 hex16)).status = 0x00005001 ∧
    (run (.foldUpdate true) (ready 0x1000 0 0 0x12345678 7 [])).status = 0x00000141 := by decide +kernel

/-- Section 3.5: ranges that touch are copied, ranges that share a byte are not. -/
theorem test_fold_copy :
    readBytes (run .foldCopy (ready 0x100 0x105 5 0 7 check9)).mem 0x105 5 = check9.take 5 ∧
    (run .foldCopy (ready 0x100 0x105 5 0 7 check9)).status = 0x00005001 ∧
    (run .foldCopy (ready 0x100 0x104 5 0 7 check9)).status = 0x00000151 ∧
    (run .foldCopy (ready 0x100 0x100 0 0 7 check9)).status = 0x00005001 := by decide +kernel

/-- Section 3.5: FOLD_FINAL after reset, and after W1. -/
theorem test_fold_final :
    (run .foldFinal State.reset).acc = 0xFFFFFFFF ∧ (run .foldFinal State.reset).status = 0x00000001 ∧
    (run .foldFinal { State.reset with fold := deserFold windowW1 }).acc = 0x68C4F033 := by decide +kernel

/-- FOLD_SAVE lays the lanes out little-endian, L0 first; one byte past the last legal address it ends with E_RANGE. -/
theorem test_fold_save :
    let s : State := { ready 0 0x3000 0 0 7 [] with fold := ⟨0x0102, 0, 0, 0x80000000000000000000000000000000⟩ }
    (memRead (run .foldSave s).mem 0x3000, memRead (run .foldSave s).mem 0x3001,
      memRead (run .foldSave s).mem 0x303F) = (0x02, 0x01, 0x80) ∧
    (run .foldSave (ready 0 0xFFFFFFFFFFFFFFC1 0 0 7 [])).status = 0x00000131 := by decide +kernel

/-- Program P5, line 2: the standard image S_STD reduces to 0xFFFFFFFF. -/
theorem test_fold_load :
    let t := run .foldLoad (ready 0x6000 0 0 0 7 (zeros 60 ++ [0x62, 0xf5, 0x26, 0x92]))
    reduceFold t.fold = 0xFFFFFFFF ∧ t.status = 0x00000001 := by decide +kernel

/-! ### Registers, faults, events (95_test_vectors.md section 3.7; 10_state.md; 20_memory.md; 70_reset_and_hazards.md) -/

/-- The CAP word: the default, BRAID_W = 4, and an instance with only the braided tier. -/
theorem test_cap :
    capWord {} = 0x0000050F ∧ capWord { braidW := .w4 } = 0x00000507 ∧
    capWord { capChorba := false, capClmul := false } = 0x00000509 := by decide +kernel

/-- CTRL takes only enables that are built in. -/
theorem test_ctrl_legal_value :
    (after (step (served (wr .ctrl 5)))).ctrl = 5 ∧ (after (step (served (wr .ctrl 0xFFFFFFFF)))).ctrl = 7 ∧
    (after (step { served (wr .ctrl 7) with params := { capChorba := false, capClmul := false } })).ctrl = 1 := by
  decide +kernel

/-- Section 3.7, the last rows: ERR after an illegal word, NOP, and two writes to STATUS. -/
theorem test_sticky_err :
    let s := load [wr .cmd 2, issue .nop, wr .status 0xFFFFFEFF, clrerr] State.reset
    (steps 1 s).status = 0x00000111 ∧ (steps 2 s).status = 0x00000101 ∧ (steps 3 s).status = 0x00000101 ∧
    (steps 4 s).status = 0x00000001 := by decide +kernel

/-- Section 3.7: a refused region gives E_BUS and its lowest address; so does the register block. -/
theorem test_bus_fault :
    let s : State := { ready 0x1C0 0 0x40 0 7 [] with params := { refused := [⟨0x1F0, 0x200, true, true⟩] } }
    (run .crc32Auto s).status = 0x00000161 ∧ (run .crc32Auto s).faddrLo = 0x1F0 ∧ (run .crc32Auto s).faddrHi = 0 ∧
    (run .crc32Scalar (ready 0xEFFFFFFF 0 2 0 7 [])).faddrLo = 0xF0000000 := by decide +kernel

/-- R44: a byte-wide or misaligned register access has no meaning; a reserved slot reads 0. -/
theorem test_register_access :
    goesOn (step (served (.read 0x10 1))) = false ∧ goesOn (step (served (.write 0x12 4 0))) = false ∧
    (after (step (served (.read 0x34 4)))).readData = some 0 := by decide +kernel

/-- R410: reset from a state with everything written. -/
theorem test_reset :
    let s : State := { served .reset with status := 0x101, acc := 5, ctrl := 0, fold := ⟨1, 2, 3, 4⟩, faddrHi := 9 }
    let t := after (step s)
    (t.status, t.acc, t.ctrl, t.faddrHi) = (0, 0, 7, 0) ∧ t.fold = ⟨0, 0, 0, 0⟩ := by decide +kernel

/-- R85: another agent's write in flight is refused when HOST_CONCURRENT is false, and has landed after the command when it
is true. -/
theorem test_racing :
    goesOn (step (served (.commandRacing 0x101 [(0x1000, 7)]))) = false ∧
    memRead (after (step { served (.commandRacing 0x101 [(0x1000, 7)]) with
      params := { hostConcurrent := true } })).mem 0x1000 = 7 := by decide +kernel

/-- The placed command word is the next thing the machine does; bits of any other length, and a value that 32 bits do not
hold, start no command (R100). -/
theorem test_with_fetch_word :
    (after (step (State.reset.withFetchWord 32 0x13))).acc = 0xFFFFFFFF ∧
    (∀ nbits ∈ [16, 31, 33, 39, 64], goesOn (step (State.reset.withFetchWord nbits 0x13)) = false) ∧
    goesOn (step (State.reset.withFetchWord 32 0x100000013)) = false := by decide +kernel

/-! ### Witnesses: for each statement with hypotheses, a case that meets them all -/

/-- Every length beside 32 bits, a value that 32 bits do not hold, and a word that decodes. -/
theorem witness_CommandWordHasExactly32Bits :
    (∃ (nbits w : Nat), nbits = 31 ∧ (nbits ≠ 32 ∨ 2 ^ 32 ≤ w)) ∧ (∃ (nbits w : Nat), nbits = 33 ∧ (nbits ≠ 32 ∨ 2 ^ 32 ≤ w)) ∧
    (∃ (nbits w : Nat), nbits = 32 ∧ (nbits ≠ 32 ∨ 2 ^ 32 ≤ w)) ∧
    (∃ (w : Nat) (i : Instr), decodeTableWord 32 w = some i) :=
  ⟨⟨31, 0, by decide⟩, ⟨33, 0, by decide⟩, ⟨32, 2 ^ 32, by decide⟩, 0x811, .foldUpdate true, by decide⟩

theorem witness_IllegalWordEndsWithEIllegal :
    ∃ (s : State) (w : Word) (rest : List HostEvent),
      s.pending = .write 0x00 4 w :: rest ∧ s.seq = .idle ∧ legal w = false :=
  ⟨served (wr .cmd 0x601), 0x601, [], by decide⟩

theorem witness_ResetEventGivesEveryInstanceItsValues :
    ∃ (s : State) (rest : List HostEvent), s.pending = .reset :: rest ∧ s.acc ≠ 0 ∧ s.params = {} :=
  ⟨{ served .reset with acc := 5 }, [], by decide⟩

/-- A state with STATUS and memory written that meets the invariant, and its step. -/
theorem witness_StepKeepsTheInvariant : ∃ s t : State, Inv s ∧ s.mem ≠ [] ∧ step s = .next t :=
  ⟨{ load [issue .foldSave] (ready 0x1000 0x2000 9 0 7 check9) with status := 0x00000161 },
    _, ⟨by decide +kernel, by unfold statusLegal; decide, by decide, rfl, rfl⟩, by decide +kernel,
    eq_next (by decide +kernel)⟩

theorem witness_StepRunsTheDecodedCommand :
    ∃ (s : State) (w : Word) (i : Instr) (rest : List HostEvent),
      s.pending = .write 0x00 4 w :: rest ∧ s.seq = .idle ∧ decode w = .ok i :=
  ⟨served (wr .cmd 0x811), 0x811, .foldUpdate true, [], by decide⟩

/-- A reset during a FOLD_SAVE, an address outside its write range, and a reset during an illegal word. -/
theorem witness_ResetDuringACommandLeavesOtherBytes :
    (∃ (s : State) (w : Word) (rest : List HostEvent) (x : Nat),
      s.pending = .commandReset w :: rest ∧ s.seq = .idle ∧ decode w = .ok .foldSave ∧
      (∀ i, decode w = .ok i → ∀ r ∈ ranges i s, r.kind = .write → x < r.base ∨ r.base + r.size ≤ x)) ∧
    (∃ (s : State) (w : Word) (rest : List HostEvent),
      s.pending = .commandReset w :: rest ∧ s.seq = .idle ∧ legal w = false) := by
  refine ⟨⟨served (.commandReset 0x14), 0x14, [], 64, rfl, rfl, by decide, fun i hi => ?_⟩,
    ⟨served (.commandReset 2), 2, [], by decide⟩⟩
  cases (Except.ok.inj (hi.symm.trans (by decide : decode 0x14#32 = .ok .foldSave)))
  decide

/-- A FOLD_SAVE whose checks pass, a FOLD_COPY that is not enabled, a FOLD_SAVE that passes the top; each with a byte of its
write range. -/
theorem witness_AbandonedWriteRangeIsUnspecified :
    ∀ p ∈ ([(.foldSave, 7, 0x3000, 0x303F), (.foldCopy, 3, 0x3000, 0x3004), (.foldSave, 7, 0xFFFFFFFFFFFFFFFF, 2 ^ 64 - 1)] :
        List (Instr × Word × DWord × Nat)),
      ∃ (s : State) (rest : List HostEvent), s.pending = .commandReset (encode p.1) :: rest ∧ s.seq = .idle ∧
        decode (encode p.1) = .ok p.1 ∧ Memory.wf s.mem ∧
        ∃ r ∈ ranges p.1 s, r.kind = .write ∧ r.base ≤ p.2.2.2 ∧ p.2.2.2 < r.base + r.size ∧ p.2.2.2 < 2 ^ 64 := by
  intro p hp
  refine ⟨load [.commandReset (encode p.1)] (ready 0x1000 p.2.2.1 5 0 p.2.1 []), [], rfl, rfl, ?_⟩
  revert p
  decide

theorem witness_HostWriteOfARegister (r : Reg) (h : r ≠ .cmd) :
    ∃ (s : State) (v : Word) (rest : List HostEvent), s.pending = wr r v :: rest ∧ s.seq = .idle ∧ r ≠ .cmd :=
  ⟨served (wr r 0xFFFFFFFF), 0xFFFFFFFF, [], rfl, rfl, h⟩

theorem witness_StatusWriteClearsOnlyErr :
    ∃ (s : State) (v : Word) (rest : List HostEvent),
      s.pending = .write 0x04 4 v :: rest ∧ s.seq = .idle ∧ v.getLsbD 8 = true ∧ s.status.getLsbD 8 = true :=
  ⟨{ served (.write 0x04 4 0x100) with status := 0x111 }, 0x100, [], by decide⟩

theorem witness_CapReportsTheInstance : ∃ s t : State, step s = .next t ∧ s.acc ≠ t.acc :=
  ⟨served (wr .acc 5), _, eq_next (by decide), by decide⟩

theorem witness_ReservedSlotsReadZeroAndIgnoreWrites (off : Nat) (h : off ∈ [0x34, 0x38, 0x3C]) :
    (∃ (s : State) (v : Word) (rest : List HostEvent),
      s.pending = .write off 4 v :: rest ∧ off ∈ [0x34, 0x38, 0x3C] ∧ s.seq = .idle) ∧
    (∃ (s : State) (rest : List HostEvent),
      s.pending = .read off 4 :: rest ∧ off ∈ [0x34, 0x38, 0x3C] ∧ s.seq = .idle) :=
  ⟨⟨served (.write off 4 7), 7, [], rfl, h, rfl⟩, ⟨served (.read off 4), [], rfl, h, rfl⟩⟩

theorem witness_HostReadYieldsTheRegister (r : Reg) :
    ∃ (s : State) (rest : List HostEvent), s.pending = rd r :: rest ∧ s.seq = .idle :=
  ⟨served (rd r), [], rfl, rfl⟩

/-- A misaligned word, a halfword, and an access wider than a register, each as a write and as a read. -/
theorem witness_AccessNotAligned32IsRefused :
    ∀ p ∈ [(0x12, 4), (0x10, 2), (0x10, 8)],
      (∃ (s : State) (v : Word) (rest : List HostEvent),
        s.seq = .idle ∧ (p.2 ≠ 4 ∨ p.1 % 4 ≠ 0) ∧ s.pending = .write p.1 p.2 v :: rest) ∧
      (∃ (s : State) (rest : List HostEvent),
        s.seq = .idle ∧ (p.2 ≠ 4 ∨ p.1 % 4 ≠ 0) ∧ s.pending = .read p.1 p.2 :: rest) := by
  intro p hp
  have h : p.2 ≠ 4 ∨ p.1 % 4 ≠ 0 := by fin_cases hp <;> decide
  exact ⟨⟨served (.write p.1 p.2 0), 0, [], rfl, h, rfl⟩, ⟨served (.read p.1 p.2), [], rfl, h, rfl⟩⟩

/-- Both kinds of fault of a legal command, and an illegal word. -/
theorem witness_FaultChangesNothingElse :
    (∃ (i : Instr) (s : State) (f : Raised), check i s = some f ∧ f.code ≠ .eBus) ∧
    (∃ (i : Instr) (s : State) (f : Raised), check i s = some f ∧ f.code = .eBus) ∧
    (∃ w : Word, legal w = false) :=
  ⟨⟨.foldCopy, ready 0x100 0x104 5 0 7 [], ⟨.eOverlap, none⟩, by decide⟩,
    ⟨.crc32Scalar, ready 0xF0000000 0 1 0 7 [], ⟨.eBus, some 0xF0000000⟩, by decide +kernel⟩, ⟨2, by decide⟩⟩

theorem witness_DisabledTierEndsWithEUnavail :
    (∃ s : State, s.ctrl.getLsbD 0 = false) ∧ (∃ s : State, s.ctrl.getLsbD 1 = false) ∧
    (∃ s : State, s.ctrl.getLsbD 2 = false) ∧ (∀ i : Instr, ∃ s t : State, exec i s = .next t) ∧
    (∃ s : State, s.ctrl &&& ~~~ capTiers s.params = 0 ∧ s.params.capBraid = false ∧ s.params.capChorba = false ∧
      s.params.capClmul = false) :=
  ⟨⟨ready 0 0 0 0 6 [], by decide⟩, ⟨ready 0 0 0 0 5 [], by decide⟩, ⟨ready 0 0 0 0 3 [], by decide⟩,
    fun i => ⟨State.reset, _, exec_next i _⟩,
    ⟨{ State.reset with params := { capBraid := false, capChorba := false, capClmul := false }, ctrl := 0 },
      by decide⟩⟩

/-- One byte beyond the last legal address, in every clause; and a range that ends exactly at 2^64. -/
theorem witness_RangeBeyondTheTopEndsWithERange :
    (∀ i ∈ (.foldUpdate false :: .foldUpdate true :: crc32Commands : List Instr),
      ∃ s : State, unavail i s = false ∧ 2 ^ 64 < srcOp s + lenOp s) ∧
    (∃ s : State, s.ctrl.getLsbD 2 = true ∧ 2 ^ 64 < srcOp s + lenOp s) ∧
    (∃ s : State, s.ctrl.getLsbD 2 = true ∧ 2 ^ 64 < dstOp s + lenOp s) ∧
    (∃ s : State, s.ctrl.getLsbD 2 = true ∧ 2 ^ 64 < dstOp s + 64) ∧
    (∃ s : State, s.ctrl.getLsbD 2 = true ∧ 2 ^ 64 < srcOp s + 64) ∧
    (∃ (i : Instr) (s t : State), exec i s = .next t ∧ ∀ r ∈ ranges i s, r.size = 0 ∨ r.base + r.size ≤ 2 ^ 64) :=
  ⟨fun i hi => ⟨ready 0xFFFFFFFFFFFFFFFF 0 2 0 7 [], by revert i; decide, by decide⟩,
    ⟨ready 0xFFFFFFFFFFFFFFFF 0 2 0 7 [], by decide⟩, ⟨ready 0 0xFFFFFFFFFFFFFFFF 2 0 7 [], by decide⟩,
    ⟨ready 0 0xFFFFFFFFFFFFFFC1 0 0 7 [], by decide⟩, ⟨ready 0xFFFFFFFFFFFFFFC1 0 0 0 7 [], by decide⟩,
    ⟨.foldLoad, ready 0xFFFFFFFFFFFFFFC0 0 0 0 7 [], _, exec_next _ _, by decide⟩⟩

theorem witness_ShortSeededUpdateEndsWithESeed :
    (∃ s : State, s.ctrl.getLsbD 2 = true ∧ srcOp s + lenOp s ≤ 2 ^ 64 ∧ s.acc ^^^ M32 ≠ 0 ∧ lenOp s < 16) ∧
    (∃ (i : Instr) (s t : State), exec i s = .next t ∧ statusCode t.status = 4) :=
  ⟨⟨ready 0xFFFFFFFFFFFFFFF1 0 15 0 7 [], by decide⟩,
    ⟨.foldUpdate true, ready 0xFFFFFFFFFFFFFFF1 0 15 0 7 [], _, exec_next _ _, by decide +kernel⟩⟩

/-- Ranges that share exactly one byte. -/
theorem witness_OverlappingCopyEndsWithEOverlap :
    (∃ s : State, s.ctrl.getLsbD 2 = true ∧ srcOp s + lenOp s ≤ 2 ^ 64 ∧ dstOp s + lenOp s ≤ 2 ^ 64 ∧ 0 < lenOp s ∧
      srcOp s < dstOp s + lenOp s ∧ dstOp s < srcOp s + lenOp s) ∧
    (∃ (i : Instr) (s t : State), exec i s = .next t ∧ statusCode t.status = 5) :=
  ⟨⟨ready 0x100 0x104 5 0 7 [], by decide⟩, ⟨.foldCopy, ready 0x100 0x104 5 0 7 [], _, exec_next _ _, by decide +kernel⟩⟩

/-- The platform whose addresses from 0x80000000 on are refused (program P4). -/
def halfOpen : Params := { refused := [⟨0x80000000, 2 ^ 64, true, true⟩] }

theorem witness_RefusedByteEndsWithEBus :
    ∃ (i : Instr) (s : State) (x : Nat),
      unavail i s = false ∧ outOfRange i s = false ∧ seedTooShort i s = false ∧ copyOverlaps i s = false ∧
      Refuses i s x ∧ ∀ y < x, ¬ Refuses i s y := by
  refine ⟨.crc32Auto, { ready 0x7FFFFFFC 0 8 0 7 [] with params := halfOpen }, 0x80000000, by decide, by decide,
    by decide, by decide, ?_, ?_⟩
  · exact ⟨⟨0x7FFFFFFC, 8, .read⟩, by decide, by decide, by decide, by decide⟩
  · rintro y hy ⟨r, hr, h1, -, h3⟩
    have hr : r = ⟨0x7FFFFFFC, 8, .read⟩ := List.mem_singleton.mp hr
    subst hr
    simp [admits, halfOpen] at h3
    omega

/-- Each condition first in the order, over one command. -/
theorem witness_ReportedCodeFollowsThePriority :
    (∀ (i : Instr) (s : State), ∃ t, exec i s = .next t) ∧
    (∃ s : State, unavail .foldCopy s = true) ∧
    (∃ s : State, unavail .foldCopy s = false ∧ outOfRange .foldCopy s = true) ∧
    (∃ s : State, unavail (.foldUpdate true) s = false ∧ outOfRange (.foldUpdate true) s = false ∧
      seedTooShort (.foldUpdate true) s = true) ∧
    (∃ s : State, unavail .foldCopy s = false ∧ outOfRange .foldCopy s = false ∧ seedTooShort .foldCopy s = false ∧
      copyOverlaps .foldCopy s = true) ∧
    (∃ s : State, unavail .foldCopy s = false ∧ outOfRange .foldCopy s = false ∧ seedTooShort .foldCopy s = false ∧
      copyOverlaps .foldCopy s = false ∧ ∃ x, Refuses .foldCopy s x) ∧
    (∃ s : State, unavail .nop s = false ∧ outOfRange .nop s = false ∧ seedTooShort .nop s = false ∧
      copyOverlaps .nop s = false ∧ ∀ x, ¬ Refuses .nop s x) ∧
    (∃ (s t : State) (w : Word) (rest : List HostEvent), s.pending = .write 0x00 4 w :: rest ∧ s.seq = .idle ∧
      legal w = false ∧ step s = .next t) :=
  ⟨fun i s => ⟨_, exec_next i s⟩, ⟨ready 0 0 0 0 3 [], by decide⟩,
    ⟨ready 0 0xFFFFFFFFFFFFFFFF 2 0 7 [], by decide⟩, ⟨ready 0 0 15 0 7 [], by decide⟩,
    ⟨ready 0x100 0x104 5 0 7 [], by decide⟩,
    ⟨{ ready 0x100 0x80000000 4 0 7 [] with params := halfOpen }, by decide, by decide, by decide, by decide,
      0x80000000, ⟨0x80000000, 4, .write⟩, by decide, by decide, by decide, by decide⟩,
    ⟨State.reset, by decide, by decide, by decide, by decide, fun x ⟨r, hr, _⟩ => by simp [ranges] at hr⟩,
    ⟨served (wr .cmd 2), _, 2, [], rfl, rfl, by decide, eq_next (by decide)⟩⟩

theorem witness_EveryCommandEndsWithFinish :
    (∀ (i : Instr) (s : State), ∃ t, exec i s = .next t) ∧
    (∃ (i : Instr) (s t : State), exec i s = .next t ∧ statusCode t.status ≠ 0) ∧
    (∃ (i : Instr) (s t : State), exec i s = .next t ∧ statusCode t.status = 0) :=
  ⟨fun i s => ⟨_, exec_next i s⟩, ⟨.foldInit, ready 0 0 0 0 3 [], _, exec_next _ _, by decide +kernel⟩,
    ⟨.foldCopy, State.reset, _, exec_next _ _, by decide +kernel⟩⟩

theorem witness_CodesEachCommandCanReport (i : Instr) : ∃ s t : State, exec i s = .next t :=
  ⟨State.reset, _, exec_next i _⟩

/-- Each of the four ways the conclusion can hold. -/
theorem witness_ErrStaysUntilClearedOrReset :
    ∀ e ∈ [rd .acc, wr .status 0x100, .reset, .commandReset 0x10],
      ∃ s t : State, s.pending = [e] ∧ step s = .next t ∧ statusErr s.status = true := by
  intro e he
  refine ⟨{ served e with status := 0x111 }, _, rfl, eq_next ?_, (by decide : statusErr 0x111#32 = true)⟩
  fin_cases he <;> decide

theorem witness_EngineReadsYieldMemoryOrARacingWrite :
    (∃ s : State, s.racing = [] ∧ s.mem ≠ []) ∧
    (∃ (s : State) (j a n k : Nat) (b : Byte), (engineRead s j a n)[k]? = some b ∧ s.racing ≠ []) := by
  refine ⟨⟨ready 0x1000 0 9 0 7 check9, rfl, by decide +kernel⟩,
    { ready 0x1000 0 9 0 7 check9 with racing := [(0x1002, 7)] }, 0, 0x1000, 9, 2, _,
    List.getElem?_eq_getElem (by simp), by simp⟩

/-- The last existing address, the first that does not exist, and the register block's first byte. -/
theorem witness_HostMemoryAccesses :
    (∃ (s : State) (a : Nat) (b : Byte) (rest : List HostEvent), a < 2 ^ 64 ∧ inRegisterBlock s.params a = false ∧
      Memory.wf s.mem ∧ s.pending = .store a b :: rest) ∧
    (∃ (s : State) (a : Nat) (rest : List HostEvent), a < 2 ^ 64 ∧ inRegisterBlock s.params a = false ∧
      s.pending = .load a :: rest) ∧
    (∃ (s : State) (a : Nat) (b : Byte) (rest : List HostEvent), 2 ^ 64 ≤ a ∧
      (s.pending = .store a b :: rest ∨ s.pending = .load a :: rest)) ∧
    (∃ (s : State) (a : Nat) (b : Byte) (rest : List HostEvent), a < 2 ^ 64 ∧ inRegisterBlock s.params a = true ∧
      (s.pending = .store a b :: rest ∨ s.pending = .load a :: rest)) :=
  ⟨⟨served (.store (2 ^ 64 - 1) 7), 2 ^ 64 - 1, 7, [], by decide⟩, ⟨served (.load 0), 0, [], by decide⟩,
    ⟨served (.store (2 ^ 64) 7), 2 ^ 64, 7, [], by decide⟩, ⟨served (.load 0xF0000000), 0xF0000000, 0, [], by decide⟩⟩

/-- Two writes to one byte beside a FOLD_SAVE, with and without HOST_CONCURRENT. -/
theorem witness_RacingWritesLandOutsideTheWriteRange :
    ∀ b : Bool, ∃ (s : State) (w : Word) (others : List Host.Cell) (rest : List HostEvent) (x : Nat),
      s.pending = .commandRacing w others :: rest ∧ s.seq = .idle ∧ s.params.hostConcurrent = b ∧ Memory.wf s.mem ∧
      (∀ c ∈ others, c.1 < 2 ^ 64 ∧ inRegisterBlock s.params c.1 = false) ∧ racingValues others x = [7, 8] ∧
      ∀ i, decode w = .ok i → ∀ r ∈ ranges i s, r.kind = .write → x < r.base ∨ r.base + r.size ≤ x := by
  intro b
  refine ⟨{ served (.commandRacing 0x14 [(64, 7), (64, 8)]) with params := { hostConcurrent := b } }, 0x14,
    [(64, 7), (64, 8)], [], 64, rfl, rfl, rfl, by cases b <;> decide, by cases b <;> decide, by decide, fun i hi => ?_⟩
  cases (Except.ok.inj (hi.symm.trans (by decide : decode 0x14#32 = .ok .foldSave)))
  decide +revert

/-- A memory that differs outside the read range. -/
theorem witness_OnlyTheReadRangeMatters :
    ∃ (i : Instr) (s t : State) (m : Memory), exec i s = .next t ∧ m ≠ s.mem ∧
      ∀ r ∈ ranges i s, r.kind = .read → ∀ x, r.base ≤ x → x < r.base + r.size → memRead m x = memRead s.mem x := by
  refine ⟨.crc32Scalar, ready 0 0 1 0 7 [], _, [(1, 5)], exec_next _ _, by decide, ?_⟩
  intro r hr _ x h1 h2
  have hr : r = ⟨0, 1, .read⟩ := by simpa [ranges, srcOp, lenOp, ready] using hr
  subst hr
  have : x = 0 := by simp at h2; omega
  subst this
  decide

/-- Both neighbours of the 64 bytes FOLD_SAVE writes. -/
theorem witness_OnlyTheWriteRangeChanges :
    ∀ x ∈ [0x2FFF, 0x3040], ∃ (i : Instr) (s t : State), exec i s = .next t ∧
      ∀ r ∈ ranges i s, r.kind = .write → x < r.base ∨ r.base + r.size ≤ x := by
  intro x hx
  refine ⟨.foldSave, ready 0 0x3000 0 0 7 [], _, exec_next _ _, ?_⟩
  fin_cases hx <;> decide

/-- A code other than E_BUS and other than OK, and a command that does not write ACC. -/
theorem witness_RegistersACommandLeaves :
    (∃ (i : Instr) (s t : State), exec i s = .next t ∧ statusCode t.status ≠ 6 ∧ statusCode t.status ≠ 0) ∧
    (∃ (i : Instr) (s t : State), exec i s = .next t ∧ i ∉ .foldFinal :: crc32Commands) :=
  ⟨⟨.foldInit, ready 0 0 0 0 3 [], _, exec_next _ _, by decide +kernel⟩,
    ⟨.foldSave, State.reset, _, exec_next _ _, by decide⟩⟩

theorem witness_FoldIsTheFoldCommandsOwn :
    (∃ (i : Instr) (s t : State), exec i s = .next t ∧
      i ∉ [.foldInit, .foldUpdate false, .foldUpdate true, .foldCopy, .foldLoad]) ∧
    (∀ i ∈ crc32Commands, ∃ s t : State, exec i s = .next t) :=
  ⟨⟨.foldSave, State.reset, _, exec_next _ _, by decide⟩, fun i _ => ⟨State.reset, _, exec_next i _⟩⟩

/-- The default platform admits every range that stays below its register block. -/
theorem accessible_low {s : State} {a n : Nat} {k : AccessKind} (hp : s.params = {}) (h : a + n ≤ 0xF0000000) :
    Accessible s.params a n k := by
  refine ⟨by omega, fun d hd => ?_⟩
  have : a + d < 0xF0000000 := by omega
  simp [hp, admitted, admits, inRegisterBlock, this]

/-- Every tier's commands, at the tier's own boundary lengths. -/
theorem witness_Crc32CommandsWriteOnlyAccAndStatus :
    ∀ i ∈ crc32Commands, ∀ n ∈ [0, 15, 16, 46, 47, 71, 72, 119223, 119224],
      ∃ s : State, unavail i s = false ∧ lenOp s = n ∧ Accessible s.params (srcOp s) (lenOp s) .read := by
  intro i hi n hn
  refine ⟨ready 0x1000 0 (BitVec.ofNat 64 n) 0 7 [], ?_, ?_, accessible_low rfl ?_⟩
  · revert i; revert n; decide
  · revert n; decide
  · revert n; decide

theorem witness_ScalarCommandComputesTheChecksum :
    ∀ n ∈ [0, 1, 9], ∃ s : State, lenOp s = n ∧ Accessible s.params (srcOp s) (lenOp s) .read := by
  intro n hn
  refine ⟨ready 0x1000 0 (BitVec.ofNat 64 n) 0 7 [], ?_, accessible_low rfl ?_⟩ <;> revert n <;> decide

theorem witness_BraidCommandComputesTheChecksum :
    ∀ n ∈ [46, 47], ∃ s : State, s.ctrl.getLsbD 0 = true ∧ lenOp s = n ∧
      Accessible s.params (srcOp s) (lenOp s) .read := by
  intro n hn
  refine ⟨ready 0x1000 0 (BitVec.ofNat 64 n) 0 7 [], ?_, ?_, accessible_low rfl ?_⟩ <;> revert n <;> decide

theorem witness_ChorbaSmallCommandComputesTheChecksum :
    ∀ n ∈ [71, 72], ∃ s : State, s.ctrl.getLsbD 1 = true ∧ lenOp s = n ∧
      Accessible s.params (srcOp s) (lenOp s) .read := by
  intro n hn
  refine ⟨ready 0x1000 0 (BitVec.ofNat 64 n) 0 7 [], ?_, ?_, accessible_low rfl ?_⟩ <;> revert n <;> decide

theorem witness_ChorbaLargeCommandComputesTheChecksum :
    ∀ n ∈ [71, 72, 119223, 119224], ∃ s : State, s.ctrl.getLsbD 1 = true ∧ lenOp s = n ∧
      Accessible s.params (srcOp s) (lenOp s) .read := by
  intro n hn
  refine ⟨ready 0x1000 0 (BitVec.ofNat 64 n) 0 7 [], ?_, ?_, accessible_low rfl ?_⟩ <;> revert n <;> decide

theorem witness_SimdCommandComputesTheChecksum :
    ∀ n ∈ [15, 16], ∃ s : State, s.ctrl.getLsbD 2 = true ∧ lenOp s = n ∧
      Accessible s.params (srcOp s) (lenOp s) .read := by
  intro n hn
  refine ⟨ready 0x1000 0 (BitVec.ofNat 64 n) 0 7 [], ?_, ?_, accessible_low rfl ?_⟩ <;> revert n <;> decide

theorem witness_AutoCommandComputesTheChecksum :
    ∀ n ∈ [0, 255, 256, 524289], ∃ s : State, lenOp s = n ∧ Accessible s.params (srcOp s) (lenOp s) .read := by
  intro n hn
  refine ⟨ready 0x1000 0 (BitVec.ofNat 64 n) 0 7 [], ?_, accessible_low rfl ?_⟩ <;> revert n <;> decide

/-- The lengths and enables at which the selected tier changes (R161). -/
theorem witness_AutoCommandReportsTheSelectedTier :
    ∀ p ∈ [(46, 7), (47, 7), (72, 7), (73, 7), (255, 7), (256, 7), (100, 0), (524288, 3), (524289, 3)],
      ∃ s t : State, lenOp s = p.1 ∧ s.ctrl = BitVec.ofNat 32 p.2 ∧
        Accessible s.params (srcOp s) (lenOp s) .read ∧ exec .crc32Auto s = .next t := by
  intro p hp
  refine ⟨ready 0x1000 0 (BitVec.ofNat 64 p.1) 0 (BitVec.ofNat 32 p.2) [], _, ?_, rfl, accessible_low rfl ?_,
    exec_next _ _⟩ <;> revert p <;> decide

theorem witness_EmptyInputLeavesAcc :
    ∀ i ∈ crc32Commands, ∃ s : State, unavail i s = false ∧ lenOp s = 0 ∧ s.acc = 0xCBF43926 := by
  intro i hi
  refine ⟨ready 0 0 0 0xCBF43926 7 [], ?_, by decide, rfl⟩
  revert i; decide

/-- The last word of a sequence, for both widths. -/
theorem witness_WordReductionEqualsItsBytes :
    ∀ w ∈ [4, 8], ∃ (bs : List Byte) (i : Nat), (w = 4 ∨ w = 8) ∧ i + w ≤ bs.length :=
  fun w hw => ⟨zeros 9, 9 - w, by simpa using hw, by simp [zeros] at *; omega⟩

/-- After one word there is a deposit in the slot of word L − 1 and one in that of word L. -/
theorem witness_RingHoldsOnlyTheLagWindow :
    ∀ slot ∈ [14869, 14870],
      sparseRead 0#64 (largeWords chorbaLag chorbaRingWords chorbaTerms 0 1 0 (zeros 7 ++ [0x80]) []) slot ≠ 0 ∨
      sparseRead 0#64 (largeWords chorbaLag chorbaRingWords chorbaTerms 0 1 0 [1, 0, 0, 0, 0, 0, 0, 0] []) slot ≠ 0 := by
  decide +kernel

theorem witness_FoldInitClearsTheLanes :
    (∃ s : State, s.ctrl.getLsbD 2 = true) ∧ (∃ s : State, s.ctrl.getLsbD 2 = false) :=
  ⟨⟨State.reset, by decide⟩, ⟨ready 0 0 0 0 3 [], by decide⟩⟩

/-- A nonzero seed into exactly 16 bytes, a zero seed into one, no bytes; each in both lanes modes. -/
theorem witness_FoldUpdateFeedsTheWindow :
    ∀ mode ∈ [LanesMode.canonical, LanesMode.relational],
      ∀ p ∈ ([(true, 16, 0), (true, 1, 0xFFFFFFFF), (false, 0, 0)] : List (Bool × Nat × Word)),
        ∃ s : State, s.params.lanesMode = mode ∧ s.ctrl.getLsbD 2 = true ∧
          Accessible s.params (srcOp s) (lenOp s) .read ∧ lenOp s = p.2.1 ∧
          (p.1 = true → s.acc ^^^ M32 ≠ 0 → 16 ≤ lenOp s) := by
  intro mode hm p hp
  refine ⟨{ ready 0x1000 0 (BitVec.ofNat 64 p.2.1) p.2.2 7 [] with params := { lanesMode := mode } }, rfl, ?_,
    ?_, ?_, ?_⟩ <;> revert p <;> revert mode <;> decide +kernel

/-- Ranges that touch on either side, and no bytes at all. -/
theorem witness_FoldCopyFeedsAndCopies :
    ∀ p ∈ [(0x105, 0x100, 5), (0x100, 0x105, 5), (0x100, 0x100, 0)],
      ∃ s : State, s.ctrl.getLsbD 2 = true ∧ Memory.wf s.mem ∧ srcOp s = p.1 ∧ dstOp s = p.2.1 ∧ lenOp s = p.2.2 ∧
        s.racing = [] ∧ s.params.lanesMode = .canonical ∧
        Accessible s.params (srcOp s) (lenOp s) .read ∧ Accessible s.params (dstOp s) (lenOp s) .write ∧
        (lenOp s = 0 ∨ dstOp s + lenOp s ≤ srcOp s ∨ srcOp s + lenOp s ≤ dstOp s) := by
  intro p hp
  refine ⟨ready (BitVec.ofNat 64 p.1) (BitVec.ofNat 64 p.2.1) (BitVec.ofNat 64 p.2.2) 0 7 check9, ?_⟩
  revert p
  decide +kernel

theorem witness_FoldFinalReducesTheWindow :
    (∃ s : State, s.ctrl.getLsbD 2 = true ∧ s.fold = ⟨0, 0, 0, 0⟩) ∧
    (∃ s : State, s.ctrl.getLsbD 2 = true ∧ s.fold = ⟨0, 0, 0, 0x666564636261393837363534CCCDCECF⟩) ∧ (∃ s : State, s.ctrl.getLsbD 2 = false) :=
  ⟨⟨State.reset, by decide⟩, ⟨{ State.reset with fold := ⟨0, 0, 0, 0x666564636261393837363534CCCDCECF⟩ }, by decide⟩,
    ⟨ready 0 0 0 0 3 [], by decide⟩⟩

/-- The last place the window can be saved to, one byte further, and a destination in the register block. -/
theorem witness_FoldSaveWritesTheWindow :
    (∃ s : State, s.ctrl.getLsbD 2 = true ∧ Memory.wf s.mem ∧ dstOp s = 2 ^ 64 - 64 ∧
      Accessible s.params (dstOp s) 64 .write) ∧
    (∃ s : State, s.ctrl.getLsbD 2 = false) ∧
    (∃ s : State, s.ctrl.getLsbD 2 = true ∧ 2 ^ 64 < dstOp s + 64) ∧
    (∃ s : State, s.ctrl.getLsbD 2 = true ∧ dstOp s + 64 ≤ 2 ^ 64 ∧ ¬ Accessible s.params (dstOp s) 64 .write) ∧
    (∀ s : State, ∃ t, exec .foldSave s = .next t) :=
  ⟨⟨ready 0 0xFFFFFFFFFFFFFFC0 0 0 7 [], by decide +kernel⟩, ⟨ready 0 0 0 0 3 [], by decide⟩,
    ⟨ready 0 0xFFFFFFFFFFFFFFC1 0 0 7 [], by decide⟩, ⟨ready 0 0xEFFFFFC1 0 0 7 [], by decide +kernel⟩,
    fun s => ⟨_, exec_next _ s⟩⟩

theorem witness_FoldLoadReadsTheWindow :
    (∃ s : State, s.ctrl.getLsbD 2 = true ∧ srcOp s = 2 ^ 64 - 64 ∧ Accessible s.params (srcOp s) 64 .read ∧
      s.racing = []) ∧
    (∃ s : State, s.ctrl.getLsbD 2 = false) ∧
    (∃ s : State, s.ctrl.getLsbD 2 = true ∧ 2 ^ 64 < srcOp s + 64) ∧
    (∃ s : State, s.ctrl.getLsbD 2 = true ∧ srcOp s + 64 ≤ 2 ^ 64 ∧ ¬ Accessible s.params (srcOp s) 64 .read) ∧
    (∀ s : State, ∃ t, exec .foldLoad s = .next t) :=
  ⟨⟨ready 0xFFFFFFFFFFFFFFC0 0 0 0 7 [], by decide +kernel⟩, ⟨ready 0 0 0 0 3 [], by decide⟩,
    ⟨ready 0xFFFFFFFFFFFFFFC1 0 0 0 7 [], by decide⟩, ⟨ready 0xEFFFFFC1 0 0 0 7 [], by decide +kernel⟩,
    fun s => ⟨_, exec_next _ s⟩⟩

theorem witness_WindowShiftKeepsTheCrc :
    ∀ n ∈ [1, 16], ∃ window fed : List Byte, window.length = 64 ∧ fed.length = n ∧ 1 ≤ fed.length ∧ fed.length ≤ 16 := by
  intro n hn
  refine ⟨pattern 64, zeros n, by decide, ?_⟩
  revert n
  decide

/-- A seeded update of 16 bytes, an update with no seed, and a copy, each ended with OK. -/
theorem witness_FoldInvariantHoldsInBothModes :
    (∃ (inj : Bool) (s t : State), inj = true ∧ s.acc ^^^ M32 ≠ 0 ∧ exec (.foldUpdate inj) s = .next t ∧
      statusCode t.status = 0) ∧
    (∃ (inj : Bool) (s t : State), inj = false ∧ s.params.lanesMode = .relational ∧
      exec (.foldUpdate inj) s = .next t ∧ statusCode t.status = 0) ∧
    (∃ s t : State, lenOp s = 5 ∧ exec .foldCopy s = .next t ∧ statusCode t.status = 0) :=
  ⟨⟨true, ready 0x1000 0 16 0 7 hex16, _, rfl, by decide, exec_next _ _, by decide +kernel⟩,
    ⟨false, { ready 0x1000 0 5 0 7 hex16 with params := { lanesMode := .relational } }, _, rfl, rfl, exec_next _ _,
      by decide +kernel⟩,
    ⟨ready 0x1000 0x2000 5 0 7 hex16, _, by decide, exec_next _ _, by decide +kernel⟩⟩

theorem witness_RelationalWindowsAreExactlyTheAllowedOnes :
    (∃ (target : Word) (window : List Byte), window.length = 64 ∧ crcRaw 0 window = target ∧ target ≠ 0) ∧
    (∃ (target : Word) (window : List Byte), window.length = 64 ∧ crcRaw 0 window ≠ target) :=
  ⟨⟨0xFFFFFFFF, zeros 60 ++ [0x62, 0xf5, 0x26, 0x92], by decide +kernel⟩, ⟨1, zeros 64, by decide +kernel⟩⟩

/-- A save, and a load from the memory it leaves. -/
theorem witness_SaveThenLoadRestoresTheLanes :
    ∃ s t u : State, s.ctrl.getLsbD 2 = true ∧ Memory.wf s.mem ∧ Accessible s.params (dstOp s) 64 .write ∧
      u.ctrl.getLsbD 2 = true ∧ u.racing = [] ∧ srcOp u = dstOp s ∧ Accessible u.params (srcOp u) 64 .read ∧
      exec .foldSave s = .next t ∧ s.fold ≠ u.fold ∧
      ∀ x, dstOp s ≤ x → x < dstOp s + 64 → memRead u.mem x = memRead t.mem x :=
  ⟨{ ready 0 0x3000 0 0 7 [] with fold := ⟨1, 2, 3, 4⟩ },
    run .foldSave { ready 0 0x3000 0 0 7 [] with fold := ⟨1, 2, 3, 4⟩ },
    { ready 0x3000 0 0 0 7 [] with
      mem := (run .foldSave { ready 0 0x3000 0 0 7 [] with fold := ⟨1, 2, 3, 4⟩ }).mem },
    by decide, by decide, by decide +kernel, by decide, rfl, by decide, by decide +kernel, exec_next _ _, by decide,
    fun _ _ _ => rfl⟩

/-- A nonzero seed over exactly 16 bytes, and the seed M32 over none. -/
theorem witness_SeededFoldStreamGivesTheChecksum :
    ∀ p ∈ ([(16, 0), (0, 0xFFFFFFFF)] : List (Nat × Word)),
      ∃ s : State, s.ctrl.getLsbD 2 = true ∧ lenOp s = p.1 ∧ s.acc = p.2 ∧
        Accessible s.params (srcOp s) (lenOp s) .read ∧ (16 ≤ lenOp s ∨ s.acc = M32) := by
  intro p hp
  refine ⟨ready 0x1000 0 (BitVec.ofNat 64 p.1) p.2 7 hex16, ?_⟩
  revert p
  decide +kernel

end Sys2Proof.Tests
end

section
/-! SUPPORT. The host port: what serving a register access answers, bit by bit what STATUS and CAP hold, and that no step
changes the parameters (10_state.md R31 to R43). -/

namespace Sys2Proof.Machine

/-! ### Serving an event -/

/-- An idle machine serves its oldest event whatever the event is (R52). -/
theorem step_of_idle {s : State} {e : HostEvent} {rest : List HostEvent} (hp : s.pending = e :: rest)
    (hidle : s.seq = .idle) : step s = handle e { s with pending := rest } := by
  simp [step, serve, hp, hidle]

theorem accessStop_unaligned {off width : Nat} (h : width ≠ 4 ∨ off % 4 ≠ 0) :
    accessStop off width = some (.notAligned32 off width) := if_pos h

theorem accessStop_aligned {off : Nat} (halign : off % 4 = 0) (hlt : off < 0x40) : accessStop off 4 = none := by
  simp [accessStop, halign, hlt]

theorem step_write {s : State} {off : Nat} {v : Word} {rest : List HostEvent} (hp : s.pending = .write off 4 v :: rest)
    (hidle : s.seq = .idle) (halign : off % 4 = 0) (hlt : off < 0x40) :
    step s = hostWrite off v { s with pending := rest } := by
  rw [step_of_idle hp hidle]
  simp [handle, accessStop_aligned halign hlt]

theorem step_read {s : State} {off : Nat} {rest : List HostEvent} (hp : s.pending = .read off 4 :: rest)
    (hidle : s.seq = .idle) (halign : off % 4 = 0) (hlt : off < 0x40) :
    step s = .next (hostRead off { s with pending := rest }) := by
  rw [step_of_idle hp hidle]
  simp [handle, accessStop_aligned halign hlt]

theorem handle_write_unaligned {off width : Nat} (h : width ≠ 4 ∨ off % 4 ≠ 0) (v : Word) (s : State) :
    handle (.write off width v) s = .refused (.notAligned32 off width) := by
  simp [handle, accessStop_unaligned h]

theorem handle_read_unaligned {off width : Nat} (h : width ≠ 4 ∨ off % 4 ≠ 0) (s : State) :
    handle (.read off width) s = .refused (.notAligned32 off width) := by
  simp [handle, accessStop_unaligned h]

/-! ### The register block -/

theorem hostWrite_of_noReg {off : Nat} (h : regAt off = none) (v : Word) (s : State) : hostWrite off v s = .next s := by
  simp [hostWrite, h]

theorem readOffset_of_noReg {off : Nat} (h : regAt off = none) (s : State) : readOffset off s = 0 := by
  simp [readOffset, h]

/-- A reserved slot is an aligned slot of the block that holds no register (R42). -/
theorem reservedSlot {off : Nat} (h : off ∈ [0x34, 0x38, 0x3C]) : off % 4 = 0 ∧ off < 0x40 ∧ regAt off = none := by
  revert off
  decide

theorem hostWrite_status (v : Word) (s : State) :
    hostWrite 0x04 v s = .next (s.setStatus (statusHostWrite v s.status)) := rfl

/-! ### What a step can do -/

/-- What a host write that is served does: it runs a command, writes another register, or meets a reserved slot. -/
theorem hostWrite_cases {off : Nat} {v : Word} {s t : State} (h : hostWrite off v s = .next t) :
    (regAt off = some .cmd ∧ runWord v s = .next t) ∨
      (∃ r, r ≠ .cmd ∧ regAt off = some r ∧ t = writeReg r v s) ∨
      (regAt off = none ∧ t = s) := by
  unfold hostWrite at h
  split at h
  case h_1 hreg => exact .inl ⟨hreg, h⟩
  case h_2 r hne hreg =>
    cases h
    exact .inr (.inl ⟨r, hne, hreg, rfl⟩)
  case h_3 hreg =>
    cases h
    exact .inr (.inr ⟨hreg, rfl⟩)

/-- What a command word that is run does: its command's, or the end with E_ILLEGAL. -/
theorem runWord_cases {w : Word} {s t : State} (h : runWord w s = .next t) :
    (∃ i, decode w = .ok i ∧ exec i (startWord w s) = .next t) ∨
      (∃ r, decode w = .error r ∧ t = raiseFault .eIllegal none (startWord w s)) := by
  unfold runWord at h
  split at h
  case h_1 i hd => exact .inl ⟨i, hd, h⟩
  case h_2 r hd =>
    cases h
    exact .inr ⟨r, hd, rfl⟩

theorem runRacing_next {w : Word} {others : List Host.Cell} {s t : State} (h : runRacing w others s = .next t) :
    ∃ u, runWord w { s with racing := others } = .next u ∧
      t = { u with mem := settle (otherStays w (startWord w s)) u.mem others, racing := [] } := by
  unfold runRacing at h
  split at h
  case h_1 u hrun =>
    cases h
    exact ⟨u, hrun, rfl⟩
  case h_2 | h_3 => cases h

/-- `t` is a state the event can leave when it is taken in `s` and the machine goes on: one constructor per event, with
what must hold for it to be served. -/
inductive Served (s t : State) : HostEvent → Prop where
  | write {off : Nat} {v : Word} (slot : accessStop off 4 = none) (next : hostWrite off v s = .next t) :
      Served s t (.write off 4 v)
  | read {off : Nat} (slot : accessStop off 4 = none) (next : t = hostRead off s) : Served s t (.read off 4)
  | store {a : Nat} {b : Byte} (free : storeStop s a = none) (next : t = s.setMem (memWrite s.mem a b)) :
      Served s t (.store a b)
  | load {a : Nat} (free : storeStop s a = none)
      (next : t = { s with readData := some ((memRead s.mem a).setWidth 32) }) : Served s t (.load a)
  | commandRacing {w : Word} {others : List Host.Cell} (allowed : s.params.hostConcurrent = true)
      (free : storesStop s others = none) (next : runRacing w others s = .next t) : Served s t (.commandRacing w others)
  | reset (next : t = applyReset s) : Served s t .reset
  | commandReset {w : Word} (next : t = abandonWord w s) : Served s t (.commandReset w)

theorem stopWith_ne_next (e : Fault ⊕ Refusal) (t : State) : stopWith e ≠ .next t := by
  cases e <;> simp [stopWith]

theorem width_of_accessStop {off width : Nat} (h : accessStop off width = none) : width = 4 := by
  by_contra hne
  simp [accessStop_unaligned (off := off) (.inl hne)] at h

theorem served_of_handle {e : HostEvent} {s t : State} (h : handle e s = .next t) : Served s t e := by
  cases e with
  | write off width v =>
    cases hstop : accessStop off width with
    | some r => simp [handle, hstop] at h
    | none =>
      obtain rfl := width_of_accessStop hstop
      exact .write hstop (by simpa [handle, hstop] using h)
  | read off width =>
    cases hstop : accessStop off width with
    | some r => simp [handle, hstop] at h
    | none =>
      obtain rfl := width_of_accessStop hstop
      exact .read hstop (by simpa [handle, hstop] using h.symm)
  | store a b =>
    cases hstop : storeStop s a with
    | some r => simp [handle, hstop, stopWith_ne_next] at h
    | none => exact .store hstop (by simpa [handle, hstop] using h.symm)
  | load a =>
    cases hstop : storeStop s a with
    | some r => simp [handle, hstop, stopWith_ne_next] at h
    | none => exact .load hstop (by simpa [handle, hstop] using h.symm)
  | commandRacing w others =>
    cases hconc : s.params.hostConcurrent with
    | false => simp [handle, hconc] at h
    | true =>
      cases hstop : storesStop s others with
      | some r => simp [handle, hconc, hstop, stopWith_ne_next] at h
      | none => exact .commandRacing hconc hstop (by simpa [handle, hconc, hstop] using h)
  | reset =>
    cases h
    exact .reset rfl
  | commandReset w =>
    cases h
    exact .commandReset rfl

/-- A step that goes on changes nothing, for want of an event it may take, or serves the oldest one. -/
theorem step_cases {s t : State} (h : step s = .next t) :
    t = s ∨ ∃ e rest, s.pending = e :: rest ∧ Served { s with pending := rest } t e := by
  unfold step serve at h
  split at h
  case h_1 =>
    cases h
    exact .inl rfl
  case h_2 e rest hp =>
    split at h
    · cases h
      exact .inl rfl
    · exact .inr ⟨e, rest, hp, served_of_handle h⟩

/-! ### The bits of STATUS -/

theorem getLsbD_insertBits {n : Nat} (v : Word) (lo : Nat) (x : BitVec n) {k : Nat} (hk : k < 32) :
    (insertBits v lo x).getLsbD k = if lo ≤ k ∧ k < lo + n then x.getLsbD (k - lo) else v.getLsbD k := by
  by_cases hlo : lo ≤ k
  · by_cases hhi : k < lo + n
    · have : k - lo < n := by omega
      simp [insertBits, hk, hlo, hhi, this, Nat.not_lt.mpr hlo]
    · have : ¬ k - lo < n := by omega
      simp [insertBits, hk, hhi, this, BitVec.getLsbD_of_ge x (k - lo) (by omega)]
  · simp [insertBits, hk, hlo, Nat.lt_of_not_le hlo]

theorem getLsbD_statusHostWrite (v old : Word) {k : Nat} (hk : k < 32) :
    (statusHostWrite v old).getLsbD k = if k = 8 ∧ v.getLsbD 8 = true then false else old.getLsbD k := by
  by_cases hv : v.getLsbD 8
  · have h8 : (8 ≤ k ∧ k < 8 + 1) ↔ k = 8 := by omega
    simp [statusHostWrite, hv, getLsbD_insertBits _ _ _ hk, h8]
  · simp only [statusHostWrite, hv, and_false, Bool.false_eq_true, if_false]

/-! ### The fields of CAP -/

/-- CAP bit by bit, from the top field of R36 down. -/
theorem getLsbD_capWord (p : Params) (k : Nat) :
    (capWord p).getLsbD k =
      if 12 ≤ k then false
      else if 8 ≤ k then (BitVec.ofNat 4 (braidN p)).getLsbD (k - 8)
      else if 4 ≤ k then false
      else if k = 3 then braidW p == 8
      else if k = 2 then p.capClmul
      else if k = 1 then p.capChorba
      else p.capBraid := by
  unfold capWord
  change BitVec.getLsbD (w := 20 + 4 + 4 + 1 + 1 + 1 + 1) _ k = _
  simp only [BitVec.getLsbD_append]
  match k with
  | 0 | 1 | 2 | 3 => simp
  | k + 4 =>
    by_cases h4 : k < 4
    · simp [h4, Nat.not_le.mpr h4]
    · by_cases h8 : k < 8
      · have hlanes : k - 4 < 4 := by omega
        simp [h4, hlanes, Nat.not_le.mpr h8, Nat.not_lt.mp h4]
      · have hlanes : ¬ k - 4 < 4 := by omega
        simp [h4, hlanes, Nat.not_lt.mp h8]

theorem extractLsb'_capWord_low (p : Params) : (capWord p).extractLsb' 4 4 = 0#4 := by
  ext i hi
  have h8 : ¬ 8 ≤ 4 + i := by omega
  have h12 : ¬ 12 ≤ 4 + i := by omega
  simp [getLsbD_capWord, h8, h12]

theorem extractLsb'_capWord_lanes (p : Params) : (capWord p).extractLsb' 8 4 = BitVec.ofNat 4 (braidN p) := by
  ext i hi
  have h12 : ¬ 12 ≤ 8 + i := by omega
  simp [getLsbD_capWord, h12, BitVec.getLsbD_eq_getElem hi]

theorem extractLsb'_capWord_high (p : Params) : (capWord p).extractLsb' 12 20 = 0#20 := by
  ext i hi
  simp [getLsbD_capWord]

theorem braidW_eq_eight (p : Params) : braidW p = 8 ↔ p.braidW = .w8 := by
  cases h : p.braidW <;> simp [braidW, h]

/-! ### No step changes the parameters -/

@[simp] theorem raiseFault_params (code : ResultCode) (info : Option Nat) (s : State) :
    (raiseFault code info s).params = s.params := by
  rw [raiseFault_eq]

@[simp] theorem writeReg_params (r : Reg) (v : Word) (s : State) : (writeReg r v s).params = s.params := by
  cases r <;> rfl

@[simp] theorem startWord_params (w : Word) (s : State) : (startWord w s).params = s.params := rfl

@[simp] theorem crc32Body_params (tierfn : Word → List Byte → Nat → Word × Tier) (s : State) :
    (crc32Body tierfn s).1.params = s.params := by
  obtain ⟨k, hk⟩ := crc32Body_state tierfn s
  rw [hk]

@[simp] theorem bodyOf_params (i : Instr) (s : State) : (bodyOf i s).1.params = s.params := by
  cases i with
  | crc32Auto | crc32Scalar | crc32Braid | crc32ChorbaS | crc32ChorbaL | crc32Simd =>
    simp only [bodyOf, crc32Body_params]
  | nop | foldInit | foldUpdate | foldCopy | foldFinal | foldSave | foldLoad =>
    simp [bodyOf, foldInitBody, foldUpdateBody, foldCopyBody, foldFinalBody, foldSaveBody, foldLoadBody]

theorem exec_params {i : Instr} {s t : State} (h : exec i s = .next t) : t.params = s.params := by
  rw [exec_eq_runCommand] at h
  obtain ⟨f, -, hf⟩ | ⟨-, hf⟩ := runCommand_cases i (bodyOf i) s <;>
  · cases hf.symm.trans h
    simp

theorem runWord_params {w : Word} {s t : State} (h : runWord w s = .next t) : t.params = s.params := by
  obtain ⟨i, -, hexec⟩ | ⟨r, -, rfl⟩ := runWord_cases h
  · exact (exec_params hexec).trans (startWord_params w s)
  · simp

theorem hostWrite_params {off : Nat} {v : Word} {s t : State} (h : hostWrite off v s = .next t) :
    t.params = s.params := by
  obtain ⟨-, hrun⟩ | ⟨r, -, -, rfl⟩ | ⟨-, rfl⟩ := hostWrite_cases h
  · exact runWord_params hrun
  · exact writeReg_params r v s
  · rfl

theorem runRacing_params {w : Word} {others : List Host.Cell} {s t : State} (h : runRacing w others s = .next t) :
    t.params = s.params := by
  obtain ⟨u, hrun, rfl⟩ := runRacing_next h
  exact (runWord_params hrun :)

@[simp] theorem abandonWord_params (w : Word) (s : State) : (abandonWord w s).params = s.params := by
  unfold abandonWord
  split <;> rfl

theorem Served.params {e : HostEvent} {s t : State} (h : Served s t e) : t.params = s.params := by
  cases h with
  | write _ hnext => exact hostWrite_params hnext
  | commandRacing _ _ hnext => exact runRacing_params hnext
  | commandReset hnext => rw [hnext, abandonWord_params]
  | read _ hnext | store _ hnext | load _ hnext | reset hnext =>
    subst hnext
    rfl

/-- The parameters are constant: every step that goes on keeps them. -/
theorem step_params {s t : State} (h : step s = .next t) : t.params = s.params := by
  obtain rfl | ⟨e, rest, -, hserved⟩ := step_cases h
  · rfl
  · exact hserved.params

end Sys2Proof.Machine
end

section
/-! SUPPORT. The statements about the register block that are settled here (10_state.md R34, R36, R42, R43). -/

namespace Sys2Proof.Proofs

open Machine

/-- Settles O15: the fields are read off CAP's concatenation, and CAP depends on the parameters alone, which every step
keeps. -/
theorem capReportsTheInstance : Obligations.CapReportsTheInstance := by
  refine ⟨fun s => ?_, fun s t h => congrArg capWord (step_params h), by decide⟩
  have hwidth : (capWord s.params).getLsbD 3 = true ↔ s.params.braidW = .w8 := by
    rw [getLsbD_capWord]
    simp [braidW_eq_eight]
  have hlanes : ((capWord s.params).extractLsb' 8 4).toNat = s.params.braidNPred.val + 1 := by
    rw [extractLsb'_capWord_lanes, BitVec.toNat_ofNat, braidN]
    omega
  exact ⟨getLsbD_capWord s.params 0, getLsbD_capWord s.params 1, getLsbD_capWord s.params 2, hwidth,
    extractLsb'_capWord_low s.params, hlanes, extractLsb'_capWord_high s.params⟩

/-- Settles O14: STATUS lies at offset 4, and its host write replaces bit 8 alone. -/
theorem statusWriteClearsOnlyErr : Obligations.StatusWriteClearsOnlyErr := by
  intro s v rest hp hidle
  have hstep := (step_write hp hidle rfl (by decide)).trans (hostWrite_status v _)
  exact ⟨_, hstep, rfl, fun k hk => getLsbD_statusHostWrite v s.status hk⟩

/-- Settles O16: a reserved slot holds no register. -/
theorem reservedSlotsReadZeroAndIgnoreWrites : Obligations.ReservedSlotsReadZeroAndIgnoreWrites := by
  intro s off v rest hoff hidle
  obtain ⟨halign, hlt, hreg⟩ := reservedSlot hoff
  constructor
  · intro hp
    rw [step_write hp hidle halign hlt, hostWrite_of_noReg hreg]
  · intro hp
    rw [step_read hp hidle halign hlt, hostRead, readOffset_of_noReg hreg]

/-- Settles O18: such an access stops before it reaches a register. -/
theorem accessNotAligned32IsRefused : Obligations.AccessNotAligned32IsRefused := by
  intro s off width v rest hidle haccess
  constructor
  · intro hp
    rw [step_of_idle hp hidle, handle_write_unaligned haccess]
  · intro hp
    rw [step_of_idle hp hidle, handle_read_unaligned haccess]

end Sys2Proof.Proofs
end

section
/-! SUPPORT. Which words the decoder accepts (30_encoding.md R102 to R108): one lemma per level of the decoder. -/

namespace Sys2Proof

/-- R103: OP = 0x01 takes TIER 0 to 5. -/
theorem exists_decodeTier_eq_ok_iff (t : BitVec 3) : (∃ i, decodeTier t = .ok i) ↔ t.toNat ≤ 5 := by
  have hvalues : t = 0 ∨ t = 1 ∨ t = 2 ∨ t = 3 ∨ t = 4 ∨ t = 5 ∨ t = 6 ∨ t = 7 := by decide +revert
  obtain rfl | rfl | rfl | rfl | rfl | rfl | rfl | rfl := hvalues <;> simp [decodeTier]

/-- R102: the seven OP values beside 0x01 that a command has, whatever INJ is. -/
theorem exists_decodeOp_eq_some_iff (op : BitVec 8) (inj : Bool) :
    (∃ i, decodeOp op inj = some i) ↔
      op ∈ [0x00#8, 0x10#8, 0x11#8, 0x12#8, 0x13#8, 0x14#8, 0x15#8] := by
  constructor
  · rintro ⟨i, hi⟩
    by_contra hop
    simp only [List.mem_cons, List.not_mem_nil, or_false, not_or] at hop
    simp [decodeOp, hop] at hi
  · intro hop
    simp only [List.mem_cons, List.not_mem_nil, or_false] at hop
    obtain rfl | rfl | rfl | rfl | rfl | rfl | rfl := hop <;> exact ⟨_, rfl⟩

/-- A guard that refuses is passed by every accepted value. -/
theorem ite_error_eq_ok_iff {ε α : Type} {c : Prop} [Decidable c] {e : ε} {x : Except ε α} {a : α} :
    (if c then .error e else x) = .ok a ↔ ¬c ∧ x = .ok a := by
  split <;> simp_all

/-- With OP = 0x01, INJ is 0 and TIER selects the command (R103, R104). -/
theorem decode_eq_ok_iff_of_crcOp {w : Word} (hop : opField w = 0x01) (i : Instr) :
    decode w = .ok i ↔ rsvField w = 0 ∧ injField w = false ∧ decodeTier (tierField w) = .ok i := by
  simp only [decode, if_pos hop, ite_error_eq_ok_iff, not_not, Bool.not_eq_true]

/-- With any other OP, OP selects the command, TIER is 0, and INJ is 0 unless OP is 0x11 (R103, R104). -/
theorem decode_eq_ok_iff_of_otherOp {w : Word} (hop : opField w ≠ 0x01) (i : Instr) :
    decode w = .ok i ↔ rsvField w = 0 ∧ decodeOp (opField w) (injField w) = some i ∧
      tierField w = 0 ∧ (injField w = false ∨ opField w = 0x11) := by
  have hguard : ¬(injField w && opField w != 0x11) = true ↔ injField w = false ∨ opField w = 0x11 := by
    cases injField w <;> simp
  simp only [decode, if_neg hop, ite_error_eq_ok_iff, not_not]
  cases decodeOp (opField w) (injField w) with
  | none => simp only [reduceCtorEq, false_and]
  | some j =>
    simp only [ite_error_eq_ok_iff, not_not, hguard, Except.ok.injEq, Option.some.injEq]
    tauto

end Sys2Proof
end

section
/-! SUPPORT. The statement about the legal words that is settled here (30_encoding.md R108). -/

namespace Sys2Proof.Proofs

/-- Settles O3: with OP = 0x01 the tier decides, with every other OP the OP value does. -/
theorem decodesExactlyTheLegalWords : Obligations.DecodesExactlyTheLegalWords := by
  intro w
  change _ ↔ rsvField w = 0 ∧ opField w ∈ [0x00#8, 0x01#8, 0x10#8, 0x11#8, 0x12#8, 0x13#8, 0x14#8, 0x15#8] ∧
    (if opField w = 0x01 then (tierField w).toNat ≤ 5 else tierField w = 0) ∧
    (injField w = false ∨ opField w = 0x11)
  by_cases hop : opField w = 0x01
  · simp only [decode_eq_ok_iff_of_crcOp hop, exists_and_left, exists_decodeTier_eq_ok_iff]
    simp [hop, and_comm]
  · have hop' : opField w ≠ 0x01#8 := hop
    simp only [decode_eq_ok_iff_of_otherOp hop, exists_and_left, exists_and_right, exists_decodeOp_eq_some_iff,
      if_neg hop]
    simp [hop']

end Sys2Proof.Proofs
end

section
/-! SUPPORT. The end of a command in the spec's terms: STATUS bit by bit, and that `finish` is the end R151 speaks of
(10_state.md R33; 40_dispatcher.md R151). -/

namespace Sys2Proof.Machine

/-! ### STATUS after the end of a command -/

/-- Each bit of STATUS after `finish` comes from the last field written over it. -/
theorem getLsbD_statusAfter (code : ResultCode) (t : Tier) (old : Word) {k : Nat} (hk : k < 32) :
    (statusAfter code t old).getLsbD k =
      if 12 ≤ k ∧ k < 15 then (tierBits (reportedTier code t)).getLsbD (k - 12)
      else if k = 8 ∧ code ≠ .ok then true
      else if 4 ≤ k ∧ k < 8 then (codeBits code).getLsbD (k - 4)
      else if k = 0 then true else old.getLsbD k := by
  have h8 : (8 ≤ k ∧ k < 9) ↔ k = 8 := by omega
  have h0 : (0 ≤ k ∧ k < 1) ↔ k = 0 := by omega
  by_cases hcode : code = .ok
  · simp only [statusAfter, if_pos hcode, getLsbD_insertBits _ _ _ hk, Nat.reduceAdd, h0]
    by_cases hz : k = 0 <;> simp [hcode, hz]
  · simp only [statusAfter, if_neg hcode, getLsbD_insertBits _ _ _ hk, Nat.reduceAdd, h8, h0]
    by_cases he : k = 8
    · simp [he, hcode]
    · by_cases hz : k = 0 <;> simp [he, hz]

theorem statusDone_statusAfter (code : ResultCode) (t : Tier) (old : Word) :
    statusDone (statusAfter code t old) = true := by
  rw [statusDone, getLsbD_statusAfter _ _ _ (by decide)]
  rfl

theorem statusCode_statusAfter (code : ResultCode) (t : Tier) (old : Word) :
    statusCode (statusAfter code t old) = codeBits code := by
  ext k hk
  have hbelow : ¬ 12 ≤ 4 + k ∧ 4 + k ≠ 8 ∧ 4 + k < 8 := by omega
  rw [← BitVec.getLsbD_eq_getElem, statusCode, BitVec.getLsbD_extractLsb',
    getLsbD_statusAfter _ _ _ (by omega)]
  simp [hbelow, hk]

theorem statusTier_statusAfter (code : ResultCode) (t : Tier) (old : Word) :
    statusTier (statusAfter code t old) = tierBits (reportedTier code t) := by
  ext k hk
  have hin : 12 ≤ 12 + k ∧ 12 + k < 15 := by omega
  rw [← BitVec.getLsbD_eq_getElem, statusTier, BitVec.getLsbD_extractLsb',
    getLsbD_statusAfter _ _ _ (by omega), if_pos hin]
  simp [hk]

/-- Every fault has a result code other than 0 (R371). -/
theorem codeBits_bne_zero_of_fault {code : ResultCode} (h : code ≠ .ok) : (codeBits code != 0) = true := by
  cases code with
  | ok => exact absurd rfl h
  | eIllegal | eUnavail | eRange | eSeed | eOverlap | eBus => rfl

/-- A fault sets ERR, a success leaves it. -/
theorem statusErr_statusAfter (code : ResultCode) (t : Tier) (old : Word) :
    statusErr (statusAfter code t old) = (statusErr old || codeBits code != 0) := by
  rw [statusErr, statusErr, getLsbD_statusAfter _ _ _ (by decide)]
  by_cases hcode : code = .ok
  · simp [hcode, codeBits]
  · rw [codeBits_bne_zero_of_fault hcode]
    simp [hcode]

/-- The reserved bits lie in no field that the end of a command writes (R33). -/
theorem not_field_of_statusReserved {k : Nat} (hk : k < 32) (h : statusReserved.getLsbD k = true) :
    ¬(12 ≤ k ∧ k < 15) ∧ k ≠ 8 ∧ ¬(4 ≤ k ∧ k < 8) ∧ k ≠ 0 := by
  revert k
  decide

theorem statusAfter_and_statusReserved (code : ResultCode) (t : Tier) (old : Word) :
    statusAfter code t old &&& statusReserved = old &&& statusReserved := by
  ext k hk
  rw [← BitVec.getLsbD_eq_getElem, ← BitVec.getLsbD_eq_getElem, BitVec.getLsbD_and, BitVec.getLsbD_and]
  cases hres : statusReserved.getLsbD k with
  | false => simp only [Bool.and_false]
  | true =>
    obtain ⟨htier, herr, hcode, hdone⟩ := not_field_of_statusReserved hk hres
    simp [getLsbD_statusAfter _ _ _ hk, htier, herr, hcode, hdone]

/-- `finish` is the end of a command in the spec's terms (R151). -/
theorem finished_statusAfter (code : ResultCode) (t : Tier) (old : Word) :
    Finished (codeBits code) (tierBits (reportedTier code t)) old (statusAfter code t old) :=
  ⟨statusDone_statusAfter code t old, statusCode_statusAfter code t old, statusErr_statusAfter code t old,
    statusTier_statusAfter code t old, statusAfter_and_statusReserved code t old⟩

theorem endsWith_finish (code : ResultCode) (t : Tier) (s : State) :
    EndsWith (codeBits code) (tierBits (reportedTier code t)) s (finish code t s) :=
  ⟨rfl, finished_statusAfter code t s.status⟩

theorem endsOk_finish (t : Tier) (s : State) : EndsOk (tierBits t) s (finish .ok t s) := endsWith_finish .ok t s

/-! ### A CMD write and NOP -/

theorem hostWrite_cmd (v : Word) (s : State) : hostWrite 0x00 v s = runWord v s := rfl

theorem runWord_ok {w : Word} {i : Instr} (h : decode w = .ok i) (s : State) :
    runWord w s = exec i (startWord w s) := by
  simp [runWord, h]

/-- NOP needs no tier and has no range, so no check can fail (R373, R374). -/
theorem check_nop (s : State) : check .nop s = none := rfl

/-- NOP is the end of a command and nothing else (R152). -/
theorem exec_nop (s : State) : exec .nop s = .next (finish .ok .none s) := by
  rw [exec_eq_runCommand, runCommand_ready (check_nop s)]
  rfl

end Sys2Proof.Machine
end

section
/-! SUPPORT. The statement about NOP that is settled here (40_dispatcher.md R152). -/

namespace Sys2Proof.Proofs

open Machine

/-- Settles O36: NOP is `finish` with OK and tier code 0; the worked example is one CMD write after reset. -/
theorem nopCompletes : Obligations.NopCompletes := by
  have hdecode : decode 0x00000000#32 = .ok .nop := rfl
  refine ⟨hdecode, fun s => ⟨_, exec_nop s, endsOk_finish .none s⟩, ?_⟩
  have hstep : step (load [.write 0x00 4 0x00000000#32] State.reset) =
      .next (finish .ok .none (startWord 0 State.reset)) := by
    rw [step_write rfl rfl rfl (by decide), hostWrite_cmd, runWord_ok hdecode, exec_nop]
    rfl
  exact ⟨_, hstep, by decide⟩

end Sys2Proof.Proofs
end

section
/-! SUPPORT. When the checks before a body pass, and which fault they raise when they do not (60_exceptions.md R373 to
R378); what a command answers in each case (40_dispatcher.md R150). -/

namespace Sys2Proof.Machine

/-! ### The ranges of a command -/

theorem lower_eq_none {x y : Option Nat} : lower x y = none ↔ x = none ∧ y = none := by
  cases x <;> cases y <;> simp [lower]

/-- No address is refused exactly when every byte of every range is admitted (R377). -/
theorem refusedAddress_eq_none {i : Instr} {s : State} :
    refusedAddress i s = none ↔ ∀ r ∈ ranges i s, ∀ d < r.size, admitted s.params (r.base + d) r.kind = true := by
  unfold refusedAddress
  induction ranges i s with
  | nil => simp
  | cons r rs ih => rw [List.foldr_cons, lower_eq_none, lowestRefused_none, ih, List.forall_mem_cons]

/-- No range passes the top exactly when each is empty or ends by 2^64 (R374). -/
theorem outOfRange_eq_false {i : Instr} {s : State} :
    outOfRange i s = false ↔ ∀ r ∈ ranges i s, r.size = 0 ∨ r.base + r.size ≤ 2 ^ 64 := by
  simp only [outOfRange, List.any_eq_false, Bool.and_eq_true, decide_eq_true_eq]
  exact forall₂_congr fun r _ => by omega

/-! ### The checks (R378) -/

section Check

variable {i : Instr} {s : State}

theorem check_of_unavail (h : unavail i s = true) : check i s = some ⟨.eUnavail, none⟩ := by
  simp [check, h]

theorem check_of_outOfRange (hu : unavail i s = false) (h : outOfRange i s = true) :
    check i s = some ⟨.eRange, none⟩ := by
  simp [check, hu, h]

/-- Past the other checks, the refused address decides. -/
theorem check_of_inRange (hu : unavail i s = false) (ho : outOfRange i s = false) (hs : seedTooShort i s = false)
    (hc : copyOverlaps i s = false) : check i s = (refusedAddress i s).map fun x => ⟨.eBus, some x⟩ := by
  simp only [check, hu, ho, hs, hc, Bool.false_eq_true, if_false]
  cases refusedAddress i s <;> rfl

/-- With the ranges accessible and the command's own conditions met, no check fails. -/
theorem check_of_accessible (hu : unavail i s = false) (hs : seedTooShort i s = false)
    (hc : copyOverlaps i s = false) (hr : ∀ r ∈ ranges i s, Accessible s.params r.base r.size r.kind) :
    check i s = none := by
  have ho : outOfRange i s = false := outOfRange_eq_false.2 fun r hmem => .inr (hr r hmem).1
  have hb : refusedAddress i s = none := refusedAddress_eq_none.2 fun r hmem => (hr r hmem).2
  rw [check_of_inRange hu ho hs hc, hb]
  rfl

end Check

/-! ### What a command answers -/

theorem exec_of_check_none {i : Instr} {s : State} (h : check i s = none) :
    exec i s = .next (finish .ok (bodyOf i s).2 (bodyOf i s).1) := by
  rw [exec_eq_runCommand, runCommand_ready h]

theorem exec_of_check_some {i : Instr} {s : State} {f : Raised} (h : check i s = some f) :
    exec i s = .next (raiseFault f.code f.info s) := by
  rw [exec_eq_runCommand, runCommand_raised h]

/-- A command whose tier is disabled ends with E_UNAVAIL, and nothing but STATUS changes (R373, R379). -/
theorem exec_of_unavail {i : Instr} {s : State} (h : unavail i s = true) :
    ∃ t, exec i s = .next t ∧ EndsFault 2 s t :=
  ⟨_, exec_of_check_some (check_of_unavail h), endsWith_finish .eUnavail .none s⟩

theorem statusCode_raiseFault (code : ResultCode) (info : Option Nat) (s : State) :
    statusCode (raiseFault code info s).status = codeBits code := by
  rw [raiseFault_eq]
  exact statusCode_statusAfter code .none s.status

/-- A fault of the checks is the code the command reports. -/
theorem statusCode_of_check {i : Instr} {s t : State} {f : Raised} (hexec : exec i s = .next t)
    (h : check i s = some f) : statusCode t.status = codeBits f.code := by
  obtain rfl : raiseFault f.code f.info s = t :=
    Host.Outcome.next.inj ((exec_of_check_some h).symm.trans hexec)
  exact statusCode_raiseFault f.code f.info s

/-! ### Commands with one range that is not empty -/

section OneRange

variable {i : Instr} {s t : State} {r : MemRange}

theorem statusCode_of_range_beyond_top (hexec : exec i s = .next t) (hr : ranges i s = [r])
    (hu : unavail i s = false) (hpos : 0 < r.size) (htop : 2 ^ 64 < r.base + r.size) : statusCode t.status = 3 := by
  have ho : outOfRange i s = true := by
    simpa [outOfRange, hr, hpos] using htop
  exact statusCode_of_check hexec (check_of_outOfRange hu ho)

theorem statusCode_of_range_refused (hexec : exec i s = .next t) (hr : ranges i s = [r])
    (hu : unavail i s = false) (hs : seedTooShort i s = false) (hc : copyOverlaps i s = false)
    (hin : r.base + r.size ≤ 2 ^ 64) (hacc : ¬ Accessible s.params r.base r.size r.kind) :
    statusCode t.status = 6 := by
  have ho : outOfRange i s = false := outOfRange_eq_false.2 (by rw [hr]; exact List.forall_mem_singleton.2 (.inr hin))
  have hb : refusedAddress i s ≠ none := fun h =>
    hacc ⟨hin, refusedAddress_eq_none.1 h r (by simp [hr])⟩
  obtain ⟨x, hx⟩ := Option.ne_none_iff_exists'.1 hb
  have hcheck : check i s = some ⟨.eBus, some x⟩ := by rw [check_of_inRange hu ho hs hc, hx, Option.map_some]
  exact statusCode_of_check hexec hcheck

/-- R373, R374 and R377 for a command that needs SIMD_EN and has no condition of its own: which code each failing check
reports. -/
theorem statusCode_of_simd_range (hexec : exec i s = .next t) (hr : ranges i s = [r]) (hpos : 0 < r.size)
    (hu : unavail i s = !s.ctrl.getLsbD 2) (hs : seedTooShort i s = false) (hc : copyOverlaps i s = false) :
    (s.ctrl.getLsbD 2 = false → statusCode t.status = 2) ∧
    (s.ctrl.getLsbD 2 = true → 2 ^ 64 < r.base + r.size → statusCode t.status = 3) ∧
    (s.ctrl.getLsbD 2 = true → r.base + r.size ≤ 2 ^ 64 → ¬ Accessible s.params r.base r.size r.kind →
      statusCode t.status = 6) := by
  refine ⟨fun h => ?_, fun h htop => ?_, fun h hin hacc => ?_⟩
  · exact statusCode_of_check hexec (check_of_unavail (by rw [hu, h, Bool.not_false]))
  · exact statusCode_of_range_beyond_top hexec hr (by rw [hu, h, Bool.not_true]) hpos htop
  · exact statusCode_of_range_refused hexec hr (by rw [hu, h, Bool.not_true]) hs hc hin hacc

end OneRange

end Sys2Proof.Machine
end

section
/-! SUPPORT. Bytes read as a number and written back are the same bytes (00_scope.md R26), so every 64-byte value is a
window (44_simd_fold.md R327). -/

namespace Sys2Proof.Machine

theorem natBytes_leNat (bs : List Byte) : natBytes bs.length (leNat bs) = bs := by
  induction bs with
  | nil => rfl
  | cons b bs ih =>
    have hlow : BitVec.ofNat 8 (b.toNat + 256 * leNat bs) = b := by
      apply BitVec.eq_of_toNat_eq
      rw [BitVec.toNat_ofNat]
      omega
    have hhigh : (b.toNat + 256 * leNat bs) / 256 = leNat bs := by omega
    simp only [List.length_cons, natBytes, leNat, hlow, hhigh, ih]

theorem leNat_lt (bs : List Byte) : leNat bs < 256 ^ bs.length := by
  induction bs with
  | nil => exact Nat.one_pos
  | cons b bs ih =>
    rw [leNat, List.length_cons, pow_succ]
    omega

/-- bytes_n(le_n(B, i)) is the n bytes of B from i on. -/
theorem bytesLE_le {w n i : Nat} {bs : List Byte} (hw : w = 8 * n) (h : i + n ≤ bs.length) :
    bytesLE n (le w n bs i) = (bs.drop i).take n := by
  have hlen : ((bs.drop i).take n).length = n := by
    rw [List.length_take, List.length_drop]
    omega
  have hlt : leNat ((bs.drop i).take n) < 2 ^ w := by
    have := leNat_lt ((bs.drop i).take n)
    rwa [hlen, show 256 = 2 ^ 8 from rfl, ← pow_mul, ← hw] at this
  calc bytesLE n (le w n bs i)
      = natBytes n (leNat ((bs.drop i).take n)) := by rw [bytesLE, le, BitVec.toNat_ofNat, Nat.mod_eq_of_lt hlt]
    _ = natBytes ((bs.drop i).take n).length (leNat ((bs.drop i).take n)) := by rw [hlen]
    _ = (bs.drop i).take n := natBytes_leNat _

/-- The lanes loaded from 64 bytes serialize to those bytes (10_state.md R45). -/
theorem serFold_deserFold {bs : List Byte} (h : bs.length = 64) : serFold (deserFold bs) = bs := by
  have hlane : ∀ i, i + 16 ≤ 64 → bytesLE 16 (le 128 16 bs i) = (bs.drop i).take 16 :=
    fun i hi => bytesLE_le rfl (by omega)
  have hlast : (bs.drop 48).take 16 = bs.drop 48 := List.take_of_length_le (by rw [List.length_drop]; omega)
  have hstep : ∀ i, bs.drop i = (bs.drop i).take 16 ++ bs.drop (i + 16) := fun i => by
    rw [← List.drop_drop, List.take_append_drop]
  rw [serFold, deserFold, hlane 0 (by decide), hlane 16 (by decide), hlane 32 (by decide), hlane 48 (by decide),
    hlast, List.append_assoc, List.append_assoc, ← hstep 32, ← hstep 16, ← hstep 0, List.drop_zero]

theorem serFold_zero : serFold Fold.zero = zeros 64 := by decide

end Sys2Proof.Machine
end

section
/-! SUPPORT. The fold commands that feed no data: FOLD_INIT, FOLD_FINAL, FOLD_SAVE and FOLD_LOAD (44_simd_fold.md R322,
R325 to R327). Each needs SIMD_EN alone (R373). -/

namespace Sys2Proof.Machine

/-- A command that needs SIMD_EN and has no condition of its own runs its body once its ranges are accessible. -/
theorem exec_of_simd_accessible {i : Instr} {s : State} (hu : unavail i s = !s.ctrl.getLsbD 2)
    (h : s.ctrl.getLsbD 2 = true) (hs : seedTooShort i s = false) (hc : copyOverlaps i s = false)
    (hr : ∀ r ∈ ranges i s, Accessible s.params r.base r.size r.kind) :
    exec i s = .next (finish .ok (bodyOf i s).2 (bodyOf i s).1) :=
  exec_of_check_none (check_of_accessible (by rw [hu, h, Bool.not_true]) hs hc hr)

variable (s : State)

theorem unavail_foldInit : unavail .foldInit s = !s.ctrl.getLsbD 2 := rfl
theorem unavail_foldFinal : unavail .foldFinal s = !s.ctrl.getLsbD 2 := rfl
theorem unavail_foldSave : unavail .foldSave s = !s.ctrl.getLsbD 2 := rfl
theorem unavail_foldLoad : unavail .foldLoad s = !s.ctrl.getLsbD 2 := rfl

variable {s}

theorem exec_foldInit (h : s.ctrl.getLsbD 2 = true) :
    exec .foldInit s = .next (finish .ok .none (s.setFold Fold.zero)) :=
  exec_of_simd_accessible (unavail_foldInit s) h rfl rfl (List.forall_mem_nil _)

theorem exec_foldFinal (h : s.ctrl.getLsbD 2 = true) :
    exec .foldFinal s = .next (finish .ok .none (s.setAcc (reduceFold s.fold ^^^ M32))) :=
  exec_of_simd_accessible (unavail_foldFinal s) h rfl rfl (List.forall_mem_nil _)

theorem exec_foldSave (h : s.ctrl.getLsbD 2 = true) (hacc : Accessible s.params (dstOp s) 64 .write) :
    exec .foldSave s = .next (finish .ok .none (s.setMem (writeBytes s.mem (dstOp s) (serFold s.fold)))) :=
  exec_of_simd_accessible (unavail_foldSave s) h rfl rfl (List.forall_mem_singleton.2 hacc)

theorem exec_foldLoad (h : s.ctrl.getLsbD 2 = true) (hacc : Accessible s.params (srcOp s) 64 .read) :
    exec .foldLoad s = .next (finish .ok .none (s.setFold (deserFold (engineRead s 0 (srcOp s) 64)))) :=
  exec_of_simd_accessible (unavail_foldLoad s) h rfl rfl (List.forall_mem_singleton.2 hacc)

/-- A body that writes memory alone ends as the state with that memory. -/
theorem endsOk_finish_setMem (t : Tier) (s : State) (m : Memory) :
    EndsOk (tierBits t) { s with mem := (finish .ok t (s.setMem m)).mem } (finish .ok t (s.setMem m)) :=
  endsOk_finish t (s.setMem m)

theorem reduceFold_zero : reduceFold Fold.zero = 0 := by
  rw [reduceFold, serFold_zero, crcRaw_zero_zeros]

/-- The window of R323's worked example, which R325 reduces. -/
theorem reduceFold_example :
    reduceFold ⟨0, 0, 0, 0x666564636261393837363534CCCDCECF#128⟩ ^^^ M32 = 0x68C4F033#32 := by decide +kernel

end Sys2Proof.Machine
end

section
/-! SUPPORT. The statements about FOLD_INIT, FOLD_FINAL, FOLD_SAVE and FOLD_LOAD that are settled here (44_simd_fold.md R322,
R325 to R327). -/

namespace Sys2Proof.Proofs

open Machine

/-- Settles O53: the write range is the destination's 64 bytes, and memory reads back what a range write put there. -/
theorem foldSaveWritesTheWindow : Obligations.FoldSaveWritesTheWindow := by
  refine ⟨rfl, fun s h hwf hacc => ?_, fun s t hexec =>
    statusCode_of_simd_range hexec rfl (Nat.succ_pos 63) (unavail_foldSave s) rfl rfl⟩
  have hin : dstOp s + (serFold s.fold).length ≤ 2 ^ 64 := by rw [length_serFold]; exact hacc.1
  have hread := readBytes_writeBytes hwf hin
  rw [length_serFold] at hread
  refine ⟨_, exec_foldSave h hacc, endsOk_finish_setMem .none s _, ?_⟩
  rw [finish_mem, State.setMem_mem]
  exact ⟨hread, fun x hx => memRead_writeBytes_outside s.mem (by rwa [length_serFold])⟩

/-- Settles O54: the read range is the source's 64 bytes, and the lanes loaded from them serialize to them. -/
theorem foldLoadReadsTheWindow : Obligations.FoldLoadReadsTheWindow := by
  refine ⟨rfl, fun s h hacc => ?_, fun s t hexec =>
    statusCode_of_simd_range hexec rfl (Nat.succ_pos 63) (unavail_foldLoad s) rfl rfl⟩
  have hser := serFold_deserFold (length_engineRead s 0 (srcOp s) 64)
  exact ⟨_, exec_foldLoad h hacc, endsOk_finish .none (s.setFold (deserFold (engineRead s 0 (srcOp s) 64))), hser,
    fun hquiet => hser.trans (engineRead_quiet hquiet 0 (srcOp s) 64)⟩

/-- Settles O49: FOLD_INIT has no range, so SIMD_EN alone decides; the zero lanes are 64 zero bytes. -/
theorem foldInitClearsTheLanes : Obligations.FoldInitClearsTheLanes := by
  refine ⟨rfl, fun s => ⟨fun h => ?_, fun h => ?_⟩⟩
  · exact ⟨_, exec_foldInit h, endsOk_finish .none (s.setFold Fold.zero), serFold_zero, reduceFold_zero⟩
  · exact exec_of_unavail (by rw [unavail_foldInit, h, Bool.not_false])

/-- Settles O52: FOLD_FINAL has no range, so SIMD_EN alone decides; the zero lanes reduce to 0. -/
theorem foldFinalReducesTheWindow : Obligations.FoldFinalReducesTheWindow := by
  refine ⟨rfl, fun s => ⟨fun h => ?_, fun h => ?_⟩⟩
  · refine ⟨_, exec_foldFinal h, endsOk_finish .none (s.setAcc _), fun hzero => ?_, fun hexample => ?_⟩
    · rw [finish_acc, State.setAcc_acc, hzero, show (⟨0, 0, 0, 0⟩ : Fold) = Fold.zero from rfl, reduceFold_zero]
      rfl
    · rw [finish_acc, State.setAcc_acc, hexample, reduceFold_example]
  · exact exec_of_unavail (by rw [unavail_foldFinal, h, Bool.not_false])

end Sys2Proof.Proofs
end

section
/-! SUPPORT. The words that are not legal (30_encoding.md R107), and how a CMD write of one ends (60_exceptions.md R372). -/

namespace Sys2Proof

/-- `legal(w)` of R108 as a proposition, the tier read as a number. -/
theorem legal_eq_true_iff (w : Word) : legal w = true ↔
    rsvField w = 0 ∧ opField w ∈ [0x00#8, 0x01#8, 0x10#8, 0x11#8, 0x12#8, 0x13#8, 0x14#8, 0x15#8] ∧
      (if opField w = 0x01#8 then (tierField w).toNat ≤ 5 else tierField w = 0) ∧
      (injField w = false ∨ opField w = 0x11#8) := by
  simp only [legal, Bool.and_eq_true, beq_iff_eq, List.contains_iff_mem, Bool.or_eq_true, Bool.not_eq_true', and_assoc]
  split <;> simp [BitVec.le_def]

theorem exists_decode_eq_ok_iff_legal (w : Word) : (∃ i, decode w = .ok i) ↔ legal w = true :=
  (Proofs.decodesExactlyTheLegalWords w).trans (legal_eq_true_iff w).symm

theorem decode_of_not_legal {w : Word} (h : legal w = false) : ∃ r, decode w = .error r := by
  cases hd : decode w with
  | error r => exact ⟨r, rfl⟩
  | ok i => exact absurd ((exists_decode_eq_ok_iff_legal w).1 ⟨i, hd⟩) (by simp [h])

/-- The TIER values that OP = 0x01 does not take (R103). -/
theorem not_tier_le_five_iff (t : BitVec 3) : ¬ t.toNat ≤ 5 ↔ t = 6 ∨ t = 7 := by
  decide +revert

/-- The five cases of R107. -/
theorem legal_eq_false_iff (w : Word) : legal w = false ↔
    rsvField w ≠ 0 ∨ opField w ∉ [0x00#8, 0x01#8, 0x10#8, 0x11#8, 0x12#8, 0x13#8, 0x14#8, 0x15#8] ∨
      (opField w = 0x01#8 ∧ (tierField w = 6 ∨ tierField w = 7)) ∨ (opField w ≠ 0x01#8 ∧ tierField w ≠ 0) ∨
      (opField w ≠ 0x11#8 ∧ injField w = true) := by
  have hinj : ¬(injField w = false ∨ opField w = 0x11#8) ↔ opField w ≠ 0x11#8 ∧ injField w = true := by
    rw [not_or, Bool.not_eq_false, and_comm]
  rw [← Bool.not_eq_true, legal_eq_true_iff, not_and_or, not_and_or, not_and_or, hinj]
  by_cases hop : opField w = 0x01#8
  · simp only [hop, if_true, not_tier_le_five_iff, ne_eq, not_true_eq_false, true_and, false_and, false_or]
  · simp only [hop, if_false, ne_eq, not_false_eq_true, true_and, false_and, false_or]

namespace Machine

/-- A CMD write of a word that is not legal is the end with E_ILLEGAL (R372). -/
theorem runWord_of_not_legal {w : Word} (h : legal w = false) (s : State) :
    runWord w s = .next (raiseFault .eIllegal none (startWord w s)) := by
  obtain ⟨r, hr⟩ := decode_of_not_legal h
  simp [runWord, hr]

theorem step_cmdWrite {s : State} {w : Word} {rest : List HostEvent} (hp : s.pending = .write 0x00 4 w :: rest)
    (hidle : s.seq = .idle) : step s = runWord w { s with pending := rest } := by
  rw [step_write hp hidle rfl (by decide), hostWrite_cmd]

/-- The end with E_ILLEGAL leaves all but CMD, the counter of free values and STATUS (R379). -/
theorem endsFault_illegal (w : Word) (s : State) :
    EndsFault 1 { s with cmd := w, draws := (raiseFault .eIllegal none (startWord w s)).draws }
      (raiseFault .eIllegal none (startWord w s)) :=
  ⟨rfl, finished_statusAfter .eIllegal .none s.status⟩

end Machine

end Sys2Proof
end

section
/-! SUPPORT. The refused bytes of a command: the address the E_BUS check records is the lowest of them (60_exceptions.md
R377). -/

namespace Sys2Proof.Machine

theorem admitted_eq_false {p : Params} {x : Nat} {k : AccessKind} : admitted p x k = false ↔
    admits p x k = false ∨ (p.engineBase.toNat ≤ x ∧ x < p.engineBase.toNat + 0x40) := by
  cases h : admits p x k <;> simp [admitted, inRegisterBlock, h]

/-- The bytes of a range that are not admitted (20_memory.md R72). -/
def MemRange.refusedBytes (p : Params) (r : MemRange) : Set Nat :=
  {x | r.base ≤ x ∧ x < r.base + r.size ∧ admitted p x r.kind = false}

theorem refuses_iff {i : Instr} {s : State} {x : Nat} :
    Refuses i s x ↔ ∃ r ∈ ranges i s, x ∈ r.refusedBytes s.params := by
  simp only [Refuses, MemRange.refusedBytes, Set.mem_ofPred_eq, admitted_eq_false]

/-- The address, if there is one, is the least of a set of addresses. -/
def IsLowest (S : Set Nat) : Option Nat → Prop
  | none => S = ∅
  | some x => IsLeast S x

theorem IsLowest.union {S T : Set Nat} {x y : Option Nat} (hx : IsLowest S x) (hy : IsLowest T y) :
    IsLowest (S ∪ T) (lower x y) := by
  match x, y with
  | none, y =>
    obtain rfl : S = ∅ := hx
    rwa [Set.empty_union]
  | some x, none =>
    obtain rfl : T = ∅ := hy
    rwa [Set.union_empty]
  | some x, some y => exact IsLeast.union hx hy

theorem isLowest_lowestRefused (p : Params) (r : MemRange) :
    IsLowest (r.refusedBytes p) (lowestRefused p r.kind r.base r.size) := by
  cases h : lowestRefused p r.kind r.base r.size with
  | none =>
    have hall := lowestRefused_none.1 h
    refine Set.eq_empty_of_forall_notMem fun x ⟨hlo, hhi, hx⟩ => ?_
    have hadm := hall (x - r.base) (by omega)
    rw [Nat.add_sub_cancel' hlo, hx] at hadm
    cases hadm
  | some x =>
    obtain ⟨hlo, hhi, hx, hbelow⟩ := lowestRefused_some h
    refine ⟨⟨hlo, hhi, hx⟩, fun y ⟨hy, _, hrefused⟩ => ?_⟩
    by_contra hlt
    rw [hbelow y hy (Nat.lt_of_not_le hlt)] at hrefused
    cases hrefused

/-- `min(bad)` of R378. -/
theorem isLowest_refusedAddress (i : Instr) (s : State) : IsLowest {x | Refuses i s x} (refusedAddress i s) := by
  simp only [refuses_iff]
  unfold refusedAddress
  induction ranges i s with
  | nil => simp [IsLowest]
  | cons r rs ih =>
    simp only [List.exists_mem_cons_iff, Set.ofPred_or]
    exact (isLowest_lowestRefused s.params r).union ih

theorem refusedAddress_eq_none_iff {i : Instr} {s : State} : refusedAddress i s = none ↔ ∀ x, ¬ Refuses i s x := by
  have hlow := isLowest_refusedAddress i s
  cases h : refusedAddress i s with
  | none =>
    rw [h] at hlow
    simpa using Set.eq_empty_iff_forall_notMem.1 hlow
  | some x =>
    rw [h] at hlow
    simpa using ⟨x, hlow.1⟩

theorem isLeast_of_refusedAddress {i : Instr} {s : State} {x : Nat} (h : refusedAddress i s = some x) :
    IsLeast {y | Refuses i s y} x := by
  have hlow := isLowest_refusedAddress i s
  rwa [h] at hlow

theorem refusedAddress_of_isLeast {i : Instr} {s : State} {x : Nat} (h : IsLeast {y | Refuses i s y} x) :
    refusedAddress i s = some x := by
  cases hr : refusedAddress i s with
  | none => exact absurd h.1 (refusedAddress_eq_none_iff.1 hr x)
  | some y => rw [(isLeast_of_refusedAddress hr).unique h]

/-- A refused byte of ranges that end by the top is an address. -/
theorem lt_of_refuses {i : Instr} {s : State} {x : Nat} (ho : outOfRange i s = false) (h : Refuses i s x) :
    x < 2 ^ 64 := by
  obtain ⟨r, hr, hlo, hhi, -⟩ := h
  have := outOfRange_eq_false.1 ho r hr
  omega

/-! ### FADDR -/

theorem toNat_ofNat_append {x : Nat} (h : x < 2 ^ 64) :
    (BitVec.ofNat 32 (x / 2 ^ 32) ++ BitVec.ofNat 32 x).toNat = x := by
  have hlow : x % 2 ^ 32 < 2 ^ 32 := Nat.mod_lt x (by decide)
  rw [BitVec.toNat_append, BitVec.toNat_ofNat, BitVec.toNat_ofNat, ← Nat.shiftLeft_add_eq_or_of_lt hlow,
    Nat.shiftLeft_eq]
  omega

/-- The pair holds the recorded address. -/
theorem faddr_raiseFault (code : ResultCode) {x : Nat} (h : x < 2 ^ 64) (s : State) :
    ((raiseFault code (some x) s).faddrHi ++ (raiseFault code (some x) s).faddrLo).toNat = x :=
  toNat_ofNat_append h

end Sys2Proof.Machine
end

section
/-! SUPPORT. The faults of the checks: what each condition says (60_exceptions.md R373 to R376), which fault the checks
raise and what it leaves (R378, R379), and what a reported code tells of the conditions. -/

namespace Sys2Proof.Machine

/-! ### The conditions -/

/-- The commands that need SIMD_EN (R373). -/
abbrev simdCommands : List Instr :=
  [.crc32Simd, .foldInit, .foldUpdate false, .foldUpdate true, .foldCopy, .foldFinal, .foldSave, .foldLoad]

section Conditions

variable {i : Instr} {s : State}

theorem unavail_of_simd (hi : i ∈ simdCommands) : unavail i s = !s.ctrl.getLsbD 2 := by
  simp only [List.mem_cons, List.not_mem_nil, or_false] at hi
  obtain rfl | rfl | rfl | rfl | rfl | rfl | rfl | rfl := hi <;> rfl

theorem unavail_of_simdEn (hi : i ∈ simdCommands) (h : s.ctrl.getLsbD 2 = true) : unavail i s = false := by
  rw [unavail_of_simd hi, h, Bool.not_true]

theorem unavail_of_chorba (hi : i ∈ [.crc32ChorbaS, .crc32ChorbaL]) : unavail i s = !s.ctrl.getLsbD 1 := by
  simp only [List.mem_cons, List.not_mem_nil, or_false] at hi
  obtain rfl | rfl := hi <;> rfl

theorem unavail_of_noEnable (hi : i ∈ [.nop, .crc32Auto, .crc32Scalar]) : unavail i s = false := by
  simp only [List.mem_cons, List.not_mem_nil, or_false] at hi
  obtain rfl | rfl | rfl := hi <;> rfl

theorem ranges_of_source (hi : i ∈ .foldUpdate false :: .foldUpdate true :: crc32Commands) :
    ranges i s = [⟨srcOp s, lenOp s, .read⟩] := by
  simp only [List.mem_cons, List.not_mem_nil, or_false] at hi
  obtain rfl | rfl | rfl | rfl | rfl | rfl | rfl | rfl := hi <;> rfl

theorem srcOp_lt (s : State) : srcOp s < 2 ^ 64 := (s.srcHi ++ s.srcLo).isLt

theorem dstOp_lt (s : State) : dstOp s < 2 ^ 64 := (s.dstHi ++ s.dstLo).isLt

/-- A range whose base is an address is not empty if it passes the top. -/
theorem outOfRange_of_mem {r : MemRange} (hr : r ∈ ranges i s) (hbase : r.base < 2 ^ 64)
    (htop : 2 ^ 64 < r.base + r.size) : outOfRange i s = true := by
  by_contra h
  have := outOfRange_eq_false.1 (Bool.eq_false_iff.2 h) r hr
  omega

/-- R375 on the operands: only a FOLD_UPDATE with INJ = 1 injects a seed. -/
theorem seedTooShort_eq_true :
    seedTooShort i s = true ↔ i = .foldUpdate true ∧ s.acc ^^^ M32 ≠ 0 ∧ lenOp s < foldMinSeeded := by
  cases i with
  | foldUpdate inj => cases inj <;> simp [seedTooShort, injected]
  | _ => simp [seedTooShort]

/-- R376 on the operands. -/
theorem copyOverlaps_eq_true : copyOverlaps i s = true ↔
    i = .foldCopy ∧ 0 < lenOp s ∧ srcOp s < dstOp s + lenOp s ∧ dstOp s < srcOp s + lenOp s := by
  cases i with
  | foldCopy => simp [copyOverlaps, and_assoc]
  | _ => simp [copyOverlaps]

/-- With CTRL within CAP, an enable whose tier is not built in is 0 (10_state.md R35). -/
theorem getLsbD_eq_false_of_capWord {p : Params} {ctrl : Word} {k : Nat} (h : ctrl &&& ~~~ capTiers p = 0) (hk : k < 32)
    (hcap : (capWord p).getLsbD k = false) : ctrl.getLsbD k = false := by
  have hbit : (ctrl &&& ~~~ capTiers p).getLsbD k = false := by rw [h]; exact BitVec.getLsbD_zero
  rwa [BitVec.getLsbD_and, BitVec.getLsbD_not, capTiers, BitVec.getLsbD_and, hcap, Bool.false_and, Bool.not_false,
    Bool.and_true, decide_eq_true hk, Bool.and_true] at hbit

end Conditions

/-! ### The checks -/

section Check

variable {i : Instr} {s t : State} {f : Raised}

theorem check_of_seedTooShort (hu : unavail i s = false) (ho : outOfRange i s = false) (h : seedTooShort i s = true) :
    check i s = some ⟨.eSeed, none⟩ := by
  simp [check, hu, ho, h]

theorem check_of_copyOverlaps (hu : unavail i s = false) (ho : outOfRange i s = false) (hs : seedTooShort i s = false)
    (h : copyOverlaps i s = true) : check i s = some ⟨.eOverlap, none⟩ := by
  simp [check, hu, ho, hs, h]

theorem check_of_refusedAddress {x : Nat} (hu : unavail i s = false) (ho : outOfRange i s = false)
    (hs : seedTooShort i s = false) (hc : copyOverlaps i s = false) (h : refusedAddress i s = some x) :
    check i s = some ⟨.eBus, some x⟩ := by
  rw [check_of_inRange hu ho hs hc, h, Option.map_some]

/-- The faults the checks raise: one constructor per condition, with the condition that holds. -/
inductive Raises (i : Instr) (s : State) : Raised → Prop where
  | unavail (h : unavail i s = true) : Raises i s ⟨.eUnavail, none⟩
  | range (h : outOfRange i s = true) : Raises i s ⟨.eRange, none⟩
  | seed (h : seedTooShort i s = true) : Raises i s ⟨.eSeed, none⟩
  | overlap (h : copyOverlaps i s = true) : Raises i s ⟨.eOverlap, none⟩
  | bus {x : Nat} (inRange : outOfRange i s = false) (h : refusedAddress i s = some x) : Raises i s ⟨.eBus, some x⟩

theorem raises_of_check (h : check i s = some f) : Raises i s f := by
  cases hu : unavail i s with
  | true =>
    cases (check_of_unavail hu).symm.trans h
    exact .unavail hu
  | false =>
  cases ho : outOfRange i s with
  | true =>
    cases (check_of_outOfRange hu ho).symm.trans h
    exact .range ho
  | false =>
  cases hs : seedTooShort i s with
  | true =>
    cases (check_of_seedTooShort hu ho hs).symm.trans h
    exact .seed hs
  | false =>
  cases hc : copyOverlaps i s with
  | true =>
    cases (check_of_copyOverlaps hu ho hs hc).symm.trans h
    exact .overlap hc
  | false =>
    obtain ⟨x, hx, rfl⟩ := Option.map_eq_some_iff.1 ((check_of_inRange hu ho hs hc).symm.trans h)
    exact .bus ho hx

/-! ### The end with a fault -/

/-- A fault leaves all but STATUS, the sequencer's state and FADDR. -/
theorem endsFault_raiseFault (code : ResultCode) (info : Option Nat) (s : State) :
    EndsFault (codeBits code)
      { s with faddrLo := (raiseFault code info s).faddrLo, faddrHi := (raiseFault code info s).faddrHi }
      (raiseFault code info s) := by
  have hend := finished_statusAfter code .none s.status
  rw [reportedTier, ite_self] at hend
  cases info <;> exact ⟨rfl, hend⟩

/-- A fault that records no address leaves FADDR too. -/
theorem exec_of_check_noInfo {code : ResultCode} (h : check i s = some ⟨code, none⟩) :
    ∃ t, exec i s = .next t ∧ EndsFault (codeBits code) s t :=
  ⟨_, exec_of_check_some h, endsFault_raiseFault code none s⟩

/-- An available command with a range that passes the top ends with E_RANGE (R374). -/
theorem exec_of_range_beyond_top {r : MemRange} (hu : unavail i s = false) (hr : r ∈ ranges i s)
    (hbase : r.base < 2 ^ 64) (htop : 2 ^ 64 < r.base + r.size) : ∃ t, exec i s = .next t ∧ EndsFault 3 s t :=
  exec_of_check_noInfo (check_of_outOfRange hu (outOfRange_of_mem hr hbase htop))

/-! ### What a reported code tells -/

/-- No two result codes have the same encoding (R371). -/
theorem codeBits_injective : Function.Injective codeBits := by
  intro a b h
  cases a <;> cases b <;> simp [codeBits] at h ⊢

theorem statusCode_of_check_none (hexec : exec i s = .next t) (h : check i s = none) : statusCode t.status = 0 := by
  obtain rfl := Host.Outcome.next.inj ((exec_of_check_none h).symm.trans hexec)
  exact statusCode_statusAfter .ok _ _

/-- A command that reports a fault's code had that fault raised by its checks. -/
theorem raises_of_statusCode {code : ResultCode} (hcode : code ≠ .ok) (hexec : exec i s = .next t)
    (h : statusCode t.status = codeBits code) : ∃ info, Raises i s ⟨code, info⟩ := by
  cases hcheck : check i s with
  | none =>
    have hok : codeBits code = codeBits .ok := h.symm.trans (statusCode_of_check_none hexec hcheck)
    exact absurd (codeBits_injective hok) hcode
  | some f =>
    obtain rfl : f.code = code := codeBits_injective ((statusCode_of_check hexec hcheck).symm.trans h)
    exact ⟨f.info, raises_of_check hcheck⟩

theorem unavail_of_statusCode (hexec : exec i s = .next t) (h : statusCode t.status = 2) : unavail i s = true := by
  obtain ⟨_, hraise⟩ := raises_of_statusCode (code := .eUnavail) (by decide) hexec h
  cases hraise with
  | unavail hcond => exact hcond

theorem outOfRange_of_statusCode (hexec : exec i s = .next t) (h : statusCode t.status = 3) :
    outOfRange i s = true := by
  obtain ⟨_, hraise⟩ := raises_of_statusCode (code := .eRange) (by decide) hexec h
  cases hraise with
  | range hcond => exact hcond

theorem seedTooShort_of_statusCode (hexec : exec i s = .next t) (h : statusCode t.status = 4) :
    seedTooShort i s = true := by
  obtain ⟨_, hraise⟩ := raises_of_statusCode (code := .eSeed) (by decide) hexec h
  cases hraise with
  | seed hcond => exact hcond

theorem copyOverlaps_of_statusCode (hexec : exec i s = .next t) (h : statusCode t.status = 5) :
    copyOverlaps i s = true := by
  obtain ⟨_, hraise⟩ := raises_of_statusCode (code := .eOverlap) (by decide) hexec h
  cases hraise with
  | overlap hcond => exact hcond

end Check

end Sys2Proof.Machine
end

section
/-! SUPPORT. The statements about faults and result codes that are settled here (60_exceptions.md R372 to R379). -/

namespace Sys2Proof.Proofs

open Machine

/-- Settles O5: the word decodes to no command, so its CMD write is the end with E_ILLEGAL. -/
theorem illegalWordEndsWithEIllegal : Obligations.IllegalWordEndsWithEIllegal := by
  refine ⟨legal_eq_false_iff, fun s w rest hp hidle hw => ?_⟩
  exact ⟨_, (step_cmdWrite hp hidle).trans (runWord_of_not_legal hw _), endsFault_illegal w { s with pending := rest }⟩

/-- Settles O20: only the E_BUS check records an address, and past the range check that address fits FADDR. -/
theorem faultChangesNothingElse : Obligations.FaultChangesNothingElse := by
  constructor
  · intro i s f hcheck
    refine ⟨_, exec_of_check_some hcheck, ?_⟩
    cases raises_of_check hcheck with
    | unavail | range | seed | overlap =>
      exact ⟨fun _ => endsFault_raiseFault _ none s, fun hbus => by cases hbus⟩
    | @bus x hin hx =>
      have hlt : x < 2 ^ 64 := lt_of_refuses hin (isLeast_of_refusedAddress hx).1
      exact ⟨fun hne => absurd rfl hne, fun _ =>
        ⟨endsFault_raiseFault .eBus (some x) s, congrArg some (faddr_raiseFault .eBus hlt s).symm⟩⟩
  · exact fun s w hw => ⟨_, runWord_of_not_legal hw s, endsFault_illegal w s⟩

/-- Settles O21: each command's enable is one bit of CTRL, and a bit of CTRL within CAP is 0 where CAP's is. -/
theorem disabledTierEndsWithEUnavail : Obligations.DisabledTierEndsWithEUnavail := by
  refine ⟨fun s h => ?_, fun i s hi h => ?_, fun i s hi h => ?_, fun i s t hi hexec hcode => ?_, fun s hctrl => ?_⟩
  · have hu : unavail .crc32Braid s = !s.ctrl.getLsbD 0 := rfl
    exact exec_of_unavail (by rw [hu, h, Bool.not_false])
  · exact exec_of_unavail (by rw [unavail_of_chorba hi, h, Bool.not_false])
  · exact exec_of_unavail (by rw [unavail_of_simd hi, h, Bool.not_false])
  · have hu := unavail_of_statusCode hexec hcode
    rw [unavail_of_noEnable hi] at hu
    cases hu
  · exact ⟨fun h => getLsbD_eq_false_of_capWord hctrl (by decide) ((getLsbD_capWord s.params 0).trans h),
      fun h => getLsbD_eq_false_of_capWord hctrl (by decide) ((getLsbD_capWord s.params 1).trans h),
      fun h => getLsbD_eq_false_of_capWord hctrl (by decide) ((getLsbD_capWord s.params 2).trans h)⟩

/-- Settles O22: SRC and DST are addresses, so a range that passes the top is not empty, and the range check comes right
after the enables. -/
theorem rangeBeyondTheTopEndsWithERange : Obligations.RangeBeyondTheTopEndsWithERange := by
  refine ⟨fun i s hi hu htop => ?_, fun s h htop => ?_, fun s h htop => ?_, fun s h htop => ?_,
    fun i s t hexec hin hcode => ?_⟩
  · exact exec_of_range_beyond_top hu (r := ⟨srcOp s, lenOp s, .read⟩) (by simp [ranges_of_source hi]) (srcOp_lt s) htop
  · have hu : unavail .foldCopy s = false := unavail_of_simdEn (by decide) h
    obtain htop | htop := htop
    · exact exec_of_range_beyond_top hu (r := ⟨srcOp s, lenOp s, .read⟩) (by simp [ranges]) (srcOp_lt s) htop
    · exact exec_of_range_beyond_top hu (r := ⟨dstOp s, lenOp s, .write⟩) (by simp [ranges]) (dstOp_lt s) htop
  · exact exec_of_range_beyond_top (unavail_of_simdEn (by decide) h) (List.mem_singleton_self _) (dstOp_lt s) htop
  · exact exec_of_range_beyond_top (unavail_of_simdEn (by decide) h) (List.mem_singleton_self _) (srcOp_lt s) htop
  · have ho := outOfRange_of_statusCode hexec hcode
    rw [outOfRange_eq_false.2 hin] at ho
    cases ho

/-- Settles O23: with the range legal, the seed check comes next, and only its condition gives code 4. -/
theorem shortSeededUpdateEndsWithESeed : Obligations.ShortSeededUpdateEndsWithESeed := by
  refine ⟨fun s h hin hseed hlen => ?_, fun i s t hexec hcode => ?_⟩
  · have hu : unavail (.foldUpdate true) s = false := unavail_of_simdEn (by decide) h
    have ho : outOfRange (.foldUpdate true) s = false := outOfRange_eq_false.2 (List.forall_mem_singleton.2 (.inr hin))
    exact exec_of_check_noInfo (check_of_seedTooShort hu ho (seedTooShort_eq_true.2 ⟨rfl, hseed, hlen⟩))
  · exact seedTooShort_eq_true.1 (seedTooShort_of_statusCode hexec hcode)

/-- Settles O24: with both ranges legal, the overlap check comes next, and only its condition gives code 5. -/
theorem overlappingCopyEndsWithEOverlap : Obligations.OverlappingCopyEndsWithEOverlap := by
  refine ⟨fun s h hsrc hdst hpos hlow hhigh => ?_, fun i s t hexec hcode => ?_⟩
  · have hu : unavail .foldCopy s = false := unavail_of_simdEn (by decide) h
    have ho : outOfRange .foldCopy s = false :=
      outOfRange_eq_false.2 (List.forall_mem_cons.2 ⟨.inr hsrc, List.forall_mem_singleton.2 (.inr hdst)⟩)
    exact exec_of_check_noInfo (check_of_copyOverlaps hu ho rfl (copyOverlaps_eq_true.2 ⟨rfl, hpos, hlow, hhigh⟩))
  · exact copyOverlaps_eq_true.1 (copyOverlaps_of_statusCode hexec hcode)

/-- Settles O25: the address the E_BUS check records is the least of the refused ones. -/
theorem refusedByteEndsWithEBus : Obligations.RefusedByteEndsWithEBus := by
  intro i s x hu ho hs hc hx hbelow
  have hleast : IsLeast {y | Refuses i s y} x := ⟨hx, fun y hy => Nat.le_of_not_lt fun hlt => hbelow y hlt hy⟩
  have hcheck := check_of_refusedAddress hu ho hs hc (refusedAddress_of_isLeast hleast)
  exact ⟨_, exec_of_check_some hcheck, faddr_raiseFault .eBus (lt_of_refuses ho hx) s,
    endsFault_raiseFault .eBus (some x) s⟩

/-- Settles O26: each code is that of the check the conditions before it lead to. -/
theorem reportedCodeFollowsThePriority : Obligations.ReportedCodeFollowsThePriority := by
  constructor
  · intro i s t hexec
    refine ⟨fun hu => ?_, fun hu ho => ?_, fun hu ho hs => ?_, fun hu ho hs hc => ?_, fun hu ho hs hc hbus => ?_,
      fun hu ho hs hc hbus => ?_⟩
    · exact statusCode_of_check hexec (check_of_unavail hu)
    · exact statusCode_of_check hexec (check_of_outOfRange hu ho)
    · exact statusCode_of_check hexec (check_of_seedTooShort hu ho hs)
    · exact statusCode_of_check hexec (check_of_copyOverlaps hu ho hs hc)
    · obtain ⟨x, hx⟩ := hbus
      obtain ⟨a, ha⟩ := Option.ne_none_iff_exists'.1 fun hnone => refusedAddress_eq_none_iff.1 hnone x hx
      exact statusCode_of_check hexec (check_of_refusedAddress hu ho hs hc ha)
    · have hcheck : check i s = none := by
        rw [check_of_inRange hu ho hs hc, refusedAddress_eq_none_iff.2 hbus, Option.map_none]
      exact statusCode_of_check_none hexec hcheck
  · intro s t w rest hp hidle hw hstep
    obtain rfl := Host.Outcome.next.inj (((step_cmdWrite hp hidle).trans (runWord_of_not_legal hw _)).symm.trans hstep)
    exact statusCode_raiseFault .eIllegal none _

end Sys2Proof.Proofs
end

section
/-! SUPPORT. Reset: the values it leaves, and the memory a reset that abandons a command leaves (70_reset_and_hazards.md
R410, R411). -/

namespace Sys2Proof.Machine

/-! ### The values of reset (R410) -/

theorem readReg_applyReset {r : Reg} (hctrl : r ≠ .ctrl) (hcap : r ≠ .cap) (s : State) :
    readReg r (applyReset s) = 0 := by
  cases r with
  | ctrl => exact absurd rfl hctrl
  | cap => exact absurd rfl hcap
  | cmd | status | acc | lenLo | lenHi | srcLo | srcHi | dstLo | dstHi | faddrLo | faddrHi => rfl

theorem readReg_ctrl_applyReset (s : State) : readReg .ctrl (applyReset s) = capWord s.params &&& 7#32 := rfl

theorem readReg_cap_applyReset (s : State) : readReg .cap (applyReset s) = capWord s.params := rfl

theorem capWord_default : capWord {} = 0x0000050F#32 := by decide

theorem hasResetValues_applyReset (s : State) : HasResetValues s.params (applyReset s) := by
  refine ⟨fun r hctrl hcap => readReg_applyReset hctrl hcap s, readReg_ctrl_applyReset s, readReg_cap_applyReset s,
    fun off hoff => ?_, rfl, reduceFold_zero, rfl⟩
  obtain ⟨-, -, hreg⟩ := reservedSlot hoff
  exact readOffset_of_noReg hreg _

/-! ### Serving a reset -/

/-- A reset while idle is no register access, so it never waits (R52). -/
theorem step_reset {s : State} {rest : List HostEvent} (hp : s.pending = .reset :: rest) :
    step s = .next (applyReset { s with pending := rest }) := by
  simp [step, serve, hp, isRegisterAccess, handle]

theorem step_commandReset {s : State} {w : Word} {rest : List HostEvent} (hp : s.pending = .commandReset w :: rest)
    (hidle : s.seq = .idle) : step s = .next (abandonWord w { s with pending := rest }) :=
  step_of_idle hp hidle

/-! ### A reset that abandons a command (R411) -/

/-- `x` lies outside the write range of the command of word `w`; an illegal word has none. -/
def OutsideWriteRange (w : Word) (s : State) (x : Nat) : Prop :=
  ∀ i, decode w = .ok i → ∀ r ∈ ranges i s, r.kind = .write → x < r.base ∨ r.base + r.size ≤ x

/-- The ranges come from the operand registers, not from the queue of events. -/
theorem ranges_pending (i : Instr) (s : State) (rest : List HostEvent) :
    ranges i { s with pending := rest } = ranges i s := rfl

theorem outsideWriteRange_pending {w : Word} {s : State} {rest : List HostEvent} {x : Nat} :
    OutsideWriteRange w { s with pending := rest } x ↔ OutsideWriteRange w s x := by
  simp only [OutsideWriteRange, ranges_pending]

/-- Whatever the word, the abandoned command leaves a reset state, with a memory that differs in its write range alone. -/
theorem abandonWord_eq_applyReset (w : Word) (s : State) :
    ∃ m, abandonWord w s = applyReset (s.setMem m) ∧ ∀ x, OutsideWriteRange w s x → memRead m x = memRead s.mem x := by
  unfold abandonWord
  split
  case h_1 i hdecode =>
    exact ⟨_, rfl, fun x hx => memRead_scrambleWrites_outside _ _ (hx i hdecode)⟩
  case h_2 => exact ⟨s.mem, rfl, fun _ _ => rfl⟩

end Sys2Proof.Machine
end

section
/-! SUPPORT. The statements about reset that are settled here (70_reset_and_hazards.md R410, R411). -/

namespace Sys2Proof.Proofs

open Machine

/-- Settles O11: the abandoned command's state is a reset of the old one with only its write range scrambled. -/
theorem resetDuringACommandLeavesOtherBytes : Obligations.ResetDuringACommandLeavesOtherBytes := by
  intro s w rest hp hidle
  obtain ⟨m, habandon, hmem⟩ := abandonWord_eq_applyReset w { s with pending := rest }
  have hstep := (step_commandReset hp hidle).trans (congrArg _ habandon)
  exact ⟨_, hstep, hasResetValues_applyReset _, fun x hx => hmem x (outsideWriteRange_pending.2 hx)⟩

/-- Settles O7: a reset is served from every state, and CAP and CTRL after it are read off the parameters. -/
theorem resetEventGivesEveryInstanceItsValues : Obligations.ResetEventGivesEveryInstanceItsValues := by
  intro s rest hp
  refine ⟨_, step_reset hp, hasResetValues_applyReset _, fun hparams => ?_⟩
  rw [readReg_cap_applyReset, readReg_ctrl_applyReset, hparams, capWord_default]
  exact ⟨rfl, rfl⟩

end Sys2Proof.Proofs
end

section
/-! SUPPORT. The encoder inverts the decoder: a legal word is its fields put together, and each level of the decoder keeps
the fields of the command it selects (30_encoding.md R101, R106). -/

namespace Sys2Proof

theorem decode_encode (i : Instr) : decode (encode i) = .ok i := by
  cases i with
  | foldUpdate inj => exact (Laws.RoundTrip.foldUpdate inj).2.2
  | nop | crc32Auto | crc32Scalar | crc32Braid | crc32ChorbaS | crc32ChorbaL | crc32Simd | foldInit | foldCopy
  | foldFinal | foldSave | foldLoad => rfl

/-- A word whose RSV is 0 is the command word of its fields (R101). -/
theorem commandWord_fields {w : Word} (h : rsvField w = 0) :
    commandWord (injField w) (tierField w) (opField w) = w := by
  ext k hk
  have hbit : ∀ j, 12 ≤ j → w.getLsbD j = false := by
    intro j hj
    by_cases hlt : j < 32
    · have hrsv : (rsvField w).getLsbD (j - 12) = false := by rw [h]; exact BitVec.getLsbD_zero
      rwa [rsvField, BitVec.getLsbD_extractLsb', decide_eq_true (by omega), Bool.true_and,
        Nat.add_sub_cancel' hj] at hrsv
    · exact BitVec.getLsbD_of_ge w j (Nat.le_of_not_lt hlt)
  rw [← BitVec.getLsbD_eq_getElem, ← BitVec.getLsbD_eq_getElem, commandWord]
  simp only [BitVec.getLsbD_append, opField, tierField, injField, BitVec.getLsbD_extractLsb']
  by_cases h8 : k < 8
  · simp [h8]
  · by_cases h11 : k < 11
    · have : k - 8 < 3 ∧ 8 + (k - 8) = k := by omega
      simp [h8, this]
    · by_cases h12 : k = 11
      · subst h12
        simp
      · rw [hbit k (by omega)]
        simp [h8, show ¬ k - 8 < 3 by omega, show ¬ k - 8 - 3 < 1 by omega]

theorem encode_of_decodeTier {t : BitVec 3} {i : Instr} (h : decodeTier t = .ok i) :
    encode i = commandWord false t 0x01 := by
  have hvalues : ∀ u : BitVec 3, u = 0 ∨ u = 1 ∨ u = 2 ∨ u = 3 ∨ u = 4 ∨ u = 5 ∨ u = 6 ∨ u = 7 := by decide
  obtain rfl | rfl | rfl | rfl | rfl | rfl | rfl | rfl := hvalues t <;> cases h <;> rfl

/-- INJ is part of the command only with OP = 0x11; with every other OP it is 0 (R104). -/
theorem encode_of_decodeOp {op : BitVec 8} {inj : Bool} {i : Instr} (h : decodeOp op inj = some i)
    (hinj : inj = false ∨ op = 0x11) : encode i = commandWord inj 0 op := by
  have hop := (exists_decodeOp_eq_some_iff op inj).1 ⟨i, h⟩
  simp only [List.mem_cons, List.not_mem_nil, or_false] at hop
  obtain rfl | hinj := hinj
  · obtain rfl | rfl | rfl | rfl | rfl | rfl | rfl := hop <;> cases h <;> rfl
  · subst hinj
    cases h
    rfl

theorem encode_of_decode {w : Word} {i : Instr} (h : decode w = .ok i) : encode i = w := by
  by_cases hop : opField w = 0x01
  · obtain ⟨hrsv, hinj, htier⟩ := (decode_eq_ok_iff_of_crcOp hop i).1 h
    rw [encode_of_decodeTier htier, ← hop, ← hinj, commandWord_fields hrsv]
  · obtain ⟨hrsv, hopi, htier, hinj⟩ := (decode_eq_ok_iff_of_otherOp hop i).1 h
    rw [encode_of_decodeOp hopi hinj, ← htier, commandWord_fields hrsv]

theorem decode_eq_ok_iff (w : Word) (i : Instr) : decode w = .ok i ↔ encode i = w :=
  ⟨encode_of_decode, fun h => h ▸ decode_encode i⟩

/-! ### Bits of any length -/

/-- The model decodes a row of bits as the word they spell, if there are 32 of them (R100). -/
theorem decodeTableWord_eq_some {nbits w : Nat} {i : Instr} :
    decodeTableWord nbits w = some i ↔ (nbits = 32 ∧ w < 2 ^ 32) ∧ decode (BitVec.ofNat 32 w) = .ok i := by
  unfold decodeTableWord
  split
  · next hlen =>
    rw [and_iff_right hlen]
    cases decode (BitVec.ofNat 32 w) <;> simp
  · next hlen => simp only [hlen, reduceCtorEq, false_and]

namespace Machine

/-- Four bytes are the width of the 32-bit words alone (R100). -/
theorem deliveryWidth_ne_four {nbits w : Nat} (h : nbits ≠ 32 ∨ 2 ^ 32 ≤ w) : deliveryWidth nbits w ≠ 4 := by
  unfold deliveryWidth
  split
  · next hfit =>
    intro hfour
    obtain rfl : nbits = 32 := by omega
    omega
  · decide

theorem deliveryWidth_of_word {w : Nat} (h : w < 2 ^ 32) : deliveryWidth 32 w = 4 := if_pos ⟨rfl, h⟩

end Machine

end Sys2Proof
end

section
/-! SUPPORT. The statements about command words that are settled here (30_encoding.md R100, R101, R106; 40_dispatcher.md
R150). -/

namespace Sys2Proof.Proofs

open Machine

/-- Settles O2: encoding a decoded command puts the word's own fields together again. -/
theorem decodeInvertsEncode : Obligations.DecodeInvertsEncode := decode_eq_ok_iff

/-- Settles O1: the fourteen words are the encoder's, which the decoder reads back. -/
theorem commandWordsDecodeAsTabled : Obligations.CommandWordsDecodeAsTabled :=
  ⟨decode_encode .nop, decode_encode .crc32Auto, decode_encode .crc32Scalar, decode_encode .crc32Braid,
    decode_encode .crc32ChorbaS, decode_encode .crc32ChorbaL, decode_encode .crc32Simd, decode_encode .foldInit,
    decode_encode (.foldUpdate false), decode_encode (.foldUpdate true), decode_encode .foldCopy,
    decode_encode .foldFinal, decode_encode .foldSave, decode_encode .foldLoad⟩

/-- Settles O10: an idle machine serves the CMD write, and the word runs its command. -/
theorem stepRunsTheDecodedCommand : Obligations.StepRunsTheDecodedCommand := by
  intro s w i rest hp hidle hdecode
  rw [step_cmdWrite hp hidle, runWord_ok hdecode]
  rfl

/-- Settles O4: only 32 bits decode, and only they are placed as an access the block takes. -/
theorem commandWordHasExactly32Bits : Obligations.CommandWordHasExactly32Bits := by
  refine ⟨fun nbits w i => ?_, fun s nbits w h => ?_, fun s w i h => ?_⟩
  · rw [decodeTableWord_eq_some, decode_eq_ok_iff, and_assoc]
  · have hwidth := deliveryWidth_ne_four h
    exact ⟨_, hwidth, (step_of_idle rfl rfl).trans (handle_write_unaligned (.inl hwidth) _ _)⟩
  · obtain ⟨⟨-, hlt⟩, hdecode⟩ := decodeTableWord_eq_some.1 h
    have hp : (s.withFetchWord 32 w).pending = .write 0x00 4 (BitVec.ofNat 32 w) :: s.pending := by
      rw [State.withFetchWord, deliveryWidth_of_word hlt]
    exact stepRunsTheDecodedCommand _ _ i _ hp rfl hdecode

end Sys2Proof.Proofs
end

section
/-! SUPPORT. The raw register as arithmetic modulo the generator (41_scalar.md R203, R204). `crcUnstep` multiplies by x, so
`residue` reads the bits of a number as a polynomial, bit i being the coefficient of x^i, and reduces it; `crcStep` divides
by x. Every tier's law is an equation of residues. -/

namespace Sys2Proof.Machine

/-! ### The shift step and its inverse -/

theorem repeatStep_eq_iterate {α : Type} (f : α → α) (n : Nat) (x : α) : repeatStep f n x = f^[n] x := by
  induction n generalizing x with
  | zero => rfl
  | succ n ih => exact ih (f x)

theorem getLsbD_crcStep (c : Word) (k : Nat) :
    (crcStep c).getLsbD k = (c.getLsbD (1 + k) ^^ (c.getLsbD 0 && polyReflected.getLsbD k)) := by
  unfold crcStep
  split
  · next h => rw [BitVec.getLsbD_xor, BitVec.getLsbD_ushiftRight, h, Bool.true_and]
  · next h => rw [BitVec.getLsbD_ushiftRight, Bool.eq_false_iff.2 h, Bool.false_and, Bool.xor_false]

theorem getLsbD_crcUnstep_zero (c : Word) : (crcUnstep c).getLsbD 0 = c.getLsbD 31 := by
  unfold crcUnstep
  split
  · next h => simp [h]
  · next h => rw [BitVec.getLsbD_shiftLeft, Bool.eq_false_iff.2 h]; rfl

theorem getLsbD_crcUnstep_succ (c : Word) {k : Nat} (hk : 1 + k < 32) :
    (crcUnstep c).getLsbD (1 + k) = (c.getLsbD k ^^ (c.getLsbD 31 && polyReflected.getLsbD k)) := by
  have hone : (1#32).getLsbD (1 + k) = false := by simp [BitVec.getLsbD_one]
  unfold crcUnstep
  split
  · next h =>
    rw [BitVec.getLsbD_or, hone, Bool.or_false, BitVec.getLsbD_shiftLeft, h]
    simp [hk]
  · next h =>
    rw [BitVec.getLsbD_shiftLeft, Bool.eq_false_iff.2 h]
    simp [hk]

/-- The shifted-out bit is bit 31 of the result, so the step can be taken back. -/
theorem crcUnstep_crcStep (c : Word) : crcUnstep (crcStep c) = c := by
  have htop : (crcStep c).getLsbD 31 = c.getLsbD 0 := by
    rw [getLsbD_crcStep, BitVec.getLsbD_of_ge c (1 + 31) le_rfl, show polyReflected.getLsbD 31 = true from rfl,
      Bool.and_true, Bool.false_xor]
  refine BitVec.eq_of_getLsbD_eq fun k hk => ?_
  cases k with
  | zero => rw [getLsbD_crcUnstep_zero, htop]
  | succ k =>
    rw [Nat.add_comm k 1] at hk ⊢
    rw [getLsbD_crcUnstep_succ _ hk, htop, getLsbD_crcStep, Bool.xor_assoc, Bool.xor_self, Bool.xor_false]

theorem crcStep_crcUnstep (c : Word) : crcStep (crcUnstep c) = c := by
  refine BitVec.eq_of_getLsbD_eq fun k hk => ?_
  rw [getLsbD_crcStep, getLsbD_crcUnstep_zero]
  by_cases htop : k = 31
  · subst htop
    rw [BitVec.getLsbD_of_ge _ (1 + 31) le_rfl, show polyReflected.getLsbD 31 = true from rfl, Bool.and_true,
      Bool.false_xor]
  · rw [getLsbD_crcUnstep_succ _ (by omega), Bool.xor_assoc, Bool.xor_self, Bool.xor_false]

/-- Dividing by x^n takes back a multiplication by x^n. -/
@[simp] theorem crcStep_iterate_crcUnstep_iterate (n : Nat) (c : Word) : crcStep^[n] (crcUnstep^[n] c) = c :=
  Function.LeftInverse.iterate crcStep_crcUnstep n c

@[simp] theorem crcUnstep_iterate_crcStep_iterate (n : Nat) (c : Word) : crcUnstep^[n] (crcStep^[n] c) = c :=
  Function.LeftInverse.iterate crcUnstep_crcStep n c

/-- x^(n − j) is x^n divided by x^j. -/
theorem crcUnstep_iterate_sub {j n : Nat} (h : j ≤ n) (c : Word) : crcUnstep^[n - j] c = crcUnstep^[n] (crcStep^[j] c) := by
  obtain ⟨k, rfl⟩ := Nat.exists_eq_add_of_le' h
  rw [Nat.add_sub_cancel, Function.iterate_add_apply, crcUnstep_iterate_crcStep_iterate]

theorem crcStep_iterate_injective (n : Nat) : Function.Injective crcStep^[n] :=
  (Function.LeftInverse.iterate crcUnstep_crcStep n).injective

theorem crcUnstep_iterate_injective (n : Nat) : Function.Injective crcUnstep^[n] :=
  (Function.LeftInverse.iterate crcStep_crcUnstep n).injective

/-! ### Maps that are multiplications -/

/-- `f` is linear over GF(2) and commutes with the multiplication by x: it is a multiplication modulo the generator. -/
structure IsMul (f : Word → Word) : Prop where
  xor : ∀ x y, f (x ^^^ y) = f x ^^^ f y
  unstep : ∀ x, f (crcUnstep x) = crcUnstep (f x)

theorem crcUnstep_xor (x y : Word) : crcUnstep (x ^^^ y) = crcUnstep x ^^^ crcUnstep y := by
  conv_lhs => rw [← crcStep_crcUnstep x, ← crcStep_crcUnstep y, ← crcStep_xor, crcUnstep_crcStep]

namespace IsMul

variable {f g : Word → Word}

theorem map_zero (hf : IsMul f) : f 0#32 = 0#32 := by
  have h := hf.xor 0#32 0#32
  rwa [BitVec.xor_self, BitVec.xor_self] at h

protected theorem id : IsMul id := ⟨fun _ _ => rfl, fun _ => rfl⟩

protected theorem zero : IsMul fun _ => 0 := ⟨fun _ _ => by simp, fun _ => by decide⟩

theorem comp (hf : IsMul f) (hg : IsMul g) : IsMul fun x => f (g x) :=
  ⟨fun x y => by rw [hg.xor, hf.xor], fun x => by rw [hg.unstep, hf.unstep]⟩

/-- The sum of two multiplications. -/
theorem add (hf : IsMul f) (hg : IsMul g) : IsMul fun x => f x ^^^ g x :=
  ⟨fun x y => by rw [hf.xor, hg.xor]; ac_rfl, fun x => by rw [hf.unstep, hg.unstep, crcUnstep_xor]⟩

theorem iterate (hf : IsMul f) (n : Nat) : IsMul f^[n] := by
  induction n with
  | zero => exact .id
  | succ n ih => exact ih.comp hf

theorem unstep_iterate (hf : IsMul f) (n : Nat) (x : Word) : f (crcUnstep^[n] x) = crcUnstep^[n] (f x) := by
  induction n with
  | zero => rfl
  | succ n ih => rw [Function.iterate_succ_apply', hf.unstep, ih, Function.iterate_succ_apply']

end IsMul

theorem isMul_crcUnstep : IsMul crcUnstep := ⟨crcUnstep_xor, fun _ => rfl⟩

theorem isMul_crcStep : IsMul crcStep := ⟨crcStep_xor, fun x => by rw [crcStep_crcUnstep, crcUnstep_crcStep]⟩

theorem crcStep_iterate_xor (n : Nat) (x y : Word) : crcStep^[n] (x ^^^ y) = crcStep^[n] x ^^^ crcStep^[n] y :=
  (isMul_crcStep.iterate n).xor x y

theorem crcUnstep_iterate_xor (n : Nat) (x y : Word) :
    crcUnstep^[n] (x ^^^ y) = crcUnstep^[n] x ^^^ crcUnstep^[n] y :=
  (isMul_crcUnstep.iterate n).xor x y

theorem crcStep_iterate_crcUnstep_comm (m n : Nat) (x : Word) :
    crcStep^[m] (crcUnstep^[n] x) = crcUnstep^[n] (crcStep^[m] x) :=
  (isMul_crcStep.iterate m).unstep_iterate n x

@[simp] theorem crcStep_iterate_zero (n : Nat) : crcStep^[n] 0#32 = 0#32 := (isMul_crcStep.iterate n).map_zero

@[simp] theorem crcUnstep_iterate_zero (n : Nat) : crcUnstep^[n] 0#32 = 0#32 := (isMul_crcUnstep.iterate n).map_zero

/-! ### The residue of a number -/

/-- The bits of a number read as a polynomial, modulo the generator. -/
def residue (n : Nat) : Word :=
  if n = 0 then 0 else BitVec.ofNat 32 (n % 2) ^^^ crcUnstep (residue (n / 2))
termination_by n

@[simp] theorem residue_zero : residue 0 = 0#32 := by
  rw [residue, if_pos rfl]
  rfl

theorem residue_eq (n : Nat) : residue n = BitVec.ofNat 32 (n % 2) ^^^ crcUnstep (residue (n / 2)) := by
  by_cases h : n = 0
  · subst h
    simp [crcUnstep]
  · conv_lhs => rw [residue, if_neg h]

/-- The residue is linear over GF(2). -/
theorem residue_xor (m n : Nat) : residue (m ^^^ n) = residue m ^^^ residue n := by
  induction m using Nat.strong_induction_on generalizing n with
  | _ m ih =>
    by_cases h : m = 0
    · simp [h]
    · have hbit : BitVec.ofNat 32 ((m ^^^ n) % 2) = BitVec.ofNat 32 (m % 2) ^^^ BitVec.ofNat 32 (n % 2) := by
        rw [Nat.xor_mod_two_eq]
        obtain hm | hm := Nat.mod_two_eq_zero_or_one m <;> obtain hn | hn := Nat.mod_two_eq_zero_or_one n <;>
          simp [Nat.add_mod, hm, hn]
      rw [residue_eq (m ^^^ n), residue_eq m, residue_eq n, Nat.xor_div_two, ih (m / 2) (by omega), crcUnstep_xor, hbit]
      ac_rfl

/-- A shift by k is a multiplication by x^k. -/
theorem residue_shiftLeft (n k : Nat) : residue (n <<< k) = crcUnstep^[k] (residue n) := by
  induction k with
  | zero => rfl
  | succ k ih =>
    rw [Nat.shiftLeft_succ, residue_eq, Function.iterate_succ_apply', ← ih]
    simp

/-- A word is its own residue. -/
theorem residue_of_lt {k n : Nat} (hk : k ≤ 32) (hn : n < 2 ^ k) : residue n = BitVec.ofNat 32 n := by
  induction k generalizing n with
  | zero =>
    obtain rfl : n = 0 := by simpa using hn
    exact residue_zero
  | succ k ih =>
    have hhalf : n / 2 < 2 ^ k := by rw [pow_succ] at hn; omega
    have hlow : n / 2 < 2 ^ 31 := hhalf.trans_le (Nat.pow_le_pow_right (by decide) (by omega))
    have htop : (BitVec.ofNat 32 (n / 2)).getLsbD 31 = false := by
      rw [BitVec.getLsbD_ofNat, Nat.testBit_lt_two_pow hlow, Bool.and_false]
    have hbit (j : Nat) : (n % 2).testBit j = (decide (j < 1) && n.testBit j) := Nat.testBit_mod_two_pow n 1 j
    rw [residue_eq, ih (by omega) hhalf]
    refine BitVec.eq_of_getLsbD_eq fun j hj => ?_
    rw [BitVec.getLsbD_xor]
    cases j with
    | zero =>
      rw [getLsbD_crcUnstep_zero, htop, BitVec.getLsbD_ofNat, BitVec.getLsbD_ofNat, hbit]
      simp
    | succ j =>
      rw [Nat.add_comm j 1] at hj ⊢
      rw [getLsbD_crcUnstep_succ _ hj, htop, BitVec.getLsbD_ofNat, BitVec.getLsbD_ofNat, BitVec.getLsbD_ofNat, hbit]
      simp [show j < 32 by omega, show j + 1 < 32 by omega, Nat.add_comm 1 j, Nat.testBit_succ]

theorem residue_toNat (c : Word) : residue c.toNat = c := by
  rw [residue_of_lt le_rfl c.isLt, BitVec.ofNat_toNat, BitVec.setWidth_eq]

@[simp] theorem residue_ofNat_one : residue 1 = 1#32 := residue_toNat 1#32

/-- A number is its low k bits and the rest times x^k. -/
theorem residue_split (n k : Nat) : residue n = residue (n % 2 ^ k) ^^^ crcUnstep^[k] (residue (n >>> k)) := by
  have h : n = n % 2 ^ k ^^^ (n >>> k) <<< k := by
    refine Nat.eq_of_testBit_eq fun j => ?_
    rw [Nat.testBit_xor, Nat.testBit_mod_two_pow, Nat.testBit_shiftLeft, Nat.testBit_shiftRight]
    by_cases hj : j < k
    · simp [hj, Nat.not_le.2 hj]
    · simp [hj, Nat.not_lt.1 hj]
  conv_lhs => rw [h, residue_xor, residue_shiftLeft]

/-- The bits a left shift drops from a w-bit word come w places higher. -/
theorem residue_shiftLeft_bitVec {w : Nat} (v : BitVec w) {j : Nat} (hj : j ≤ w) :
    residue (v <<< j).toNat ^^^ crcUnstep^[w] (residue (v >>> (w - j)).toNat) = crcUnstep^[j] (residue v.toNat) := by
  have hhigh : v.toNat <<< j >>> w = v.toNat >>> (w - j) := by
    obtain ⟨k, rfl⟩ := Nat.exists_eq_add_of_le hj
    rw [Nat.shiftRight_add, Nat.shiftLeft_shiftRight, Nat.add_sub_cancel_left]
  rw [← residue_shiftLeft v.toNat, residue_split (v.toNat <<< j) w, hhigh, BitVec.toNat_shiftLeft, BitVec.toNat_ushiftRight]

/-- A multiplication is known from what it makes of 1. -/
theorem IsMul.ext {f g : Word → Word} (hf : IsMul f) (hg : IsMul g) (h : f 1 = g 1) (x : Word) : f x = g x := by
  have hbit : ∀ n : Nat, f (BitVec.ofNat 32 (n % 2)) = g (BitVec.ofNat 32 (n % 2)) := by
    intro n
    obtain hn | hn := Nat.mod_two_eq_zero_or_one n
    · rw [hn]
      exact hf.map_zero.trans hg.map_zero.symm
    · rw [hn]
      exact h
  have hall : ∀ n, f (residue n) = g (residue n) := by
    intro n
    induction n using Nat.strong_induction_on with
    | _ n ih =>
      by_cases h0 : n = 0
      · subst h0
        rw [residue_zero]
        exact hf.map_zero.trans hg.map_zero.symm
      · rw [residue_eq, hf.xor, hg.xor, hbit, hf.unstep, hg.unstep, ih (n / 2) (by omega)]
  rw [← residue_toNat x, hall]

/-! ### Multiplications written out -/

/-- The product of v and the k low bits of `b`, bit i being x^i. -/
def mulBits (b : Nat) (v : Word) : Nat → Word
  | 0 => 0
  | k + 1 => (if b % 2 = 1 then v else 0) ^^^ crcUnstep (mulBits (b / 2) v k)

theorem mulBits_succ (b : Nat) (v : Word) (k : Nat) :
    mulBits b v (k + 1) = (if b.testBit k then crcUnstep^[k] v else 0) ^^^ mulBits b v k := by
  induction k generalizing b with
  | zero =>
    have hzero : crcUnstep 0 = 0 := isMul_crcUnstep.map_zero
    simp only [mulBits, hzero, Nat.testBit_zero, decide_eq_true_eq, Function.iterate_zero_apply]
  | succ k ih =>
    have hshift : crcUnstep (if (b / 2).testBit k then crcUnstep^[k] v else 0) =
        if (b / 2).testBit k then crcUnstep^[k + 1] v else 0 := by
      rw [apply_ite crcUnstep, Function.iterate_succ_apply']
      rfl
    rw [mulBits, ih, mulBits, Nat.testBit_succ, crcUnstep_xor, hshift]
    ac_rfl

theorem isMul_mulBits (b k : Nat) : IsMul fun v => mulBits b v k := by
  induction k with
  | zero => exact .zero
  | succ k ih =>
    simp only [mulBits_succ]
    refine IsMul.add (f := fun v => if b.testBit k then crcUnstep^[k] v else 0) ?_ ih
    split
    · exact isMul_crcUnstep.iterate k
    · exact .zero

/-- A multiplication is the one by what it makes of 1. -/
theorem IsMul.eq_mulBits {f : Word → Word} (hf : IsMul f) (v : Word) : f v = mulBits v.toNat (f 1) 32 := by
  have hlow : ∀ n k : Nat, f (residue (n % 2 ^ k)) = mulBits n (f 1) k := by
    intro n k
    induction k with
    | zero => rw [pow_zero, Nat.mod_one, residue_zero]; exact hf.map_zero
    | succ k ih =>
      have hbit : (n % 2 ^ (k + 1)) % 2 ^ k = n % 2 ^ k := Nat.mod_mod_of_dvd n (pow_dvd_pow 2 (Nat.le_succ k))
      have htop : (n % 2 ^ (k + 1)) >>> k = (n.testBit k).toNat := by
        rw [Nat.shiftRight_eq_div_pow, pow_succ, Nat.mod_mul_right_div_self, Nat.toNat_testBit]
      rw [residue_split _ k, hbit, htop, hf.xor, ih, hf.unstep_iterate, mulBits_succ, BitVec.xor_comm]
      cases n.testBit k with
      | false => simp [hf.map_zero]
      | true => simp
  conv_lhs => rw [← residue_toNat v, ← Nat.mod_eq_of_lt v.isLt]
  exact hlow v.toNat 32

/-- Dividing by x^(m + n) is dividing by both. -/
theorem crcStep_iterate_add_one {m n : Nat} {a b : Word} (hm : crcStep^[m] 1 = a) (hn : crcStep^[n] 1 = b) :
    crcStep^[m + n] 1 = mulBits b.toNat a 32 := by
  rw [Function.iterate_add_apply, hn, (isMul_crcStep.iterate m).eq_mulBits, hm]

/-- Dividing by x^(2^k n) by k squarings. -/
theorem crcStep_iterate_two_pow_mul_one {n : Nat} {a : Word} (h : crcStep^[n] 1 = a) (k : Nat) :
    crcStep^[2 ^ k * n] 1 = (fun v : Word => mulBits v.toNat v 32)^[k] a := by
  induction k with
  | zero => rwa [pow_zero, Nat.one_mul]
  | succ k ih =>
    rw [Function.iterate_succ_apply', pow_succ, Nat.mul_assoc, Nat.two_mul, Nat.mul_add]
    exact crcStep_iterate_add_one ih ih

/-! ### The residue of a byte sequence -/

/-- The residue of the little-endian number a byte sequence spells. -/
def streamResidue (bs : List Byte) : Word := residue (leNat bs)

@[simp] theorem streamResidue_nil : streamResidue [] = 0#32 := residue_zero

theorem streamResidue_cons (b : Byte) (bs : List Byte) :
    streamResidue (b :: bs) = b.setWidth 32 ^^^ crcUnstep^[8] (streamResidue bs) := by
  have hlow : (b.toNat + 256 * leNat bs) % 2 ^ 8 = b.toNat := by have := b.isLt; omega
  have hhigh : (b.toNat + 256 * leNat bs) >>> 8 = leNat bs := by
    have := b.isLt
    rw [Nat.shiftRight_eq_div_pow]
    omega
  rw [streamResidue, leNat, residue_split _ 8, hlow, hhigh,
    residue_of_lt (k := 8) (by decide) b.isLt, BitVec.ofNat_toNat, streamResidue]

theorem streamResidue_append (xs ys : List Byte) :
    streamResidue (xs ++ ys) = streamResidue xs ^^^ crcUnstep^[8 * xs.length] (streamResidue ys) := by
  induction xs with
  | nil => simp
  | cons b xs ih =>
    rw [List.cons_append, streamResidue_cons, streamResidue_cons, ih, crcUnstep_iterate_xor, List.length_cons,
      Nat.mul_succ, Nat.add_comm, Function.iterate_add_apply, BitVec.xor_assoc]

/-- The first n bytes, and the rest times x^(8n). -/
theorem streamResidue_take_drop {n : Nat} {bs : List Byte} (h : n ≤ bs.length) :
    streamResidue bs = streamResidue (bs.take n) ^^^ crcUnstep^[8 * n] (streamResidue (bs.drop n)) := by
  have hlen : (bs.take n).length = n := by rw [List.length_take]; omega
  conv_lhs => rw [← List.take_append_drop n bs, streamResidue_append, hlen]

@[simp] theorem streamResidue_zeros (n : Nat) : streamResidue (zeros n) = 0#32 := by
  induction n with
  | zero => exact streamResidue_nil
  | succ n ih =>
    rw [zeros, List.replicate_succ, ← zeros, streamResidue_cons, ih]
    simp

/-- XOR of a mask into the leading bytes adds the mask's residue. -/
theorem streamResidue_xorPrefix {bs ms : List Byte} (h : ms.length ≤ bs.length) :
    streamResidue (xorPrefix bs ms) = streamResidue bs ^^^ streamResidue ms := by
  induction bs generalizing ms with
  | nil =>
    obtain rfl : ms = [] := List.length_eq_zero_iff.1 (Nat.le_zero.1 h)
    simp
  | cons b bs ih =>
    cases ms with
    | nil => simp
    | cons m ms =>
      rw [xorPrefix, streamResidue_cons, streamResidue_cons, streamResidue_cons, ih (Nat.le_of_succ_le_succ h),
        crcUnstep_iterate_xor, BitVec.setWidth_xor]
      ac_rfl

/-- A value written out as enough bytes keeps its residue. -/
theorem streamResidue_bytesLE {w n : Nat} (h : w ≤ 8 * n) (v : BitVec w) :
    streamResidue (bytesLE n v) = residue v.toNat := by
  have hlt : v.toNat < 256 ^ n := by
    rw [show 256 = 2 ^ 8 from rfl, ← pow_mul]
    exact v.isLt.trans_le (Nat.pow_le_pow_right (by decide) h)
  rw [streamResidue, bytesLE, leNat_natBytes, Nat.mod_eq_of_lt hlt]

/-! ### The raw register as a residue -/

theorem tableT_eq (b : Byte) : tableT b = crcStep^[8] (b.setWidth 32) := repeatStep_eq_iterate _ _ _

/-- Eight shifts: the low byte through the table, the rest moved down (R202). -/
theorem crcStep_iterate_eight (d : Word) : crcStep^[8] d = tableT (d.setWidth 8) ^^^ (d >>> 8) := by
  have hlow : residue (d.toNat % 2 ^ 8) = (d.setWidth 8).setWidth 32 := by
    rw [← BitVec.toNat_setWidth, ← BitVec.toNat_setWidth_of_le (by decide : 8 ≤ 32), residue_toNat]
  have hhigh : residue (d.toNat >>> 8) = d >>> 8 := by rw [← BitVec.toNat_ushiftRight, residue_toNat]
  conv_lhs => rw [← residue_toNat d, residue_split d.toNat 8, hlow, hhigh]
  rw [crcStep_iterate_xor, crcStep_iterate_crcUnstep_iterate, tableT_eq]

theorem byteStep_eq (c : Word) (b : Byte) : byteStep c b = crcStep^[8] (c ^^^ b.setWidth 32) := by
  have hhigh : (c ^^^ b.setWidth 32) >>> 8 = c >>> 8 := by
    rw [BitVec.ushiftRight_xor_distrib, show b.setWidth 32 >>> 8 = 0#32 by ext; simp, BitVec.xor_zero]
  rw [crcStep_iterate_eight, hhigh, byteStep]

/-- R204 in closed form: the register and the bytes, added and divided by x^(8n). -/
theorem crcRaw_eq (c : Word) (bs : List Byte) : crcRaw c bs = crcStep^[8 * bs.length] (c ^^^ streamResidue bs) := by
  induction bs generalizing c with
  | nil => simp
  | cons b bs ih =>
    have hmove : c ^^^ (b.setWidth 32 ^^^ crcUnstep^[8] (streamResidue bs)) =
        (c ^^^ b.setWidth 32) ^^^ crcUnstep^[8] (streamResidue bs) := (BitVec.xor_assoc _ _ _).symm
    rw [crcRaw_cons, ih, byteStep_eq, streamResidue_cons, List.length_cons, Nat.mul_succ, Function.iterate_add_apply,
      hmove, crcStep_iterate_xor 8 (_ ^^^ _) (crcUnstep^[8] _), crcStep_iterate_crcUnstep_iterate]

theorem crcRaw_zero_eq (bs : List Byte) : crcRaw 0 bs = crcStep^[8 * bs.length] (streamResidue bs) := by
  simp [crcRaw_eq]

end Sys2Proof.Machine
end

section
/-! SUPPORT. The word reduction and the scalar tier compute the raw register (41_scalar.md R205 to R207). -/

namespace Sys2Proof.Machine

/-! ### Words as residues -/

theorem residue_toNat_xor {w : Nat} (u v : BitVec w) :
    residue (u ^^^ v).toNat = residue u.toNat ^^^ residue v.toNat := by
  rw [BitVec.toNat_xor, residue_xor]

@[simp] theorem residue_toNat_setWidth (c : Word) : residue (c.setWidth 64).toNat = c := by
  rw [BitVec.toNat_setWidth_of_le (by decide), residue_toNat]

theorem leNat_take_lt (n : Nat) (bs : List Byte) : leNat (bs.take n) < 2 ^ (8 * n) := by
  have hlen : (bs.take n).length ≤ n := List.length_take_le n bs
  rw [pow_mul]
  exact (leNat_lt _).trans_le (Nat.pow_le_pow_right (by decide) hlen)

/-- A word that its width holds is the number its bytes spell. -/
theorem toNat_le {w n : Nat} (h : 8 * n ≤ w) (bs : List Byte) (i : Nat) :
    (le w n bs i).toNat = leNat ((bs.drop i).take n) := by
  have hlt := (leNat_take_lt n (bs.drop i)).trans_le (Nat.pow_le_pow_right (by decide) h)
  rw [le, BitVec.toNat_ofNat, Nat.mod_eq_of_lt hlt]

theorem residue_toNat_le {w n : Nat} (h : 8 * n ≤ w) (bs : List Byte) (i : Nat) :
    residue (le w n bs i).toNat = streamResidue ((bs.drop i).take n) := by
  rw [toNat_le h, streamResidue]

/-! ### The word reduction (R205) -/

/-- A table round divides by x^8. -/
theorem residue_wordRound (d : DWord) : residue (wordRound d).toNat = crcStep^[8] (residue d.toNat) := by
  have hlow : residue (d.toNat % 2 ^ 8) = (d.setWidth 8).setWidth 32 := by
    rw [← BitVec.toNat_setWidth, ← BitVec.toNat_setWidth_of_le (by decide : 8 ≤ 32), residue_toNat]
  rw [wordRound, residue_toNat_xor, residue_toNat_setWidth, residue_split d.toNat 8, hlow, crcStep_iterate_xor,
    crcStep_iterate_crcUnstep_iterate, tableT_eq, BitVec.toNat_ushiftRight, BitVec.xor_comm]

/-- A table round takes eight bits off, as far as a table entry's 32. -/
theorem toNat_wordRound_lt {d : DWord} {m : Nat} (h : d.toNat < 2 ^ m) : (wordRound d).toNat < 2 ^ max 32 (m - 8) := by
  rw [wordRound, BitVec.toNat_xor]
  refine Nat.xor_lt_two_pow ?_ ?_
  · rw [BitVec.toNat_ushiftRight, Nat.shiftRight_eq_div_pow, Nat.div_lt_iff_lt_mul (by decide), ← pow_add]
    exact h.trans_le (Nat.pow_le_pow_right (by decide) (by omega))
  · rw [BitVec.toNat_setWidth_of_le (by decide)]
    exact (BitVec.isLt _).trans_le (Nat.pow_le_pow_right (by decide) (Nat.le_max_left _ _))

theorem residue_wordRound_iterate (n : Nat) (d : DWord) :
    residue (wordRound^[n] d).toNat = crcStep^[8 * n] (residue d.toNat) := by
  induction n generalizing d with
  | zero => rfl
  | succ n ih => rw [Function.iterate_succ_apply, ih, residue_wordRound, Nat.mul_succ, Function.iterate_add_apply]

theorem toNat_wordRound_iterate_lt (n : Nat) {d : DWord} {m : Nat} (h : d.toNat < 2 ^ m) :
    (wordRound^[n] d).toNat < 2 ^ max 32 (m - 8 * n) := by
  induction n generalizing d m with
  | zero => exact h.trans_le (Nat.pow_le_pow_right (by decide) (Nat.le_max_right _ _))
  | succ n ih =>
    rw [Function.iterate_succ_apply]
    exact (ih (toNat_wordRound_lt h)).trans_le (Nat.pow_le_pow_right (by decide) (by omega))

/-- The word reduction divides by x^(8W). -/
theorem crcWord_eq {w : Nat} {d : DWord} (h : d.toNat < 2 ^ (8 * w)) : crcWord w d = crcStep^[8 * w] (residue d.toNat) := by
  have hlt : (wordRound^[w] d).toNat < 2 ^ 32 := by
    have := toNat_wordRound_iterate_lt w h
    rwa [Nat.sub_self] at this
  rw [crcWord, repeatStep_eq_iterate, ← residue_wordRound_iterate, residue_of_lt le_rfl hlt, BitVec.ofNat_toNat]

section Width

variable {w : Nat} (hmin : 4 ≤ w) (hmax : w ≤ 8)
include hmin hmax

theorem toNat_xor_wordAt_lt (c : Word) (bs : List Byte) (i : Nat) :
    (c.setWidth 64 ^^^ wordAt w bs i).toNat < 2 ^ (8 * w) := by
  rw [BitVec.toNat_xor, BitVec.toNat_setWidth_of_le (by decide), wordAt, toNat_le (by omega)]
  exact Nat.xor_lt_two_pow (c.isLt.trans_le (Nat.pow_le_pow_right (by decide) (by omega))) (leNat_take_lt w _)

omit hmin in
theorem residue_xor_wordAt (c : Word) (bs : List Byte) (i : Nat) :
    residue (c.setWidth 64 ^^^ wordAt w bs i).toNat = c ^^^ streamResidue ((bs.drop i).take w) := by
  rw [residue_toNat_xor, residue_toNat_setWidth, wordAt, residue_toNat_le (by omega)]

/-- R205: one word reduction stands for W byte steps, whatever value the register has. -/
theorem crcWord_xor_wordAt (c : Word) (bs : List Byte) (i : Nat) :
    crcWord w (c.setWidth 64 ^^^ wordAt w bs i) = crcStep^[8 * w] (c ^^^ streamResidue ((bs.drop i).take w)) := by
  rw [crcWord_eq (toNat_xor_wordAt_lt hmin hmax c bs i), residue_xor_wordAt hmax]

theorem wordStep_eq (c : Word) {bs : List Byte} {i : Nat} (h : i + w ≤ bs.length) :
    wordStep w c bs i = crcRaw c ((bs.drop i).take w) := by
  have hlen : ((bs.drop i).take w).length = w := by rw [List.length_take, List.length_drop]; omega
  rw [wordStep, crcWord_xor_wordAt hmin hmax, crcRaw_eq, hlen]

/-! ### The scalar tier (R207) -/

theorem crcRaw_scalarWords {k : Nat} (c : Word) {bs : List Byte} (h : k * w ≤ bs.length) :
    crcRaw (scalarWords w k c bs).1 (scalarWords w k c bs).2 = crcRaw c bs := by
  induction k generalizing c bs with
  | zero => rfl
  | succ k ih =>
    rw [Nat.succ_mul] at h
    rw [scalarWords, ih _ (by rw [List.length_drop]; omega), wordStep_eq hmin hmax c (by omega), List.drop_zero,
      ← crcRaw_append, List.take_append_drop]

/-- R207: words then bytes give the byte-wise register. -/
theorem scalarTier_eq (c : Word) (bs : List Byte) : scalarTier w c bs = (crcRaw c bs, .scalar) := by
  rw [scalarTier, crcRaw_scalarWords hmin hmax c (Nat.div_mul_le_self _ _)]

end Width

theorem four_le_braidW (p : Params) : 4 ≤ braidW p := by
  unfold braidW
  split <;> decide

theorem braidW_le_eight (p : Params) : braidW p ≤ 8 := by
  unfold braidW
  split <;> decide

end Sys2Proof.Machine
end

section
/-! SUPPORT. The braided tier computes the raw register (42_braided.md R230 to R235): the lanes, each W bytes further on in
the stream than the one before, stand for one register. -/

namespace Sys2Proof.Machine

/-! ### One lane -/

theorem braidTable_eq {w n k : Nat} (h : k < n * w) (b : Byte) :
    braidTable w n k b = crcStep^[8 * (n * w - k)] (b.setWidth 32) := by
  have hlen : (b :: zeros (n * w - 1 - k)).length = n * w - k := by
    rw [List.length_cons, length_zeros]
    omega
  rw [braidTable, crcRaw_zero_eq, hlen, streamResidue_cons, streamResidue_zeros, crcUnstep_iterate_zero,
    BitVec.xor_zero]

/-- The byte tables together divide the word's low j bytes by x^(8(N·W − k)). -/
theorem braidLookup_eq {w n j k : Nat} (h : k + j ≤ n * w) (u : DWord) :
    braidLookup w n j k u = crcStep^[8 * (n * w - k)] (residue (u.toNat % 2 ^ (8 * j))) := by
  induction j generalizing k u with
  | zero => simp [braidLookup, Nat.mod_one]
  | succ j ih =>
    have hpow : 2 ^ (8 * (j + 1)) = 2 ^ 8 * 2 ^ (8 * j) := by rw [← pow_add, Nat.mul_succ, Nat.add_comm]
    have hlow : u.toNat % 2 ^ (8 * (j + 1)) % 2 ^ 8 = (u.setWidth 8).toNat := by
      rw [hpow, Nat.mod_mul_right_mod, BitVec.toNat_setWidth]
    have hhigh : (u.toNat % 2 ^ (8 * (j + 1))) >>> 8 = (u >>> 8).toNat % 2 ^ (8 * j) := by
      rw [hpow, Nat.shiftRight_eq_div_pow, Nat.mod_mul_right_div_self, BitVec.toNat_ushiftRight,
        Nat.shiftRight_eq_div_pow]
    have hsplit : residue (u.toNat % 2 ^ (8 * (j + 1))) =
        (u.setWidth 8).setWidth 32 ^^^ crcUnstep^[8] (residue ((u >>> 8).toNat % 2 ^ (8 * j))) := by
      rw [residue_split _ 8, hlow, hhigh, residue_of_lt (k := 8) (by decide) (BitVec.isLt _), BitVec.ofNat_toNat]
    have hsteps : 8 * (n * w - k) = 8 * (n * w - (k + 1)) + 8 := by omega
    rw [braidLookup, braidTable_eq (by omega), ih (by omega), hsplit, crcStep_iterate_xor, hsteps,
      Function.iterate_add_apply _ _ 8 (crcUnstep^[8] _), crcStep_iterate_crcUnstep_iterate]

/-- R231: a lane step takes the lane's word in and moves the lane on by a super-block. -/
theorem laneStep_wordAt {w n : Nat} (hmin : 4 ≤ w) (hmax : w ≤ 8) (hn : 0 < n) (s : Word) (bs : List Byte) :
    laneStep w n s (wordAt w bs 0) = crcStep^[8 * (n * w)] (s ^^^ streamResidue (bs.take w)) := by
  have hfit : 0 + w ≤ n * w := by rw [Nat.zero_add]; exact Nat.le_mul_of_pos_left w hn
  rw [laneStep, braidLookup_eq hfit, Nat.mod_eq_of_lt (toNat_xor_wordAt_lt hmin hmax s bs 0), residue_xor_wordAt hmax,
    Nat.sub_zero, List.drop_zero]

/-! ### The lanes together -/

/-- The register the lanes stand for: lane j lies j words further on in the stream. -/
def lanesResidue (w : Nat) : List Word → Word
  | [] => 0
  | s :: rest => s ^^^ crcUnstep^[8 * w] (lanesResidue w rest)

theorem lanesResidue_replicate_zero (w k : Nat) : lanesResidue w (List.replicate k 0#32) = 0#32 := by
  induction k with
  | zero => rfl
  | succ k ih => rw [List.replicate_succ, lanesResidue, ih, crcUnstep_iterate_zero, BitVec.xor_zero]

@[simp] theorem length_laneRound (w n : Nat) (lanes : List Word) (bs : List Byte) :
    (laneRound w n lanes bs).length = lanes.length := by
  induction lanes generalizing bs with
  | nil => rfl
  | cons s rest ih => simp [laneRound, ih]

/-- The first w bytes, and the k bytes after them. -/
theorem streamResidue_take_add {w : Nat} (k : Nat) {bs : List Byte} (h : w ≤ bs.length) :
    streamResidue (bs.take (w + k)) =
      streamResidue (bs.take w) ^^^ crcUnstep^[8 * w] (streamResidue ((bs.drop w).take k)) := by
  have hlen : (bs.take w).length = w := by rw [List.length_take]; omega
  rw [List.take_add, streamResidue_append, hlen]

section Width

variable {w n : Nat} (hmin : 4 ≤ w) (hmax : w ≤ 8) (hn : 0 < n)
include hmin hmax hn

/-- R233: a super-block takes a word into each lane, and moves them all on. -/
theorem lanesResidue_laneRound (lanes : List Word) {bs : List Byte} (h : lanes.length * w ≤ bs.length) :
    lanesResidue w (laneRound w n lanes bs) =
      crcStep^[8 * (n * w)] (lanesResidue w lanes ^^^ streamResidue (bs.take (lanes.length * w))) := by
  induction lanes generalizing bs with
  | nil => simp [laneRound, lanesResidue]
  | cons s rest ih =>
    have hwords : (s :: rest).length * w = w + rest.length * w := by rw [List.length_cons]; ring
    rw [hwords] at h ⊢
    rw [laneRound, lanesResidue, lanesResidue, laneStep_wordAt hmin hmax hn,
      ih (bs := bs.drop w) (by rw [List.length_drop]; omega), streamResidue_take_add _ (by omega), ← crcStep_iterate_crcUnstep_comm, ← crcStep_iterate_xor,
      crcUnstep_iterate_xor]
    congr 1
    ac_rfl

/-- R235: k super-blocks move the lanes and the bytes still to come on by k · N · W bytes. -/
theorem laneRounds_eq {k : Nat} {lanes : List Word} (hlanes : lanes.length = n) {bs : List Byte}
    (h : k * (n * w) ≤ bs.length) :
    (laneRounds w n k lanes bs).1.length = n ∧ (laneRounds w n k lanes bs).2 = bs.drop (k * (n * w)) ∧
      lanesResidue w (laneRounds w n k lanes bs).1 ^^^ streamResidue (laneRounds w n k lanes bs).2 =
        crcStep^[8 * (k * (n * w))] (lanesResidue w lanes ^^^ streamResidue bs) := by
  induction k generalizing lanes bs with
  | zero => simp [laneRounds, hlanes]
  | succ k ih =>
    have hblocks : (k + 1) * (n * w) = k * (n * w) + n * w := Nat.succ_mul _ _
    rw [hblocks] at h ⊢
    have hround : lanesResidue w (laneRound w n lanes bs) ^^^ streamResidue (bs.drop (n * w)) =
        crcStep^[8 * (n * w)] (lanesResidue w lanes ^^^ streamResidue bs) := by
      rw [lanesResidue_laneRound hmin hmax hn lanes (by rw [hlanes]; omega), hlanes,
        streamResidue_take_drop (n := n * w) (bs := bs) (by omega), ← BitVec.xor_assoc,
        crcStep_iterate_xor _ (_ ^^^ _) (crcUnstep^[_] _), crcStep_iterate_crcUnstep_iterate]
    obtain ⟨hlen, hrest, hvalue⟩ := ih (lanes := laneRound w n lanes bs) (by rw [length_laneRound, hlanes])
      (bs := bs.drop (n * w)) (by rw [List.length_drop]; omega)
    refine ⟨hlen, ?_, ?_⟩
    · rw [laneRounds, hrest, List.drop_drop, Nat.add_comm]
    · rw [laneRounds, hvalue, hround, ← Function.iterate_add_apply, Nat.mul_add]

omit hn in
/-- R234: folding the lanes into one another takes the last super-block in and leaves their register. -/
theorem combine_eq (x : Word) (lanes : List Word) {bs : List Byte} (h : lanes.length * w ≤ bs.length) :
    combine w x lanes bs = crcStep^[8 * (lanes.length * w)]
      (x ^^^ (lanesResidue w lanes ^^^ streamResidue (bs.take (lanes.length * w)))) := by
  induction lanes generalizing x bs with
  | nil => simp [combine, lanesResidue]
  | cons s rest ih =>
    have hwords : (s :: rest).length * w = w + rest.length * w := by rw [List.length_cons]; ring
    rw [hwords] at h ⊢
    have hin : s.setWidth 64 ^^^ wordAt w bs 0 ^^^ x.setWidth 64 = (s ^^^ x).setWidth 64 ^^^ wordAt w bs 0 := by
      rw [BitVec.setWidth_xor]
      ac_rfl
    rw [combine, hin, crcWord_xor_wordAt hmin hmax, ih _ (bs := bs.drop w) (by rw [List.length_drop]; omega),
      List.drop_zero, lanesResidue, streamResidue_take_add _ (by omega), Nat.mul_add, Nat.add_comm (8 * w), Function.iterate_add_apply]
    congr 1
    simp only [crcStep_iterate_xor, crcStep_iterate_crcUnstep_iterate]
    ac_rfl

omit hn in
/-- The lanes folded into one another, then the bytes after their super-block, give what the lanes and the bytes stand
for. -/
theorem crcRaw_combine (lanes : List Word) {bs : List Byte} (h : lanes.length * w ≤ bs.length) :
    crcRaw (combine w 0 lanes bs) (bs.drop (lanes.length * w)) =
      crcStep^[8 * bs.length] (lanesResidue w lanes ^^^ streamResidue bs) := by
  have hsteps : 8 * bs.length = 8 * (bs.drop (lanes.length * w)).length + 8 * (lanes.length * w) := by
    rw [List.length_drop]
    omega
  rw [crcRaw_eq, combine_eq hmin hmax 0 lanes h, streamResidue_take_drop h, hsteps, Function.iterate_add_apply]
  congr 1
  simp only [crcStep_iterate_xor, crcStep_iterate_crcUnstep_iterate]
  simp [BitVec.xor_assoc]

/-- k super-blocks, the lanes folded over the next one, and the bytes after it: what the lanes and the bytes stood for at
the start. -/
theorem crcRaw_laneRounds {k : Nat} {lanes : List Word} (hlanes : lanes.length = n) {bs : List Byte}
    (h : k * (n * w) + n * w ≤ bs.length) :
    crcRaw (combine w 0 (laneRounds w n k lanes bs).1 (laneRounds w n k lanes bs).2)
        ((laneRounds w n k lanes bs).2.drop (n * w)) =
      crcStep^[8 * bs.length] (lanesResidue w lanes ^^^ streamResidue bs) := by
  obtain ⟨hlen, hrest, hvalue⟩ := laneRounds_eq hmin hmax hn hlanes (k := k) (bs := bs) (by omega)
  have hleft : (laneRounds w n k lanes bs).2.length = bs.length - k * (n * w) := by rw [hrest, List.length_drop]
  have hdone := crcRaw_combine hmin hmax (laneRounds w n k lanes bs).1 (bs := (laneRounds w n k lanes bs).2)
    (by rw [hlen]; omega)
  have hsteps : 8 * (laneRounds w n k lanes bs).2.length + 8 * (k * (n * w)) = 8 * bs.length := by omega
  rw [hlen] at hdone
  rw [hdone, hvalue, ← Function.iterate_add_apply, hsteps]

/-- R235: the braided tier gives the byte-wise register; below its minimum length it is the scalar tier. -/
theorem braidedTier_eq (c : Word) (bs : List Byte) (a : Nat) :
    braidedTier w n c bs a = (crcRaw c bs, if bs.length < n * w + w - 1 then .scalar else .braid) := by
  unfold braidedTier
  split
  · exact scalarTier_eq hmin hmax c bs
  · next hlong =>
    have hjw : bytesToBoundary w a < w := Nat.mod_lt _ (by omega)
    generalize bytesToBoundary w a = j at hjw ⊢
    have hblock : 0 < n * w := Nat.mul_pos hn (by omega)
    have hlen : (bs.drop j).length = bs.length - j := List.length_drop
    have hfit := Nat.div_mul_le_self (bs.drop j).length (n * w)
    have hpos : 0 < (bs.drop j).length / (n * w) := Nat.div_pos (by omega) hblock
    have hrun : ((bs.drop j).length / (n * w) - 1) * (n * w) + n * w ≤ (bs.drop j).length := by
      rwa [← Nat.succ_mul, Nat.succ_eq_add_one, Nat.sub_add_cancel hpos]
    have hlanes : (crcRaw c (bs.take j) :: List.replicate (n - 1) 0#32).length = n := by
      rw [List.length_cons, List.length_replicate, Nat.sub_add_cancel hn]
    dsimp only
    rw [scalarTier_eq hmin hmax, crcRaw_laneRounds hmin hmax hn hlanes hrun, lanesResidue, lanesResidue_replicate_zero,
      crcUnstep_iterate_zero, BitVec.xor_zero, ← crcRaw_eq, ← crcRaw_append, List.take_append_drop]

end Width

theorem braidN_pos (p : Params) : 0 < braidN p := Nat.succ_pos _

end Sys2Proof.Machine
end

section
/-! SUPPORT. The small Chorba variant computes the raw register (43_chorba.md R260 to R264): a moved word is congruent to its
four contributions, and an iteration keeps what the state and the bytes stand for. -/

namespace Sys2Proof.Machine

/-! ### The congruence of the small variant -/

/-- 1 ≡ x^145 + x^183 + x^211 + x^300 modulo the generator (R261). -/
theorem smallCongruence (x : Word) :
    crcUnstep^[145] x ^^^ crcUnstep^[183] x ^^^ crcUnstep^[211] x ^^^ crcUnstep^[300] x = x := by
  have hmul (n : Nat) := isMul_crcUnstep.iterate n
  exact ((((hmul 145).add (hmul 183)).add (hmul 211)).add (hmul 300)).ext .id (by decide +kernel) x

/-- A word is congruent to its contributions to the words 2, 3, 4 and 5 further on (R262). -/
theorem residue_spread (v : DWord) :
    residue v.toNat = crcUnstep^[128] (residue (spread v).s0.toNat) ^^^ (crcUnstep^[192] (residue (spread v).s1.toNat) ^^^
      (crcUnstep^[256] (residue (spread v).s2.toNat) ^^^ crcUnstep^[320] (residue (spread v).s3.toNat))) := by
  have h17 := residue_shiftLeft_bitVec v (j := 17) (by decide)
  have h55 := residue_shiftLeft_bitVec v (j := 55) (by decide)
  have h19 := residue_shiftLeft_bitVec v (j := 19) (by decide)
  have h44 := residue_shiftLeft_bitVec v (j := 44) (by decide)
  have hadd (m n : Nat) (x : Word) := Function.iterate_add_apply crcUnstep m n x
  rw [← smallCongruence (residue v.toNat), hadd 128 17, hadd 128 55, hadd 192 19, hadd 256 44, ← h17, ← h55, ← h19,
    ← h44]
  simp only [spread, residue_toNat_xor, crcUnstep_iterate_xor, ← Function.iterate_add_apply, Nat.reduceAdd,
    Nat.reduceSub]
  ac_rfl

/-- What a moved word and its contribution two words on leave. -/
theorem residue_spread_add_near (v : DWord) :
    residue v.toNat ^^^ crcUnstep^[128] (residue (spread v).s0.toNat) =
      crcUnstep^[192] (residue (spread v).s1.toNat) ^^^
        (crcUnstep^[256] (residue (spread v).s2.toNat) ^^^ crcUnstep^[320] (residue (spread v).s3.toNat)) := by
  rw [residue_spread v, xor_xor_cancel_comm]

/-! ### One iteration -/

/-- What the five state words stand for. -/
def nextResidue (nx : Next5) : Word :=
  residue nx.n0.toNat ^^^ crcUnstep^[64] (residue nx.n1.toNat) ^^^ crcUnstep^[128] (residue nx.n2.toNat) ^^^
    crcUnstep^[192] (residue nx.n3.toNat) ^^^ crcUnstep^[256] (residue nx.n4.toNat)

theorem streamResidue_nextBytes (nx : Next5) : streamResidue (nextBytes nx) = nextResidue nx := by
  simp only [nextBytes, streamResidue_append, List.length_append, length_bytesLE,
    streamResidue_bytesLE (by decide : 64 ≤ 8 * 8), nextResidue]

/-- R263: an iteration moves four words into the state, which then stands 256 bits further on. -/
theorem nextResidue_smallIter (nx : Next5) (w0 w1 w2 w3 : DWord) :
    crcUnstep^[256] (nextResidue (smallIter nx w0 w1 w2 w3)) =
      nextResidue nx ^^^ (residue w0.toNat ^^^ crcUnstep^[64] (residue w1.toNat) ^^^
        crcUnstep^[128] (residue w2.toNat) ^^^ crcUnstep^[192] (residue w3.toNat)) := by
  obtain ⟨a, ha⟩ : ∃ a, a = w0 ^^^ nx.n0 := ⟨_, rfl⟩
  obtain ⟨b, hb⟩ : ∃ b, b = w1 ^^^ nx.n1 := ⟨_, rfl⟩
  obtain ⟨c, hc⟩ : ∃ c, c = w2 ^^^ nx.n2 ^^^ (spread a).s0 := ⟨_, rfl⟩
  obtain ⟨d, hd⟩ : ∃ d, d = w3 ^^^ nx.n3 ^^^ ((spread a).s1 ^^^ (spread b).s0) := ⟨_, rfl⟩
  have hiter : smallIter nx w0 w1 w2 w3 =
      { n0 := nx.n4 ^^^ ((spread a).s2 ^^^ (spread b).s1 ^^^ (spread c).s0)
        n1 := (spread a).s3 ^^^ (spread b).s2 ^^^ (spread c).s1 ^^^ (spread d).s0
        n2 := (spread b).s3 ^^^ (spread c).s2 ^^^ (spread d).s1
        n3 := (spread c).s3 ^^^ (spread d).s2
        n4 := (spread d).s3 } := by
    simp only [smallIter, ha, hb, hc, hd, BitVec.xor_assoc]
  have hC : residue w2.toNat ^^^ residue nx.n2.toNat = residue c.toNat ^^^ residue (spread a).s0.toNat := by
    rw [hc, residue_toNat_xor, residue_toNat_xor, xor_cancel_right]
  have hD : residue w3.toNat ^^^ residue nx.n3.toNat =
      residue d.toNat ^^^ (residue (spread a).s1.toNat ^^^ residue (spread b).s0.toNat) := by
    rw [hd, residue_toNat_xor, residue_toNat_xor, residue_toNat_xor, xor_cancel_right]
  have hA : residue a.toNat ^^^ crcUnstep^[128] (residue (spread a).s0.toNat) ^^^
        crcUnstep^[192] (residue (spread a).s1.toNat) =
      crcUnstep^[256] (residue (spread a).s2.toNat) ^^^ crcUnstep^[320] (residue (spread a).s3.toNat) := by
    rw [residue_spread_add_near, xor_xor_cancel_comm]
  symm
  calc nextResidue nx ^^^ (residue w0.toNat ^^^ crcUnstep^[64] (residue w1.toNat) ^^^
          crcUnstep^[128] (residue w2.toNat) ^^^ crcUnstep^[192] (residue w3.toNat))
      = residue a.toNat ^^^ crcUnstep^[64] (residue b.toNat) ^^^
          crcUnstep^[128] (residue w2.toNat ^^^ residue nx.n2.toNat) ^^^
          crcUnstep^[192] (residue w3.toNat ^^^ residue nx.n3.toNat) ^^^ crcUnstep^[256] (residue nx.n4.toNat) := by
        simp only [ha, hb, nextResidue, residue_toNat_xor, crcUnstep_iterate_xor]
        ac_rfl
    _ = (residue a.toNat ^^^ crcUnstep^[128] (residue (spread a).s0.toNat) ^^^
          crcUnstep^[192] (residue (spread a).s1.toNat)) ^^^
          crcUnstep^[64] (residue b.toNat ^^^ crcUnstep^[128] (residue (spread b).s0.toNat)) ^^^
          crcUnstep^[128] (residue c.toNat) ^^^ crcUnstep^[192] (residue d.toNat) ^^^
          crcUnstep^[256] (residue nx.n4.toNat) := by
        simp only [hC, hD, crcUnstep_iterate_xor, ← Function.iterate_add_apply, Nat.reduceAdd]
        ac_rfl
    _ = crcUnstep^[256] (nextResidue (smallIter nx w0 w1 w2 w3)) := by
        rw [hA, residue_spread_add_near b, residue_spread c, residue_spread d, hiter, nextResidue]
        simp only [residue_toNat_xor, crcUnstep_iterate_xor, ← Function.iterate_add_apply, Nat.reduceAdd]
        generalize crcUnstep^[256] = x4, crcUnstep^[320] = x5, crcUnstep^[384] = x6, crcUnstep^[448] = x7,
          crcUnstep^[512] = x8
        ac_rfl

/-- The four words an iteration takes are the next 32 bytes. -/
theorem streamResidue_four_words {bs : List Byte} (h : 32 ≤ bs.length) :
    streamResidue bs = residue (le 64 8 bs 0).toNat ^^^ crcUnstep^[64] (residue (le 64 8 bs 8).toNat) ^^^
      crcUnstep^[128] (residue (le 64 8 bs 16).toNat) ^^^ crcUnstep^[192] (residue (le 64 8 bs 24).toNat) ^^^
      crcUnstep^[256] (streamResidue (bs.drop 32)) := by
  have hword (i : Nat) (hi : i + 8 ≤ bs.length) : streamResidue (bs.drop i) =
      residue (le 64 8 bs i).toNat ^^^ crcUnstep^[64] (streamResidue (bs.drop (i + 8))) := by
    rw [residue_toNat_le (by decide), ← List.drop_drop]
    exact streamResidue_take_drop (by rw [List.length_drop]; omega)
  have hall : streamResidue bs = streamResidue (bs.drop 0) := by rw [List.drop_zero]
  rw [hall, hword 0 (by omega), hword 8 (by omega), hword 16 (by omega), hword 24 (by omega)]
  simp only [crcUnstep_iterate_xor, ← Function.iterate_add_apply, Nat.reduceAdd]
  ac_rfl

/-! ### The loop and the tier -/

/-- R264: k iterations move the state and the bytes still to come on by 32 k bytes. -/
theorem smallLoop_eq {k : Nat} (nx : Next5) {bs : List Byte} (h : 32 * k ≤ bs.length) :
    (smallLoop k nx bs).2 = bs.drop (32 * k) ∧
      nextResidue (smallLoop k nx bs).1 ^^^ streamResidue (smallLoop k nx bs).2 =
        crcStep^[8 * (32 * k)] (nextResidue nx ^^^ streamResidue bs) := by
  induction k generalizing nx bs with
  | zero => exact ⟨rfl, rfl⟩
  | succ k ih =>
    have hstep (nx' : Next5) (hnx : nx' = smallIter nx (le 64 8 bs 0) (le 64 8 bs 8) (le 64 8 bs 16) (le 64 8 bs 24)) :
        nextResidue nx' ^^^ streamResidue (bs.drop 32) = crcStep^[256] (nextResidue nx ^^^ streamResidue bs) := by
      rw [streamResidue_four_words (bs := bs) (by omega), ← BitVec.xor_assoc, ← nextResidue_smallIter, ← hnx,
        ← crcUnstep_iterate_xor, crcStep_iterate_crcUnstep_iterate]
    obtain ⟨hrest, hvalue⟩ := ih (smallIter nx (le 64 8 bs 0) (le 64 8 bs 8) (le 64 8 bs 16) (le 64 8 bs 24))
      (bs := bs.drop 32) (by rw [List.length_drop]; omega)
    refine ⟨?_, ?_⟩
    · rw [smallLoop, chorbaSmallStep, hrest, List.drop_drop, Nat.mul_succ, Nat.add_comm]
    · rw [smallLoop, chorbaSmallStep, hvalue, hstep _ rfl, ← Function.iterate_add_apply, Nat.mul_succ, Nat.mul_add]

/-- R264: the small variant gives the byte-wise register; below 72 bytes it is the scalar tier. -/
theorem chorbaSmallTier_eq {w : Nat} (hmin : 4 ≤ w) (hmax : w ≤ 8) (c : Word) (bs : List Byte) :
    chorbaSmallTier w c bs = (crcRaw c bs, if bs.length < 72 then .scalar else .chorbaS) := by
  unfold chorbaSmallTier chorbaSmallMin
  split
  · exact scalarTier_eq hmin hmax c bs
  · next hlong =>
    have hrounds : smallRounds bs.length = (bs.length - 40) / 32 := rfl
    have hstart : nextResidue ⟨c.setWidth 64, 0, 0, 0, 0⟩ = c := by
      rw [nextResidue, residue_toNat_setWidth]
      simp
    obtain ⟨hrest, hvalue⟩ := smallLoop_eq (k := smallRounds bs.length) ⟨c.setWidth 64, 0, 0, 0, 0⟩ (bs := bs) (by omega)
    rw [hstart] at hvalue
    have hleft : (smallLoop (smallRounds bs.length) ⟨c.setWidth 64, 0, 0, 0, 0⟩ bs).2.length =
        bs.length - 32 * smallRounds bs.length := by rw [hrest, List.length_drop]
    generalize smallLoop (smallRounds bs.length) ⟨c.setWidth 64, 0, 0, 0, 0⟩ bs = run at hrest hvalue hleft ⊢
    have hmask : (nextBytes run.1).length ≤ run.2.length := by
      rw [hleft, nextBytes]
      simp only [List.length_append, length_bytesLE]
      omega
    have hsteps : 8 * run.2.length + 8 * (32 * smallRounds bs.length) = 8 * bs.length := by omega
    dsimp only
    rw [scalarTier_eq hmin hmax, crcRaw_zero_eq, length_xorPrefix, streamResidue_xorPrefix hmask,
      streamResidue_nextBytes, BitVec.xor_comm, hvalue, ← Function.iterate_add_apply, hsteps, ← crcRaw_eq]

end Sys2Proof.Machine
end

section
/-! SUPPORT. The large Chorba variant computes the raw register (43_chorba.md R265 to R272): a moved word is congruent to its
two deposits, and the ring with the bytes still to come stands for the same register before every word. -/

namespace Sys2Proof.Machine

/-! ### The congruence of the large variant -/

/-- The sum over the term set: x^(−j) for each j of it. -/
def termSum (terms : List Nat) (x : Word) : Word := terms.foldr (fun j f => crcStep^[j] x ^^^ f) 0

theorem isMul_termSum (terms : List Nat) : IsMul (termSum terms) := by
  induction terms with
  | nil => exact .zero
  | cons j terms ih => exact (isMul_crcStep.iterate j).add ih

theorem crcStep_iterate_lag_one : crcStep^[64 * 14870] 1 = termSum chorbaTerms 1 := by
  have hlag : 64 * 14870 = 2 ^ 6 * (2 ^ 6 * 232 + 22) := by norm_num
  have h232 : crcStep^[232] 1 = 1661458724#32 := by decide +kernel
  have h14848 : crcStep^[2 ^ 6 * 232] 1 = 3581800768#32 :=
    (crcStep_iterate_two_pow_mul_one h232 6).trans (by decide +kernel)
  have h14870 : crcStep^[2 ^ 6 * 232 + 22] 1 = 2505328609#32 :=
    (crcStep_iterate_add_one h14848 rfl).trans (by decide +kernel)
  rw [hlag]
  exact (crcStep_iterate_two_pow_mul_one h14870 6).trans (by decide +kernel)

/-- x^(64 · 14870) times the term sum is 1 (R265). -/
theorem largeCongruence (x : Word) : crcUnstep^[64 * chorbaLag] (termSum chorbaTerms x) = x := by
  rw [← (isMul_crcStep.iterate (64 * 14870)).ext (isMul_termSum chorbaTerms) crcStep_iterate_lag_one x, chorbaLag,
    crcUnstep_iterate_crcStep_iterate]

/-- What the large variant asks of its lag, its ring's capacity and its term set: the deposits fall on slots of their own, a
term is a shift within a word, and the term set is the congruence of the lag (R13, R14, R265). -/
structure LagOk (lag cap : Nat) (terms : List Nat) : Prop where
  two_le : 2 ≤ lag
  lt_cap : lag < cap
  terms_le : ∀ j ∈ terms, j ≤ 64
  congruence : ∀ x, crcUnstep^[64 * lag] (termSum terms x) = x

theorem lagOk_chorba : LagOk chorbaLag chorbaRingWords chorbaTerms :=
  ⟨by decide, by decide, by decide, largeCongruence⟩

/-- One term's part of the two deposits, one slot apart: the word shifted by w − j, across two slots. -/
theorem residue_deposit_term {w j : Nat} (hj : j ≤ w) (v : BitVec w) :
    residue (if j = 0 then 0#w else v <<< (w - j)).toNat ^^^ crcUnstep^[w] (residue (v >>> j).toNat) =
      crcUnstep^[w] (crcStep^[j] (residue v.toNat)) := by
  rw [← crcUnstep_iterate_sub hj]
  by_cases h0 : j = 0
  · simp [h0]
  · have hshift := residue_shiftLeft_bitVec v (Nat.sub_le w j)
    rw [Nat.sub_sub_self hj] at hshift
    rw [if_neg h0, hshift]

/-- The two deposits of a word, one slot apart, are its term sum (R266). -/
theorem residue_pushNear_pushFar {terms : List Nat} (h : ∀ j ∈ terms, j ≤ 64) (v : DWord) :
    residue (pushNear terms v).toNat ^^^ crcUnstep^[64] (residue (pushFar terms v).toNat) =
      crcUnstep^[64] (termSum terms (residue v.toNat)) := by
  induction terms with
  | nil => simp [pushNear, pushFar, termSum]
  | cons j terms ih =>
    have hterm := residue_deposit_term (h j List.mem_cons_self) v
    have ih := ih fun k hk => h k (List.mem_cons_of_mem _ hk)
    have hnear : pushNear (j :: terms) v = (if j = 0 then 0#64 else v <<< (64 - j)) ^^^ pushNear terms v := rfl
    have hfar : pushFar (j :: terms) v = (v >>> j) ^^^ pushFar terms v := rfl
    have hsum (x : Word) : termSum (j :: terms) x = crcStep^[j] x ^^^ termSum terms x := rfl
    rw [hnear, hfar, hsum, residue_toNat_xor, residue_toNat_xor, crcUnstep_iterate_xor, crcUnstep_iterate_xor, ← hterm,
      ← ih]
    generalize crcUnstep^[64] = x64
    ac_rfl

/-! ### The words of the ring -/

/-- Words less than a ring apart have slots of their own. -/
theorem slot_injective {cap u i j : Nat} (hi : i < cap) (hj : j < cap) (h : (u + i) % cap = (u + j) % cap) : i = j := by
  have hmod : i % cap = j % cap := Nat.ModEq.add_left_cancel' u h
  rwa [Nat.mod_eq_of_lt hi, Nat.mod_eq_of_lt hj] at hmod

section Ring

variable {cap : Nat} {ring : RingWords}

@[simp] theorem length_ringBytes (cap : Nat) (ring : RingWords) (k u : Nat) :
    (ringBytes cap ring k u).length = 8 * k := by
  induction k generalizing u with
  | zero => rfl
  | succ k ih => rw [ringBytes, List.length_append, length_bytesLE, ih, Nat.mul_succ, Nat.add_comm]

theorem streamResidue_ringBytes_succ (cap : Nat) (ring : RingWords) (k u : Nat) :
    streamResidue (ringBytes cap ring (k + 1) u) =
      residue (sparseRead 0#64 ring (u % cap)).toNat ^^^
        crcUnstep^[64] (streamResidue (ringBytes cap ring k (u + 1))) := by
  rw [ringBytes, streamResidue_append, streamResidue_bytesLE (by decide : 64 ≤ 8 * 8), length_bytesLE]

theorem streamResidue_ringBytes_add (cap : Nat) (ring : RingWords) (k m u : Nat) :
    streamResidue (ringBytes cap ring (k + m) u) =
      streamResidue (ringBytes cap ring k u) ^^^
        crcUnstep^[64 * k] (streamResidue (ringBytes cap ring m (u + k))) := by
  induction k generalizing u with
  | zero => simp [ringBytes]
  | succ k ih =>
    rw [Nat.add_right_comm, streamResidue_ringBytes_succ, streamResidue_ringBytes_succ, ih, crcUnstep_iterate_xor,
      ← Function.iterate_add_apply, Nat.mul_succ, Nat.add_comm 64, Nat.add_right_comm u, Nat.add_assoc u,
      BitVec.xor_assoc]

/-- The bytes of words whose slots two rings agree on. -/
theorem ringBytes_congr {ring' : RingWords} {k u : Nat}
    (h : ∀ i < k, sparseRead 0#64 ring' ((u + i) % cap) = sparseRead 0#64 ring ((u + i) % cap)) :
    ringBytes cap ring' k u = ringBytes cap ring k u := by
  induction k generalizing u with
  | zero => rfl
  | succ k ih =>
    have hrest := ih (u := u + 1) fun i hi => by
      rw [Nat.add_right_comm, Nat.add_assoc]
      exact h (i + 1) (Nat.succ_lt_succ hi)
    rw [ringBytes, ringBytes, hrest, show sparseRead 0#64 ring' (u % cap) = _ from h 0 (Nat.succ_pos k)]
    rfl

/-- Empty slots stand for nothing. -/
theorem streamResidue_ringBytes_zero {k u : Nat} (h : ∀ i < k, sparseRead 0#64 ring ((u + i) % cap) = 0) :
    streamResidue (ringBytes cap ring k u) = 0#32 := by
  induction k generalizing u with
  | zero => exact streamResidue_nil
  | succ k ih =>
    have hrest := ih (u := u + 1) fun i hi => by
      rw [Nat.add_right_comm, Nat.add_assoc]
      exact h (i + 1) (Nat.succ_lt_succ hi)
    have hhead : sparseRead 0#64 ring (u % cap) = 0 := h 0 (Nat.succ_pos k)
    rw [streamResidue_ringBytes_succ, hrest, hhead, crcUnstep_iterate_zero, BitVec.xor_zero]
    exact residue_zero

theorem sparseOk_ringDeposit (h : SparseOk 0#64 ring) (slot : Nat) (f : DWord) :
    SparseOk 0#64 (ringDeposit ring slot f) := h.write slot _

/-- A deposit adds to the word of its slot. -/
theorem streamResidue_ringBytes_deposit (h : SparseOk 0#64 ring) {i k u : Nat} (f : DWord) (hi : i < k) (hk : k ≤ cap) :
    streamResidue (ringBytes cap (ringDeposit ring ((u + i) % cap) f) k u) =
      streamResidue (ringBytes cap ring k u) ^^^ crcUnstep^[64 * i] (residue f.toNat) := by
  induction k generalizing u i with
  | zero => omega
  | succ k ih =>
    rw [streamResidue_ringBytes_succ, streamResidue_ringBytes_succ]
    cases i with
    | zero =>
      have hrest : ringBytes cap (ringDeposit ring ((u + 0) % cap) f) k (u + 1) = ringBytes cap ring k (u + 1) := by
        refine ringBytes_congr fun j hj => sparseRead_write_ne _ fun heq => ?_
        rw [Nat.add_assoc] at heq
        have := slot_injective (by omega) (by omega) heq
        omega
      rw [hrest, Nat.add_zero, ringDeposit, sparseRead_write_same h, residue_toNat_xor, Nat.mul_zero,
        Function.iterate_zero_apply]
      ac_rfl
    | succ i =>
      have hslot : (u + (i + 1)) % cap ≠ u % cap := fun heq =>
        absurd (slot_injective (j := 0) (by omega) (by omega) heq) (Nat.succ_ne_zero i)
      have hrest := ih (u := u + 1) (i := i) (by omega) (by omega)
      rw [Nat.add_right_comm, Nat.add_assoc] at hrest
      rw [hrest, ringDeposit, sparseRead_write_ne _ (Ne.symm hslot), crcUnstep_iterate_xor,
        ← Function.iterate_add_apply, Nat.mul_succ, Nat.add_comm 64, BitVec.xor_assoc]

/-- A slot consumed leaves the words after it. -/
theorem streamResidue_ringBytes_consume (h : SparseOk 0#64 ring) (hcap : 0 < cap) (u : Nat) :
    crcUnstep^[64] (streamResidue (ringBytes cap (sparseWrite 0#64 ring (u % cap) 0) cap (u + 1))) =
      streamResidue (ringBytes cap ring cap u) ^^^ residue (sparseRead 0#64 ring (u % cap)).toNat := by
  obtain ⟨m, rfl⟩ := Nat.exists_eq_add_one_of_ne_zero hcap.ne'
  have hlast : (u + 1 + m) % (m + 1) = u % (m + 1) := by rw [Nat.add_assoc, Nat.add_comm 1 m, Nat.add_mod_right]
  have hrest : ringBytes (m + 1) (sparseWrite 0#64 ring (u % (m + 1)) 0) m (u + 1) = ringBytes (m + 1) ring m (u + 1) := by
    refine ringBytes_congr fun j hj => sparseRead_write_ne _ fun heq => ?_
    rw [Nat.add_assoc] at heq
    have := slot_injective (j := 0) (by omega) (by omega) heq
    omega
  have hempty : streamResidue (ringBytes (m + 1) (sparseWrite 0#64 ring (u % (m + 1)) 0) 1 (u + 1 + m)) = 0#32 := by
    refine streamResidue_ringBytes_zero fun i hi => ?_
    obtain rfl : i = 0 := by omega
    rw [Nat.add_zero (u + 1 + m), hlast, sparseRead_write_same h]
  rw [streamResidue_ringBytes_add, hrest, hempty, streamResidue_ringBytes_succ, crcUnstep_iterate_zero,
    BitVec.xor_zero, xor_xor_cancel_comm]

end Ring

/-! ### The steady state (R268, R269) -/

theorem sparseOk_largeWord {ring : RingWords} (h : SparseOk 0#64 ring) (lag cap : Nat) (terms : List Nat) (c : Word)
    (u : Nat) (d : DWord) : SparseOk 0#64 (largeWord lag cap terms c u d ring) :=
  ((h.write _ _).write _ _).write _ _

/-- The word that `large_word` moves: the input word, the ring's contributions to it, and the seed in word 0 (R268). -/
def movedWord (cap : Nat) (c : Word) (u : Nat) (d : DWord) (ring : RingWords) : DWord :=
  if u = 0 then d ^^^ sparseRead 0#64 ring (u % cap) ^^^ c.setWidth 64 else d ^^^ sparseRead 0#64 ring (u % cap)

theorem residue_movedWord (cap : Nat) (c : Word) (u : Nat) (d : DWord) (ring : RingWords) :
    residue (movedWord cap c u d ring).toNat =
      residue d.toNat ^^^ residue (sparseRead 0#64 ring (u % cap)).toNat ^^^ if u = 0 then c else 0#32 := by
  unfold movedWord
  split
  · rw [residue_toNat_xor, residue_toNat_xor, residue_toNat_setWidth]
  · rw [residue_toNat_xor, BitVec.xor_zero]

theorem largeWord_eq (lag cap : Nat) (terms : List Nat) (c : Word) (u : Nat) (d : DWord) (ring : RingWords) :
    largeWord lag cap terms c u d ring =
      ringDeposit (ringDeposit (sparseWrite 0#64 ring (u % cap) 0) ((u + lag - 1) % cap)
        (pushNear terms (movedWord cap c u d ring))) ((u + lag) % cap) (pushFar terms (movedWord cap c u d ring)) := rfl

section Steady

variable {lag cap : Nat} {terms : List Nat} (hlag : LagOk lag cap terms) (c : Word)
include hlag

/-- R268: a word taken in leaves the ring standing one word further on. -/
theorem streamResidue_largeWord {ring : RingWords} (h : SparseOk 0#64 ring) (u : Nat) (d : DWord) :
    crcUnstep^[64] (streamResidue (ringBytes cap (largeWord lag cap terms c u d ring) cap (u + 1))) =
      streamResidue (ringBytes cap ring cap u) ^^^ residue d.toNat ^^^ if u = 0 then c else 0#32 := by
  have htwo := hlag.two_le
  have hcap := hlag.lt_cap
  obtain ⟨v, hv⟩ : ∃ v, v = movedWord cap c u d ring := ⟨_, rfl⟩
  have hmoved := residue_movedWord cap c u d ring
  have hconsumed := h.write (u % cap) 0
  have hnear : (u + lag - 1) % cap = (u + 1 + (lag - 2)) % cap := by congr 1; omega
  have hfar : (u + lag) % cap = (u + 1 + (lag - 1)) % cap := by congr 1; omega
  have hsteps : 64 * (lag - 1) = 64 * (lag - 2) + 64 := by omega
  have hlast : 64 + 64 * (lag - 2) + 64 = 64 * lag := by omega
  have hpush : crcUnstep^[64] (crcUnstep^[64 * (lag - 2)] (residue (pushNear terms v).toNat) ^^^
      crcUnstep^[64 * (lag - 1)] (residue (pushFar terms v).toNat)) = residue v.toNat := by
    rw [hsteps, Function.iterate_add_apply, ← crcUnstep_iterate_xor, residue_pushNear_pushFar hlag.terms_le,
      ← Function.iterate_add_apply, ← Function.iterate_add_apply, hlast, hlag.congruence]
  rw [largeWord_eq, ← hv, hnear, hfar,
    streamResidue_ringBytes_deposit (sparseOk_ringDeposit hconsumed _ _) _ (by omega) le_rfl,
    streamResidue_ringBytes_deposit hconsumed _ (by omega) le_rfl, BitVec.xor_assoc, crcUnstep_iterate_xor, hpush,
    streamResidue_ringBytes_consume h (by omega), hv, hmoved]
  generalize residue (sparseRead 0#64 ring (u % cap)).toNat = r
  rw [BitVec.xor_assoc, BitVec.xor_comm (residue d.toNat), BitVec.xor_assoc r, xor_cancel_left, BitVec.xor_assoc]

/-- R269: k words taken in move the ring and the bytes still to come on by 8 k bytes; the seed goes into word 0. -/
theorem largeWords_eq {k u : Nat} {ring : RingWords} (h : SparseOk 0#64 ring) {bs : List Byte} (hk : 8 * k ≤ bs.length) :
    streamResidue (ringBytes cap (largeWords lag cap terms c k u bs ring) cap (u + k)) ^^^
        streamResidue (bs.drop (8 * k)) =
      crcStep^[64 * k] (streamResidue (ringBytes cap ring cap u) ^^^ streamResidue bs ^^^
        if u = 0 ∧ 0 < k then c else 0#32) := by
  induction k generalizing u ring bs with
  | zero => simp [largeWords]
  | succ k ih =>
    have hnext := ih (u := u + 1) (sparseOk_largeWord h lag cap terms c u (le 64 8 bs 0)) (bs := bs.drop 8)
      (by rw [List.length_drop]; omega)
    have hstep := streamResidue_largeWord hlag c h u (le 64 8 bs 0)
    have hbytes : streamResidue bs = streamResidue (bs.take 8) ^^^ crcUnstep^[64] (streamResidue (bs.drop 8)) :=
      streamResidue_take_drop (by omega)
    rw [residue_toNat_le (by decide), List.drop_zero] at hstep
    have hseed : (if u = 0 ∧ 0 < k + 1 then c else 0#32) = if u = 0 then c else 0#32 := by simp
    have hvalue : crcStep^[64] (streamResidue (ringBytes cap ring cap u) ^^^ streamResidue bs ^^^
          if u = 0 then c else 0#32) =
        streamResidue (ringBytes cap (largeWord lag cap terms c u (le 64 8 bs 0) ring) cap (u + 1)) ^^^
          streamResidue (bs.drop 8) := by
      rw [← crcStep_iterate_crcUnstep_iterate 64 (_ ^^^ streamResidue (bs.drop 8)), crcUnstep_iterate_xor, hstep, hbytes]
      congr 1
      generalize crcUnstep^[64] = x64
      ac_rfl
    have hdrop : bs.drop (8 * (k + 1)) = (bs.drop 8).drop (8 * k) := by rw [List.drop_drop, Nat.mul_succ, Nat.add_comm]
    have hsucc : ¬(u + 1 = 0 ∧ 0 < k) := by omega
    rw [if_neg hsucc, BitVec.xor_zero] at hnext
    rw [hseed, largeWords, hdrop, Nat.add_comm k 1, ← Nat.add_assoc, hnext, ← hvalue, ← Function.iterate_add_apply,
      Nat.mul_add, Nat.add_comm (64 * 1)]

/-! ### Which slots are live (R270) -/

omit hlag in
/-- Only the slots of the words from u to u + L − 1 hold anything but 0. -/
def RingLive (lag cap u : Nat) (ring : RingWords) : Prop :=
  SparseOk 0#64 ring ∧
    ∀ slot, sparseRead 0#64 ring slot ≠ 0 → ∃ i, u ≤ i ∧ i < u + lag ∧ slot = i % cap

omit hlag in
theorem RingLive.nil (lag cap u : Nat) : RingLive lag cap u [] := ⟨.nil, fun _ h => absurd rfl h⟩

theorem RingLive.largeWord {u : Nat} {ring : RingWords} (h : RingLive lag cap u ring) (d : DWord) :
    RingLive lag cap (u + 1) (largeWord lag cap terms c u d ring) := by
  have htwo := hlag.two_le
  refine ⟨sparseOk_largeWord h.1 lag cap terms c u d, fun slot hslot => ?_⟩
  by_cases hfar : slot = (u + lag) % cap
  · exact ⟨u + lag, by omega, by omega, hfar⟩
  · by_cases hnear : slot = (u + lag - 1) % cap
    · exact ⟨u + lag - 1, by omega, by omega, hnear⟩
    · rw [largeWord_eq, ringDeposit, sparseRead_write_ne _ hfar, ringDeposit, sparseRead_write_ne _ hnear] at hslot
      by_cases hu : slot = u % cap
      · rw [hu, sparseRead_write_same h.1] at hslot
        exact absurd rfl hslot
      · rw [sparseRead_write_ne _ hu] at hslot
        obtain ⟨i, hlo, hhi, hi⟩ := h.2 slot hslot
        have hne : i ≠ u := fun heq => hu (heq ▸ hi)
        exact ⟨i, by omega, by omega, hi⟩

theorem RingLive.largeWords {k u : Nat} {ring : RingWords} (h : RingLive lag cap u ring) (bs : List Byte) :
    RingLive lag cap (u + k) (largeWords lag cap terms c k u bs ring) := by
  induction k generalizing u ring bs with
  | zero => exact h
  | succ k ih =>
    have hnext := ih (h.largeWord hlag c (le 64 8 bs 0)) (bs.drop 8)
    rwa [Nat.add_assoc, Nat.add_comm 1 k] at hnext

/-- Past the live slots the ring stands for nothing. -/
theorem streamResidue_ringBytes_live {u k : Nat} {ring : RingWords} (h : RingLive lag cap u ring) (hlo : lag ≤ k)
    (hhi : k ≤ cap) : streamResidue (ringBytes cap ring k u) = streamResidue (ringBytes cap ring cap u) := by
  obtain ⟨m, rfl⟩ := Nat.exists_eq_add_of_le hhi
  have hempty : streamResidue (ringBytes (k + m) ring m (u + k)) = 0#32 := by
    refine streamResidue_ringBytes_zero fun i hi => ?_
    by_contra hne
    obtain ⟨j, hj, hjlt, hslot⟩ := h.2 _ hne
    obtain ⟨j, rfl⟩ := Nat.exists_eq_add_of_le hj
    rw [Nat.add_assoc] at hslot
    have := slot_injective (by omega) (by omega) hslot
    omega
  rw [streamResidue_ringBytes_add, hempty, crcUnstep_iterate_zero, BitVec.xor_zero]

/-! ### The drain and the tier (R270, R272) -/

/-- The tail with the pending contributions drained into it stands for the ring and the tail. -/
theorem streamResidue_drain {t : Nat} {ring : RingWords} (h : RingLive lag cap t ring) {bs : List Byte}
    (ht : t + lag ≤ bs.length / 8) :
    (drain lag cap ring bs t).length = bs.length - 8 * t ∧
      streamResidue (drain lag cap ring bs t) =
        streamResidue (ringBytes cap ring cap t) ^^^ streamResidue (bs.drop (8 * t)) := by
  have hcap := hlag.lt_cap
  have hmask : (ringBytes cap ring (min (t + lag + 1) (bs.length / 8) - t) t).length ≤ (bs.drop (8 * t)).length := by
    rw [length_ringBytes, List.length_drop]
    omega
  refine ⟨by rw [drain, length_xorPrefix, List.length_drop], ?_⟩
  rw [drain, streamResidue_xorPrefix hmask, streamResidue_ringBytes_live hlag h (by omega) (by omega), BitVec.xor_comm]

/-- R272: the large variant gives the byte-wise register; below its minimum length it is the small variant. -/
theorem chorbaLarge_eq {w : Nat} (hmin : 4 ≤ w) (hmax : w ≤ 8) (bs : List Byte) :
    chorbaLarge lag cap terms w c bs = (crcRaw c bs,
      if bs.length < 72 then .scalar else if bs.length < 8 * (lag + 33) then .chorbaS else .chorbaL) := by
  have hmin_eq : 8 * (lag + chorbaBlockWords + 1) = 8 * (lag + 33) := by rw [chorbaBlockWords]
  unfold chorbaLarge
  rw [hmin_eq]
  split
  · next hshort => rw [chorbaSmallTier_eq hmin hmax]
  · next hlong =>
    have hblock : blockWords lag (bs.length / 8) = (bs.length / 8 - lag) / 32 * 32 := rfl
    have hpos : 0 < blockWords lag (bs.length / 8) := by omega
    have hfit : blockWords lag (bs.length / 8) + lag ≤ bs.length / 8 := by omega
    generalize blockWords lag (bs.length / 8) = t at hpos hfit
    have hlive : RingLive lag cap t (largeWords lag cap terms c t 0 bs []) := by
      have := (RingLive.nil lag cap 0).largeWords hlag c (k := t) bs
      rwa [Nat.zero_add] at this
    have hvalue := largeWords_eq hlag c (k := t) (u := 0) SparseOk.nil (bs := bs) (by omega)
    obtain ⟨hlen, htail⟩ := streamResidue_drain hlag hlive hfit
    have hempty : streamResidue (ringBytes cap [] cap 0) = 0#32 := streamResidue_ringBytes_zero fun _ _ => rfl
    have hsteps : 8 * (bs.length - 8 * t) + 64 * t = 8 * bs.length := by omega
    rw [Nat.zero_add, hempty, BitVec.zero_xor, if_pos ⟨rfl, hpos⟩] at hvalue
    have hshort : ¬ bs.length < 72 := by omega
    rw [if_neg hshort]
    dsimp only
    rw [chorbaSmallTier_eq hmin hmax, crcRaw_zero_eq, hlen, htail, hvalue, ← Function.iterate_add_apply, hsteps,
      crcRaw_eq, BitVec.xor_comm c]

end Steady

/-- R272 with the lag, the capacity and the term set of R13, R14 and R265. -/
theorem chorbaLargeTier_eq {w : Nat} (hmin : 4 ≤ w) (hmax : w ≤ 8) (c : Word) (bs : List Byte) :
    chorbaLargeTier w c bs = (crcRaw c bs,
      if bs.length < 72 then .scalar else if bs.length < 119224 then .chorbaS else .chorbaL) :=
  chorbaLarge_eq lagOk_chorba c hmin hmax bs

end Sys2Proof.Machine
end

section
/-! SUPPORT. The fold engine keeps the stream register (44_simd_fold.md R310 to R320): a fold by 64 bytes is a division by
x^512, so a window shift keeps what the window and the bytes fed stand for, and so does every update built of shifts. -/

namespace Sys2Proof.Machine

/-! ### Carry-less products -/

/-- A carry-less product that drops no bit is the product of the residues. -/
theorem residue_clmulBits {p q r k : Nat} {a : BitVec r} (ha : a.toNat < 2 ^ p) (hk : p + k ≤ r) (b : BitVec q) :
    residue (clmulBits a b k).toNat = mulBits b.toNat (residue a.toNat) k := by
  induction k with
  | zero => simp [clmulBits, mulBits]
  | succ k ih =>
    have hfit : a.toNat <<< k < 2 ^ r := by
      rw [Nat.shiftLeft_eq]
      calc a.toNat * 2 ^ k < 2 ^ p * 2 ^ k := Nat.mul_lt_mul_of_pos_right ha (by positivity)
        _ = 2 ^ (p + k) := (pow_add 2 p k).symm
        _ ≤ 2 ^ r := Nat.pow_le_pow_right (by decide) (by omega)
    rw [clmulBits, residue_toNat_xor, ih (by omega), mulBits_succ, BitVec.testBit_toNat]
    congr 1
    split
    · rw [BitVec.toNat_shiftLeft, Nat.mod_eq_of_lt hfit, residue_shiftLeft]
    · exact residue_zero

theorem residue_clmul {p q : Nat} (a : BitVec p) (b : BitVec q) :
    residue (clmul a b).toNat = mulBits b.toNat (residue a.toNat) q := by
  have ha : (a.setWidth (p + q)).toNat = a.toNat := BitVec.toNat_setWidth_of_le (Nat.le_add_right p q)
  rw [clmul, residue_clmulBits (by rw [ha]; exact a.isLt) le_rfl, ha]

/-! ### The fold by 64 bytes (R312) -/

/-- K4LO is x^(−512) (R311). -/
theorem mulBits_k4lo (v : Word) : mulBits k4lo.toNat v 33 = crcStep^[512] v :=
  (isMul_mulBits k4lo.toNat 33).ext (isMul_crcStep.iterate 512) (by decide +kernel) v

/-- K4HI is x^(−448) (R311). -/
theorem mulBits_k4hi (v : Word) : mulBits k4hi.toNat v 33 = crcStep^[448] v :=
  (isMul_mulBits k4hi.toNat 33).ext (isMul_crcStep.iterate 448) (by decide +kernel) v

/-- R312: the fold of a block is the block moved 64 bytes on. -/
theorem residue_fold4 (x : Lane) : residue (fold4 x).toNat = crcStep^[512] (residue x.toNat) := by
  have hlow : (x.extractLsb' 0 64).toNat = x.toNat % 2 ^ 64 := by simp
  have hhigh : (x.extractLsb' 64 64).toNat = x.toNat >>> 64 := by
    have hlt : x.toNat >>> 64 < 2 ^ 64 := by rw [Nat.shiftRight_eq_div_pow]; omega
    rw [BitVec.extractLsb'_toNat, Nat.mod_eq_of_lt hlt]
  have hsteps : crcStep^[512] (crcUnstep^[64] (residue (x.toNat >>> 64))) = crcStep^[448] (residue (x.toNat >>> 64)) := by
    rw [show 512 = 448 + 64 from rfl, Function.iterate_add_apply, crcStep_iterate_crcUnstep_iterate]
  rw [fold4, residue_toNat_xor, BitVec.toNat_setWidth_of_le (by decide), BitVec.toNat_setWidth_of_le (by decide),
    residue_clmul, residue_clmul, mulBits_k4lo, mulBits_k4hi, hlow, hhigh, residue_split x.toNat 64,
    crcStep_iterate_xor, hsteps]

theorem crcRaw_fold4 (x : Lane) : crcRaw 0 (bytesLE 16 x ++ zeros 64) = crcRaw 0 (bytesLE 16 (fold4 x)) := by
  rw [crcRaw_zero_eq, crcRaw_zero_eq, streamResidue_append, streamResidue_zeros, crcUnstep_iterate_zero, BitVec.xor_zero,
    streamResidue_bytesLE (by decide), streamResidue_bytesLE (by decide), residue_fold4, ← Function.iterate_add_apply,
    List.length_append, length_bytesLE, length_bytesLE, length_zeros]

/-! ### The window shift (R313) -/

/-- XOR of a mask into the bytes from i on adds the mask's residue, moved i bytes on. -/
theorem streamResidue_xorAt {bs mask : List Byte} {i : Nat} (h : i + mask.length ≤ bs.length) :
    streamResidue (xorAt bs i mask) = streamResidue bs ^^^ crcUnstep^[8 * i] (streamResidue mask) := by
  have hlen : (bs.take i).length = i := by rw [List.length_take]; omega
  have hmask : mask.length ≤ (bs.drop i).length := by rw [List.length_drop]; omega
  rw [xorAt, streamResidue_append, hlen, streamResidue_xorPrefix hmask, crcUnstep_iterate_xor,
    streamResidue_take_drop (n := i) (bs := bs) (by omega), BitVec.xor_assoc]

/-- The block of the oldest bytes: they end it. -/
theorem residue_oldest {oldest : List Byte} (h : oldest.length ≤ 16) :
    residue (le 128 16 (zeros (16 - oldest.length) ++ oldest) 0).toNat =
      crcUnstep^[8 * (16 - oldest.length)] (streamResidue oldest) := by
  rw [residue_toNat_le (by decide), List.drop_zero, List.take_of_length_le (by simp; omega), streamResidue_append,
    streamResidue_zeros, length_zeros, BitVec.zero_xor]

section Shift

variable {window fed : List Byte} (hw : window.length = 64) (hf : fed.length ≤ 16)
include hw hf

/-- R313: the shifted window stands for the window and the bytes fed. -/
theorem crcUnstep_streamResidue_wshift :
    crcUnstep^[8 * fed.length] (streamResidue (wshift window fed)) = streamResidue (window ++ fed) := by
  have hold : (window.take fed.length).length = fed.length := by rw [List.length_take]; omega
  have hblock := residue_oldest (oldest := window.take fed.length) (by omega)
  rw [hold] at hblock
  have hfit : 48 + (bytesLE 16 (fold4 (le 128 16 (zeros (16 - fed.length) ++ window.take fed.length) 0))).length ≤
      (window.drop fed.length ++ fed).length := by
    rw [length_bytesLE, List.length_append, List.length_drop]
    omega
  have hback (x : Word) : crcUnstep^[8 * fed.length] (crcUnstep^[8 * 48] (crcStep^[512]
      (crcUnstep^[8 * (16 - fed.length)] x))) = x := by
    rw [crcStep_iterate_crcUnstep_comm, ← Function.iterate_add_apply, ← Function.iterate_add_apply,
      show 8 * fed.length + 8 * 48 + 8 * (16 - fed.length) = 512 by omega, crcUnstep_iterate_crcStep_iterate]
  have hsplit : window ++ fed = window.take fed.length ++ (window.drop fed.length ++ fed) := by
    rw [← List.append_assoc, List.take_append_drop]
  rw [hsplit, streamResidue_append (window.take _), hold, wshift, streamResidue_xorAt hfit,
    streamResidue_bytesLE (by decide), residue_fold4, hblock, crcUnstep_iterate_xor, hback, BitVec.xor_comm]

theorem crcRaw_wshift : crcRaw 0 (wshift window fed) = crcRaw 0 (window ++ fed) := by
  rw [crcRaw_zero_eq, crcRaw_zero_eq, length_wshift hw hf, ← crcUnstep_streamResidue_wshift hw hf, List.length_append,
    hw, Nat.mul_add, Function.iterate_add_apply, crcStep_iterate_crcUnstep_iterate]

theorem crcRaw_wshiftSome : crcRaw 0 (wshiftSome window fed) = crcRaw 0 (window ++ fed) := by
  unfold wshiftSome
  split
  · next h => rw [h, List.append_nil]
  · exact crcRaw_wshift hw hf

end Shift

/-! ### The canonical update (R314) -/

theorem wshiftBlocks_snd (k : Nat) (window bs : List Byte) : (wshiftBlocks k window bs).2 = bs.drop (16 * k) := by
  induction k generalizing window bs with
  | zero => rfl
  | succ k ih => rw [wshiftBlocks, ih, List.drop_drop, Nat.mul_succ, Nat.add_comm]

/-- Whole blocks fed to the window keep its running CRC. -/
theorem crcRaw_wshiftBlocks {k : Nat} {window bs : List Byte} (hw : window.length = 64) (hk : 16 * k ≤ bs.length) :
    crcRaw (crcRaw 0 (wshiftBlocks k window bs).1) (wshiftBlocks k window bs).2 = crcRaw 0 (window ++ bs) := by
  induction k generalizing window bs with
  | zero => rw [wshiftBlocks, crcRaw_append]
  | succ k ih =>
    have hf : (bs.take 16).length ≤ 16 := List.length_take_le 16 bs
    rw [wshiftBlocks, ih (length_wshift hw hf) (by rw [List.length_drop]; omega), crcRaw_append, crcRaw_wshift hw hf,
      ← crcRaw_append, List.append_assoc, List.take_append_drop]

theorem leadBytes_le (a n : Nat) : leadBytes a n ≤ 15 ∧ leadBytes a n ≤ n := by
  unfold leadBytes
  split <;> omega

section Update

variable {window : List Byte} (hw : window.length = 64) (bs : List Byte) (a : Nat) (v : Word)
include hw

/-- An update keeps the window's 64 bytes, and the running CRC of the window and the bytes fed, the seed in their first
four. -/
theorem canonUpdate_spec : (canonUpdate window bs a v).length = 64 ∧
    crcRaw 0 (canonUpdate window bs a v) = crcRaw (crcRaw 0 window) (xorPrefix bs (bytesLE 4 v)) := by
  obtain ⟨hlead, hin⟩ := leadBytes_le a (xorPrefix bs (bytesLE 4 v)).length
  unfold canonUpdate
  dsimp only
  generalize xorPrefix bs (bytesLE 4 v) = fed at hlead hin ⊢
  generalize leadBytes a fed.length = lead at hlead hin ⊢
  have htake : (fed.take lead).length ≤ 16 := by rw [List.length_take]; omega
  have hfit : 16 * ((fed.length - lead) / 16) ≤ (fed.drop lead).length := by rw [List.length_drop]; omega
  have hled := length_wshiftSome hw htake
  obtain ⟨hlen, hleft⟩ := length_wshiftBlocks hled hfit
  have hblocks := crcRaw_wshiftBlocks hled hfit
  generalize wshiftBlocks ((fed.length - lead) / 16) (wshiftSome window (fed.take lead)) (fed.drop lead) = run at *
  have hrest : run.2.length ≤ 16 := by rw [hleft, List.length_drop]; omega
  rw [crcRaw_wshiftSome hlen hrest, crcRaw_append, hblocks, crcRaw_append, crcRaw_wshiftSome hw htake, crcRaw_append,
    ← crcRaw_append, List.take_append_drop]
  exact ⟨length_wshiftSome hlen hrest, rfl⟩

end Update

/-- XOR of zeros changes nothing. -/
theorem xorPrefix_zeros (bs : List Byte) (n : Nat) : xorPrefix bs (zeros n) = bs := by
  induction bs generalizing n with
  | nil => rfl
  | cons b bs ih =>
    cases n with
    | zero => exact xorPrefix_nil (b :: bs)
    | succ n => rw [zeros, List.replicate_succ, xorPrefix, ← zeros, ih, BitVec.xor_zero]

/-- R315: a seed injected into the first four bytes is a seed XORed into the register, where it reaches them. -/
theorem crcRaw_xorPrefix_seed {v : Word} {bs : List Byte} (h : v = 0 ∨ 4 ≤ bs.length) (c : Word) :
    crcRaw c (xorPrefix bs (bytesLE 4 v)) = crcRaw (c ^^^ v) bs := by
  obtain rfl | hlen := h
  · rw [show bytesLE 4 (0 : Word) = zeros 4 from rfl, xorPrefix_zeros, xor_zero]
  · rw [crcRaw_eq, crcRaw_eq, length_xorPrefix, streamResidue_xorPrefix (by rwa [length_bytesLE]),
      streamResidue_bytesLE (by decide), residue_toNat, BitVec.xor_assoc, BitVec.xor_comm v]

theorem length_canonUpdate {window : List Byte} (hw : window.length = 64) (bs : List Byte) (a : Nat) (v : Word) :
    (canonUpdate window bs a v).length = 64 := (canonUpdate_spec hw bs a v).1

/-- R316: an update takes the stream register on over the bytes fed, the seed XORed in. -/
theorem crcRaw_canonUpdate {window bs : List Byte} {v : Word} (hw : window.length = 64) (h : v = 0 ∨ 4 ≤ bs.length)
    (a : Nat) : crcRaw 0 (canonUpdate window bs a v) = crcRaw (crcRaw 0 window ^^^ v) bs := by
  rw [(canonUpdate_spec hw bs a v).2, crcRaw_xorPrefix_seed h]

/-! ### The one-shot tier (R320) -/

/-- R320: the fold tier gives the byte-wise register; below 16 bytes it is the scalar tier. -/
theorem simdTier_eq {w : Nat} (hmin : 4 ≤ w) (hmax : w ≤ 8) (c : Word) (bs : List Byte) (a : Nat) :
    simdTier w c bs a = (crcRaw c bs, if bs.length < 16 then .scalar else .simd) := by
  unfold simdTier simdTierMin
  split
  · exact scalarTier_eq hmin hmax c bs
  · rw [crcRaw_canonUpdate (length_zeros 64) (.inr (by omega)), crcRaw_zero_zeros, zero_xor]

/-! ### Relational mode (R318) -/

@[simp] theorem length_relationalWindow (free : BitVec 480) (target : Word) :
    (relationalWindow free target).length = 64 := by
  simp [relationalWindow]

/-- Four bytes bring the register to a value exactly when they are the ones the draw solves for. -/
theorem crcRaw_bytesLE_eq_iff (c y target : Word) :
    crcRaw c (bytesLE 4 y) = target ↔ y = c ^^^ repeatStep crcUnstep 32 target := by
  have hregister : crcRaw c (bytesLE 4 y) = crcStep^[32] (c ^^^ y) := by
    rw [crcRaw_eq, streamResidue_bytesLE (by decide), residue_toNat, length_bytesLE]
  rw [hregister, repeatStep_eq_iterate, ← xor_eq_iff_right_eq]
  constructor
  · rintro rfl
    rw [crcUnstep_iterate_crcStep_iterate]
  · rintro h
    rw [h, crcStep_iterate_crcUnstep_iterate]

theorem crcRaw_relationalWindow (free : BitVec 480) (target : Word) : crcRaw 0 (relationalWindow free target) = target := by
  rw [relationalWindow, crcRaw_append, crcRaw_bytesLE_eq_iff]

/-- Every window of the right reduction is drawn. -/
theorem exists_relationalWindow {window : List Byte} {target : Word} (hw : window.length = 64)
    (h : crcRaw 0 window = target) : ∃ free, window = relationalWindow free target := by
  have hfree : bytesLE 60 (le 480 60 window 0) = window.take 60 := by
    rw [bytesLE_le rfl (by omega), List.drop_zero]
  have hlast : bytesLE 4 (le 32 4 window 60) = window.drop 60 := by
    rw [bytesLE_le rfl (by omega), List.take_of_length_le (by rw [List.length_drop]; omega)]
  rw [← List.take_append_drop 60 window, crcRaw_append, ← hlast, crcRaw_bytesLE_eq_iff] at h
  refine ⟨le 480 60 window 0, ?_⟩
  rw [relationalWindow, hfree, ← h, hlast, List.take_append_drop]

/-! ### What a fold command feeds (R314, R318, R323) -/

theorem length_fedWindow (s : State) (bs : List Byte) (a : Nat) (v : Word) : (fedWindow s bs a v).length = 64 := by
  unfold fedWindow
  split
  · exact length_canonUpdate (length_serFold _) bs a v
  · split
    · exact length_serFold _
    · exact length_relationalWindow _ _

/-- R47: in either mode the fed window's reduction is the stream register after the bytes fed, the seed injected. -/
theorem crcRaw_fedWindow (s : State) {bs : List Byte} (a : Nat) {v : Word} (h : v = 0 ∨ 4 ≤ bs.length) :
    crcRaw 0 (fedWindow s bs a v) = crcRaw (crcRaw 0 (serFold s.fold) ^^^ v) bs := by
  unfold fedWindow
  split
  · exact crcRaw_canonUpdate (length_serFold _) h a
  · split
    · next hnone =>
      subst hnone
      obtain rfl : v = 0 := h.resolve_right (by decide)
      rw [crcRaw_nil, xor_zero]
    · exact crcRaw_relationalWindow _ _

end Sys2Proof.Machine
end

section
/-! SUPPORT. The tier selector of CRC32.AUTO, and what every CRC32 command leaves: the checksum of its source and the tier it
ran (40_dispatcher.md R153 to R158). -/

namespace Sys2Proof.Machine

/-! ### The selector (R156) -/

theorem seventy_two_le_smallThreshold (p : Params) : 72 ≤ smallThreshold p := by
  unfold smallThreshold
  split <;> decide

theorem largeThreshold_ge (p : Params) : 119224 ≤ largeThreshold p := by
  have := four_le_braidW p
  unfold largeThreshold
  omega

/-- The tier for n bytes that no Chorba variant takes (R156, R162). -/
def braidedOrScalarTier (p : Params) (en : Enables) (n : Nat) : Tier :=
  if en.braid = true ∧ braidN p * braidW p + braidW p - 1 ≤ n then .braid else .scalar

theorem braidedOrScalar_eq (p : Params) (en : Enables) (c : Word) (bs : List Byte) (a : Nat) :
    braidedOrScalar p en c bs a = (crcRaw c bs, braidedOrScalarTier p en bs.length) := by
  unfold braidedOrScalar braidedOrScalarTier
  split
  · next hen =>
    rw [braidedTier_eq (four_le_braidW p) (braidW_le_eight p) (braidN_pos p)]
    by_cases hlong : braidN p * braidW p + braidW p - 1 ≤ bs.length
    · rw [if_neg (Nat.not_lt.2 hlong), if_pos (And.intro hen hlong)]
    · rw [if_pos (Nat.lt_of_not_le hlong), if_neg fun h => hlong h.2]
  · next hen =>
    rw [scalarTier_eq (four_le_braidW p) (braidW_le_eight p), if_neg fun h => hen h.1]

/-- The tier the selector gives m bytes from a 16-byte boundary (R156). -/
def afterPrefixTier (p : Params) (en : Enables) (m : Nat) : Tier :=
  if en.chorba = true ∧ largeThreshold p < m then .chorbaL
  else if en.chorba = true ∧ smallThreshold p < m then .chorbaS
  else braidedOrScalarTier p en m

theorem afterPrefix_eq (p : Params) (en : Enables) (c : Word) (bs : List Byte) (a : Nat) :
    afterPrefix p en c bs a = (crcRaw c bs, afterPrefixTier p en bs.length) := by
  have hlarge := largeThreshold_ge p
  have hsmall := seventy_two_le_smallThreshold p
  unfold afterPrefix afterPrefixTier
  simp only [Bool.and_eq_true, decide_eq_true_eq]
  split
  · next h =>
    rw [chorbaLargeTier_eq (four_le_braidW p) (braidW_le_eight p), if_neg (by omega), if_neg (by omega)]
  · split
    · next h => rw [chorbaSmallTier_eq (four_le_braidW p) (braidW_le_eight p), if_neg (by omega)]
    · exact braidedOrScalar_eq p en c bs a

/-- The tier CRC32.AUTO runs over n bytes from a (R156). -/
def selectedTier (p : Params) (en : Enables) (n a : Nat) : Tier :=
  if en.simd = true ∧ 256 ≤ n then .simd
  else if prefixBytes a < n then afterPrefixTier p en (n - prefixBytes a)
  else braidedOrScalarTier p en n

/-- R154: whichever tier is selected, CRC32.AUTO gives the byte-wise register. -/
theorem autoTier_eq (p : Params) (en : Enables) (c : Word) (bs : List Byte) (a : Nat) :
    autoTier p en c bs a = (crcRaw c bs, selectedTier p en bs.length a) := by
  unfold autoTier selectedTier simdMin
  simp only [Bool.and_eq_true, decide_eq_true_eq]
  split
  · next h => rw [simdTier_eq (four_le_braidW p) (braidW_le_eight p), if_neg (by omega)]
  · split
    · rw [scalarTier_eq (four_le_braidW p) (braidW_le_eight p), afterPrefix_eq, ← crcRaw_append, List.take_append_drop,
        List.length_drop]
    · exact braidedOrScalar_eq p en c bs a

/-! ### The CRC32 commands -/

/-- The tier a CRC32 command runs and reports; no other command has one. -/
def crcTier (i : Instr) (s : State) : Tier :=
  match i with
  | .crc32Auto => selectedTier s.params (enables s) (lenOp s) (srcOp s)
  | .crc32Scalar => .scalar
  | .crc32Braid => if lenOp s < braidN s.params * braidW s.params + braidW s.params - 1 then .scalar else .braid
  | .crc32ChorbaS => if lenOp s < 72 then .scalar else .chorbaS
  | .crc32ChorbaL => if lenOp s < 72 then .scalar else if lenOp s < 119224 then .chorbaS else .chorbaL
  | .crc32Simd => if lenOp s < 16 then .scalar else .simd
  | .nop | .foldInit | .foldUpdate _ | .foldCopy | .foldFinal | .foldSave | .foldLoad => .none

/-- R153 over a tier function that gives the byte-wise register: ACC takes the checksum of the source. -/
theorem crc32Body_eq {tierfn : Word → List Byte → Nat → Word × Tier} {t : Tier} {s : State}
    (h : tierfn (s.acc ^^^ M32) (sourceBytes s) (srcOp s) = (crcRaw (s.acc ^^^ M32) (sourceBytes s), t)) :
    ∃ k, crc32Body tierfn s = ({ s with acc := crc32 s.acc (sourceBytes s), ring := k }, t) ∧
      (t ≠ .chorbaL → k = s.ring) := by
  by_cases ht : t = .chorbaL
  · refine ⟨s.draws, ?_, fun hne => absurd ht hne⟩
    simp [crc32Body, h, ht, crc32, State.setAcc, State.setRing]
  · refine ⟨s.ring, ?_, fun _ => rfl⟩
    simp [crc32Body, h, ht, crc32, State.setAcc]

/-- Every CRC32 command's body leaves the checksum of the source in ACC, and the ring too unless the large Chorba body ran
(R153, R154). -/
theorem bodyOf_crc32 {i : Instr} (hi : i ∈ crc32Commands) (s : State) :
    ∃ k, bodyOf i s = ({ s with acc := crc32 s.acc (sourceBytes s), ring := k }, crcTier i s) ∧
      (crcTier i s ≠ .chorbaL → k = s.ring) := by
  have hmin := four_le_braidW s.params
  have hmax := braidW_le_eight s.params
  simp only [List.mem_cons, List.not_mem_nil, or_false] at hi
  obtain rfl | rfl | rfl | rfl | rfl | rfl := hi
  · exact crc32Body_eq (tierfn := autoTier s.params (enables s)) (by rw [autoTier_eq, length_engineRead, crcTier])
  · exact crc32Body_eq (tierfn := fun c bs _ => scalarTier (braidW s.params) c bs)
      (by rw [scalarTier_eq hmin hmax, crcTier])
  · exact crc32Body_eq (tierfn := braidedTier (braidW s.params) (braidN s.params))
      (by rw [braidedTier_eq hmin hmax (braidN_pos s.params), length_engineRead, crcTier])
  · exact crc32Body_eq (tierfn := fun c bs _ => chorbaSmallTier (braidW s.params) c bs)
      (by rw [chorbaSmallTier_eq hmin hmax, length_engineRead, crcTier])
  · exact crc32Body_eq (tierfn := fun c bs _ => chorbaLargeTier (braidW s.params) c bs)
      (by rw [chorbaLargeTier_eq hmin hmax, length_engineRead, crcTier])
  · exact crc32Body_eq (tierfn := simdTier (braidW s.params)) (by rw [simdTier_eq hmin hmax, length_engineRead, crcTier])

theorem statusTier_of_endsWith {code : BitVec 4} {tier : BitVec 3} {u t : State} (h : EndsWith code tier u t) :
    statusTier t.status = tier := by
  obtain ⟨-, -, -, -, htier, -⟩ := h
  exact htier

/-- An available CRC32 command over an accessible source completes: ACC holds the checksum of the source, STATUS reports the
tier that ran, and the ring alone may change beside them (R153, R154). -/
theorem exec_crc32 {i : Instr} {s : State} (hi : i ∈ crc32Commands) (hu : unavail i s = false)
    (hacc : Accessible s.params (srcOp s) (lenOp s) .read) :
    ∃ t, exec i s = .next t ∧
      EndsOk (tierBits (crcTier i s)) { s with acc := crc32 s.acc (sourceBytes s), ring := t.ring } t ∧
      (crcTier i s ≠ .chorbaL → t.ring = s.ring) := by
  have hr := ranges_of_source (s := s) (List.mem_cons_of_mem _ (List.mem_cons_of_mem _ hi))
  have hown : seedTooShort i s = false ∧ copyOverlaps i s = false := by
    simp only [List.mem_cons, List.not_mem_nil, or_false] at hi
    obtain rfl | rfl | rfl | rfl | rfl | rfl := hi <;> exact ⟨rfl, rfl⟩
  have hcheck : check i s = none :=
    check_of_accessible hu hown.1 hown.2 (by rw [hr]; exact List.forall_mem_singleton.2 hacc)
  obtain ⟨k, hbody, hring⟩ := bodyOf_crc32 hi s
  refine ⟨_, exec_of_check_none hcheck, ?_⟩
  rw [hbody]
  exact ⟨endsOk_finish (crcTier i s) _, hring⟩

/-- The same where no large Chorba body runs: the ring is left too. -/
theorem exec_crc32_of_not_large {i : Instr} {s : State} (hi : i ∈ crc32Commands) (hu : unavail i s = false)
    (hacc : Accessible s.params (srcOp s) (lenOp s) .read) (ht : crcTier i s ≠ .chorbaL) :
    ∃ t, exec i s = .next t ∧ EndsOk (tierBits (crcTier i s)) { s with acc := crc32 s.acc (sourceBytes s) } t := by
  obtain ⟨t, hexec, hend, hring⟩ := exec_crc32 hi hu hacc
  rw [hring ht] at hend
  exact ⟨t, hexec, hend⟩

/-- With no byte to read every CRC32 command runs the scalar tier (R158). -/
theorem crcTier_of_empty {i : Instr} {s : State} (hi : i ∈ crc32Commands) (h : lenOp s = 0) : crcTier i s = .scalar := by
  have hwidth := four_le_braidW s.params
  have hblock : 0 < braidN s.params * braidW s.params := Nat.mul_pos (braidN_pos s.params) (by omega)
  simp only [List.mem_cons, List.not_mem_nil, or_false] at hi
  obtain rfl | rfl | rfl | rfl | rfl | rfl := hi
  · rw [crcTier, h, selectedTier, if_neg (by omega), if_neg (Nat.not_lt_zero _), braidedOrScalarTier, if_neg (by omega)]
  · rfl
  · rw [crcTier, h, if_pos (by omega)]
  · rw [crcTier, h, if_pos (by decide)]
  · rw [crcTier, h, if_pos (by decide)]
  · rw [crcTier, h, if_pos (by decide)]

/-- The selector's tier codes on plain numbers (R156, R157). -/
theorem tierBits_selectedTier (p : Params) (en : Enables) (n a : Nat) :
    tierBits (selectedTier p en n a) =
      let k := (16 - a % 16) % 16
      let m := if k < n then n - k else n
      let w := braidW p
      if en.simd = true ∧ 256 ≤ n then 5
      else if en.chorba = true ∧ k < n ∧ 64 * w * 1024 < m then 4
      else if en.chorba = true ∧ k < n ∧ (if w = 8 then 72 else 80) < m then 3
      else if en.braid = true ∧ braidN p * w + w - 1 ≤ m then 2
      else 1 := by
  have hprefix : prefixBytes a = (16 - a % 16) % 16 := rfl
  have hsmall : smallThreshold p = if braidW p = 8 then 72 else 80 := by
    unfold smallThreshold braidW
    cases p.braidW <;> rfl
  have hlarge : largeThreshold p = 64 * braidW p * 1024 := rfl
  unfold selectedTier afterPrefixTier braidedOrScalarTier
  rw [hprefix, hsmall, hlarge]
  generalize (16 - a % 16) % 16 = k
  by_cases hk : k < n <;> simp only [hk, if_true, if_false, true_and, false_and, and_false, apply_ite tierBits] <;> rfl

end Sys2Proof.Machine
end

section
/-! SUPPORT. The statements about the CRC32 commands that are settled here (40_dispatcher.md R153 to R158; 41_scalar.md R205,
R208; 42_braided.md R240; 43_chorba.md R290, R291; 44_simd_fold.md R321). -/

namespace Sys2Proof.Proofs

open Machine

/-- Settles O43: every tier the selector can pick gives the byte-wise register. -/
theorem autoCommandComputesTheChecksum : Obligations.AutoCommandComputesTheChecksum := by
  intro s hacc
  obtain ⟨t, hexec, hend, -⟩ := exec_crc32 (by decide) (unavail_of_noEnable (i := .crc32Auto) (by decide)) hacc
  have htier := statusTier_of_endsWith hend
  exact ⟨t, hexec, htier ▸ hend⟩

/-- Settles O41: the ring with the bytes still to come stands for one register before every word of the steady state. -/
theorem chorbaLargeCommandComputesTheChecksum : Obligations.ChorbaLargeCommandComputesTheChecksum := by
  intro s h hacc
  have hu : unavail .crc32ChorbaL s = false := by rw [unavail_of_chorba (by decide), h, Bool.not_true]
  obtain ⟨t, hexec, hend, -⟩ := exec_crc32 (by decide) hu hacc
  simp only [crcTier, apply_ite tierBits] at hend
  exact ⟨t, hexec, hend⟩

/-- Settles O39: the lanes, a word apart, stand for one register through every super-block. -/
theorem braidCommandComputesTheChecksum : Obligations.BraidCommandComputesTheChecksum := by
  intro s h hacc
  have hu : unavail .crc32Braid s = !s.ctrl.getLsbD 0 := rfl
  obtain ⟨t, hexec, hend⟩ := exec_crc32_of_not_large (i := .crc32Braid) (by decide)
    (by rw [hu, h, Bool.not_true]) hacc (by rw [crcTier]; split <;> decide)
  rw [crcTier, apply_ite tierBits] at hend
  exact ⟨t, hexec, hend⟩

/-- Settles O40: each iteration's words are congruent to their contributions. -/
theorem chorbaSmallCommandComputesTheChecksum : Obligations.ChorbaSmallCommandComputesTheChecksum := by
  intro s h hacc
  have hu : unavail .crc32ChorbaS s = false := by rw [unavail_of_chorba (by decide), h, Bool.not_true]
  obtain ⟨t, hexec, hend⟩ := exec_crc32_of_not_large (by decide) hu hacc (by rw [crcTier]; split <;> decide)
  rw [crcTier, apply_ite tierBits] at hend
  exact ⟨t, hexec, hend⟩

/-- Settles O42: each window shift keeps the running CRC. -/
theorem simdCommandComputesTheChecksum : Obligations.SimdCommandComputesTheChecksum := by
  intro s h hacc
  obtain ⟨t, hexec, hend⟩ := exec_crc32_of_not_large (i := .crc32Simd) (by decide) (unavail_of_simdEn (by decide) h) hacc
    (by rw [crcTier]; split <;> decide)
  rw [crcTier, apply_ite tierBits] at hend
  exact ⟨t, hexec, hend⟩

/-- Settles O38: a word step of either width is its byte steps. -/
theorem scalarCommandComputesTheChecksum : Obligations.ScalarCommandComputesTheChecksum := fun s hacc =>
  exec_crc32_of_not_large (i := .crc32Scalar) (by decide) (unavail_of_noEnable (by decide)) hacc (by rw [crcTier]; decide)

/-- Settles O37: the body of every CRC32 command writes ACC, and the ring when its tier code is 4. -/
theorem crc32CommandsWriteOnlyAccAndStatus : Obligations.Crc32CommandsWriteOnlyAccAndStatus := by
  intro i s hi hu hacc
  obtain ⟨t, hexec, hend, hring⟩ := exec_crc32 hi hu hacc
  have htier := statusTier_of_endsWith hend
  have hacc_eq : t.acc = crc32 s.acc (sourceBytes s) := by rw [hend.1]
  have hmem : t.mem = s.mem := by rw [hend.1]
  refine ⟨t, hexec, ?_, fun hne => hring fun hlarge => hne ?_, fun x => by rw [hmem]⟩
  · rw [hacc_eq, htier]
    exact hend
  · rw [htier, hlarge]
    rfl

/-- Settles O45: no byte is read, so every check passes, every tier falls back to the scalar one, and the checksum of no
bytes is the seed. -/
theorem emptyInputLeavesAcc : Obligations.EmptyInputLeavesAcc := by
  intro i s hi hu hlen
  have hacc : Accessible s.params (srcOp s) (lenOp s) .read := by
    rw [hlen]
    exact ⟨(srcOp_lt s).le, fun d hd => absurd hd (Nat.not_lt_zero d)⟩
  have htier : crcTier i s = .scalar := crcTier_of_empty hi hlen
  have hsource : sourceBytes s = [] := by rw [sourceBytes, hlen]; rfl
  have hcrc : crc32 s.acc [] = s.acc := xor_cancel_right s.acc M32
  obtain ⟨t, hexec, hend⟩ := exec_crc32_of_not_large hi hu hacc (by rw [htier]; decide)
  rw [htier, hsource, hcrc] at hend
  exact ⟨t, hexec, hend⟩

/-- Settles O44: a tier code is that of the tier that ran. -/
theorem autoCommandReportsTheSelectedTier : Obligations.AutoCommandReportsTheSelectedTier := by
  intro s t hacc hexec
  obtain ⟨t', hexec', hend, -⟩ := exec_crc32 (by decide) (unavail_of_noEnable (i := .crc32Auto) (by decide)) hacc
  obtain rfl : t' = t := Host.Outcome.next.inj (hexec'.symm.trans hexec)
  rw [statusTier_of_endsWith hend]
  exact tierBits_selectedTier s.params (enables s) (lenOp s) (srcOp s)

/-- Settles O46: the word reduction divides by x^(8W), as W byte steps do. -/
theorem wordReductionEqualsItsBytes : Obligations.WordReductionEqualsItsBytes := by
  intro w c bs i hw hi
  have hstep := wordStep_eq (by omega) (by omega) c hi
  rwa [wordStep] at hstep

/-- Settles O48: a word moves the two newest live slots on and empties the oldest. -/
theorem ringHoldsOnlyTheLagWindow : Obligations.RingHoldsOnlyTheLagWindow := by
  intro c bs t slot hslot
  have hlive := (RingLive.nil chorbaLag chorbaRingWords 0).largeWords lagOk_chorba c (k := t) bs
  rw [Nat.zero_add] at hlive
  exact hlive.2 slot hslot

end Sys2Proof.Proofs
end

section
/-! SUPPORT. The fold commands that feed data, FOLD_UPDATE and FOLD_COPY: when their checks pass, and what they leave
(44_simd_fold.md R323, R324). -/

namespace Sys2Proof.Machine

/-! ### A command that ends with OK -/

section Passed

variable {i : Instr} {s t : State}

/-- When no check fails, no condition holds (R378). -/
theorem conditions_of_check_none (h : check i s = none) :
    unavail i s = false ∧ outOfRange i s = false ∧ seedTooShort i s = false ∧ copyOverlaps i s = false ∧
      refusedAddress i s = none := by
  have hu : unavail i s = false := by
    by_contra hne
    cases (check_of_unavail (Bool.not_eq_false _ ▸ hne)).symm.trans h
  have ho : outOfRange i s = false := by
    by_contra hne
    cases (check_of_outOfRange hu (Bool.not_eq_false _ ▸ hne)).symm.trans h
  have hs : seedTooShort i s = false := by
    by_contra hne
    cases (check_of_seedTooShort hu ho (Bool.not_eq_false _ ▸ hne)).symm.trans h
  have hc : copyOverlaps i s = false := by
    by_contra hne
    cases (check_of_copyOverlaps hu ho hs (Bool.not_eq_false _ ▸ hne)).symm.trans h
  exact ⟨hu, ho, hs, hc, Option.map_eq_none_iff.1 ((check_of_inRange hu ho hs hc).symm.trans h)⟩

/-- The checks raise faults only. -/
theorem Raises.code_ne_ok {f : Raised} (h : Raises i s f) : f.code ≠ .ok := by
  cases h with
  | unavail | range | seed | overlap | bus => exact fun hok => by cases hok

/-- A command that reports OK passed its checks. -/
theorem check_none_of_statusCode (hexec : exec i s = .next t) (h : statusCode t.status = 0) : check i s = none := by
  cases hcheck : check i s with
  | none => rfl
  | some f =>
    have hcode : codeBits f.code = codeBits .ok := (statusCode_of_check hexec hcheck).symm.trans h
    exact absurd (codeBits_injective hcode) (raises_of_check hcheck).code_ne_ok

/-- A command that reports OK ran its body. -/
theorem eq_finish_of_statusCode (hexec : exec i s = .next t) (h : statusCode t.status = 0) :
    t = finish .ok (bodyOf i s).2 (bodyOf i s).1 :=
  Host.Outcome.next.inj (hexec.symm.trans (exec_of_check_none (check_none_of_statusCode hexec h)))

end Passed

/-! ### FOLD_UPDATE -/

section Update

variable {inj : Bool} {s : State}

/-- A seed that passes the check reaches the bytes it is injected into (R375). -/
theorem injected_eq_zero_or (h : seedTooShort (.foldUpdate inj) s = false) :
    injected inj s = 0 ∨ 4 ≤ (sourceBytes s).length := by
  cases inj with
  | false => exact .inl rfl
  | true =>
    by_cases hzero : s.acc ^^^ M32 = 0
    · exact .inl hzero
    · have hlong : ¬ lenOp s < foldMinSeeded := fun hlt => by
        rw [seedTooShort_eq_true.2 ⟨rfl, hzero, hlt⟩] at h
        cases h
      rw [foldMinSeeded] at hlong
      exact .inr (by rw [length_engineRead]; omega)

theorem seedTooShort_eq_false (h : inj = true → s.acc ^^^ M32 ≠ 0 → 16 ≤ lenOp s) :
    seedTooShort (.foldUpdate inj) s = false := by
  refine Bool.eq_false_iff.2 fun htrue => ?_
  obtain ⟨hi, hseed, hlen⟩ := seedTooShort_eq_true.1 htrue
  cases hi
  exact absurd (h rfl hseed) (Nat.not_le.2 hlen)

theorem exec_foldUpdate (h : s.ctrl.getLsbD 2 = true) (hacc : Accessible s.params (srcOp s) (lenOp s) .read)
    (hseed : inj = true → s.acc ^^^ M32 ≠ 0 → 16 ≤ lenOp s) :
    exec (.foldUpdate inj) s = .next (finish .ok .simd
      (s.setFold (deserFold (fedWindow s (sourceBytes s) (srcOp s) (injected inj s))))) :=
  exec_of_check_none (check_of_accessible (unavail_of_simdEn (by cases inj <;> decide) h) (seedTooShort_eq_false hseed)
    rfl (List.forall_mem_singleton.2 hacc))

/-- With no byte to feed FOLD stays as it is, in both modes (R323). -/
theorem fedWindow_nil (s : State) (a : Nat) (v : Word) : fedWindow s [] a v = serFold s.fold := by
  unfold fedWindow
  split
  · simp [canonUpdate, xorPrefix, leadBytes, wshiftSome, wshiftBlocks]
  · exact if_pos rfl

theorem fedWindow_canonical (h : s.params.lanesMode = .canonical) (bs : List Byte) (a : Nat) (v : Word) :
    fedWindow s bs a v = canonUpdate (serFold s.fold) bs a v := by
  simp [fedWindow, h]

theorem serFold_deserFold_fedWindow (s : State) (bs : List Byte) (a : Nat) (v : Word) :
    serFold (deserFold (fedWindow s bs a v)) = fedWindow s bs a v :=
  serFold_deserFold (length_fedWindow s bs a v)

end Update

/-! ### FOLD_COPY -/

/-- The state FOLD_COPY's body leaves: the window fed, the source copied (R324). -/
def copiedState (s : State) : State :=
  (s.setFold (deserFold (fedWindow s (sourceBytes s) (srcOp s) 0))).setMem
    (writeBytes s.mem (dstOp s) (engineRead s (lenOp s) (srcOp s) (lenOp s)))

theorem bodyOf_foldCopy (s : State) : bodyOf .foldCopy s = (copiedState s, .simd) := rfl

theorem exec_foldCopy {s : State} (h : s.ctrl.getLsbD 2 = true) (hsrc : Accessible s.params (srcOp s) (lenOp s) .read)
    (hdst : Accessible s.params (dstOp s) (lenOp s) .write)
    (hapart : lenOp s = 0 ∨ dstOp s + lenOp s ≤ srcOp s ∨ srcOp s + lenOp s ≤ dstOp s) :
    exec .foldCopy s = .next (finish .ok .simd (copiedState s)) := by
  have hc : copyOverlaps .foldCopy s = false := by
    refine Bool.eq_false_iff.2 fun htrue => ?_
    obtain ⟨-, hpos, hlow, hhigh⟩ := copyOverlaps_eq_true.1 htrue
    omega
  exact exec_of_check_none (check_of_accessible (unavail_of_simdEn (by decide) h) rfl hc
    (List.forall_mem_cons.2 ⟨hsrc, List.forall_mem_singleton.2 hdst⟩))

/-- The engine reads the same bytes where two states have the same memory bytes, racing writes and free values. -/
theorem engineRead_congr {s u : State} (hracing : u.racing = s.racing) (hdraws : u.draws = s.draws) {j a n : Nat}
    (hmem : ∀ x, a ≤ x → x < a + n → memRead u.mem x = memRead s.mem x) : engineRead u j a n = engineRead s j a n := by
  induction n generalizing j a with
  | zero => rfl
  | succ n ih =>
    have hbyte : engineByte u j a = engineByte s j a := by
      rw [engineByte, engineByte, hracing, hdraws, hmem a le_rfl (by omega)]
    rw [engineRead, engineRead, hbyte, ih fun x hlo hhi => hmem x (by omega) (by omega)]

/-- Bytes read from two memories that agree on them. -/
theorem readBytes_congr {m n : Memory} {a k : Nat} (h : ∀ x, a ≤ x → x < a + k → memRead m x = memRead n x) :
    readBytes m a k = readBytes n a k := by
  induction k generalizing a with
  | zero => rfl
  | succ k ih =>
    rw [readBytes, readBytes, h a le_rfl (by omega), ih fun x hlo hhi => h x (by omega) (by omega)]

end Sys2Proof.Machine
end

section
/-! SUPPORT. The statements about the fold engine that are settled here (10_state.md R47; 44_simd_fold.md R312, R313, R318, R323,
R324, R328, R329). -/

namespace Sys2Proof.Proofs

open Machine

/-- Settles O55: the two constants are x^(−512) and x^(−448). -/
theorem foldBy64BytesKeepsTheCrc : Obligations.FoldBy64BytesKeepsTheCrc := crcRaw_fold4

/-- Settles O56: the oldest bytes, folded, stand 64 bytes further on. -/
theorem windowShiftKeepsTheCrc : Obligations.WindowShiftKeepsTheCrc :=
  fun _ _ hwindow _ hfed => crcRaw_wshift hwindow hfed

/-- Settles O58: for every 60 bytes one choice of the last four gives the reduction. -/
theorem relationalWindowsAreExactlyTheAllowedOnes : Obligations.RelationalWindowsAreExactlyTheAllowedOnes := by
  intro target window hwindow
  constructor
  · exact exists_relationalWindow hwindow
  · rintro ⟨free, rfl⟩
    exact crcRaw_relationalWindow free target

/-- Settles O57: a command that reports OK fed its window, and a fed window reduces to the stream register in either mode. -/
theorem foldInvariantHoldsInBothModes : Obligations.FoldInvariantHoldsInBothModes := by
  constructor
  · intro inj s t hexec hcode
    obtain ⟨-, -, hseed, -⟩ := conditions_of_check_none (check_none_of_statusCode hexec hcode)
    obtain rfl := eq_finish_of_statusCode hexec hcode
    have hfold : (finish .ok (bodyOf (.foldUpdate inj) s).2 (bodyOf (.foldUpdate inj) s).1).fold =
        deserFold (fedWindow s (sourceBytes s) (srcOp s) (injected inj s)) := rfl
    rw [hfold, serFold_deserFold_fedWindow, crcRaw_fedWindow s (srcOp s) (injected_eq_zero_or hseed), injected]
  · intro s t hexec hcode
    obtain rfl := eq_finish_of_statusCode hexec hcode
    rw [bodyOf_foldCopy, finish_fold]
    have hfold : (copiedState s).fold = deserFold (fedWindow s (sourceBytes s) (srcOp s) 0) := rfl
    rw [hfold, serFold_deserFold_fedWindow, crcRaw_fedWindow s (srcOp s) (.inl rfl), xor_zero]

/-- Settles O50: the checks pass, and the body writes FOLD alone. -/
theorem foldUpdateFeedsTheWindow : Obligations.FoldUpdateFeedsTheWindow := by
  intro inj s h hacc hseed
  refine ⟨_, exec_foldUpdate h hacc hseed, endsOk_finish .simd (s.setFold _), fun hlen => ?_, fun hmode => ?_⟩
  · have hsource : sourceBytes s = [] := by rw [sourceBytes, hlen]; rfl
    rw [finish_fold, State.setFold_fold, hsource, fedWindow_nil, deserFold_serFold]
  · rw [finish_fold, State.setFold_fold, serFold_deserFold_fedWindow, fedWindow_canonical hmode, injected]

/-- Settles O51: the checks pass, the window is fed, and memory reads back the bytes copied to the destination. -/
theorem foldCopyFeedsAndCopies : Obligations.FoldCopyFeedsAndCopies := by
  intro s h hwf hsrc hdst hapart
  have hlen : (engineRead s (lenOp s) (srcOp s) (lenOp s)).length = lenOp s := length_engineRead _ _ _ _
  have hmem : (finish .ok .simd (copiedState s)).mem =
      writeBytes s.mem (dstOp s) (engineRead s (lenOp s) (srcOp s) (lenOp s)) := rfl
  have hfold : (finish .ok .simd (copiedState s)).fold = deserFold (fedWindow s (sourceBytes s) (srcOp s) 0) := rfl
  refine ⟨_, exec_foldCopy h hsrc hdst hapart, endsOk_finish .simd (copiedState s), fun hmode => ?_, fun hquiet => ?_,
    fun x hx => ?_⟩
  · rw [hfold, serFold_deserFold_fedWindow, fedWindow_canonical hmode]
  · have hread := readBytes_writeBytes hwf (a := dstOp s) (bs := engineRead s (lenOp s) (srcOp s) (lenOp s))
      (by rw [hlen]; exact hdst.1)
    rw [hlen] at hread
    rw [hmem, hread, sourceBytes, engineRead_quiet hquiet, engineRead_quiet hquiet]
  · rw [hmem, memRead_writeBytes_outside s.mem (by rwa [hlen])]

/-- Settles O59: the load reads the bytes the save wrote, and saved lanes load as they were. -/
theorem saveThenLoadRestoresTheLanes : Obligations.SaveThenLoadRestoresTheLanes := by
  intro s u hs hwf hdst hu hquiet haddr hsrc
  have hlen : (serFold s.fold).length = 64 := length_serFold s.fold
  have hsaved := readBytes_writeBytes hwf (a := dstOp s) (bs := serFold s.fold) (by rw [hlen]; exact hdst.1)
  rw [hlen] at hsaved
  refine ⟨_, exec_foldSave hs hdst, fun hmem => ⟨_, exec_foldLoad hu hsrc, ?_⟩⟩
  rw [finish_fold, State.setFold_fold, engineRead_quiet hquiet, haddr, readBytes_congr hmem, finish_mem,
    State.setMem_mem, hsaved, deserFold_serFold]

/-- Settles O60: from the zero window the seed is the register's start, and the reduction is the register's end. -/
theorem seededFoldStreamGivesTheChecksum : Obligations.SeededFoldStreamGivesTheChecksum := by
  intro s h hacc hseed
  have hinject : s.acc ^^^ M32 ≠ 0 → 16 ≤ lenOp s := fun hne =>
    hseed.resolve_right fun heq => hne (by rw [heq]; rfl)
  have hreach : s.acc ^^^ M32 = 0 ∨ 4 ≤ (sourceBytes s).length := by
    rw [length_engineRead]
    by_cases hzero : s.acc ^^^ M32 = 0
    · exact .inl hzero
    · exact .inr ((by decide : 4 ≤ 16).trans (hinject hzero))
  have hupdate := exec_foldUpdate (inj := true) (s := finish .ok .none (s.setFold Fold.zero)) h hacc fun _ => hinject
  have hsource : sourceBytes (finish .ok .none (s.setFold Fold.zero)) = sourceBytes s :=
    engineRead_congr (s := s) (u := finish .ok .none (s.setFold Fold.zero)) rfl rfl fun _ _ _ => rfl
  have hvalue : injected true (finish .ok .none (s.setFold Fold.zero)) = s.acc ^^^ M32 := rfl
  have hzero : crcRaw 0 (serFold Fold.zero) = 0 := reduceFold_zero
  refine ⟨_, _, _, exec_foldInit h, hupdate, exec_foldFinal h, ?_⟩
  rw [finish_acc, State.setAcc_acc, finish_fold, State.setFold_fold, reduceFold, serFold_deserFold_fedWindow, hsource,
    hvalue, crcRaw_fedWindow _ _ hreach, finish_fold, State.setFold_fold, hzero, zero_xor, crc32]

end Sys2Proof.Proofs
end

section
/-! SUPPORT. The raw register as a polynomial over GF(2), its bits in reflected order: a shift step multiplies it by x modulo
P (41_scalar.md R203). -/

namespace Sys2Proof.Machine

open Polynomial

/-! ### Polynomials of bits -/

/-- A bit as a coefficient of x^k. -/
noncomputable def bitTerm (b : Bool) (k : Nat) : (ZMod 2)[X] := if b then X ^ k else 0

theorem bitTerm_xor (a b : Bool) (k : Nat) : bitTerm (a ^^ b) k = bitTerm a k + bitTerm b k := by
  cases a <;> cases b <;> simp [bitTerm, CharTwo.add_self_eq_zero]

theorem bitTerm_mul_X_pow (b : Bool) (k n : Nat) : bitTerm b k * X ^ n = bitTerm b (k + n) := by
  cases b <;> simp [bitTerm, pow_add]

theorem bitsPoly_eq {n : Nat} (v : BitVec n) : bitsPoly v = ∑ i ∈ Finset.range n, bitTerm (v.getLsbD i) i := rfl

theorem degree_bitsPoly_lt {n : Nat} (v : BitVec n) : (bitsPoly v).degree < n := by
  rw [← mem_degreeLT, bitsPoly]
  refine Submodule.sum_mem _ fun i hi => ?_
  split
  · rw [mem_degreeLT, degree_X_pow]
    exact_mod_cast Finset.mem_range.1 hi
  · exact Submodule.zero_mem _

/-! ### The register's polynomial -/

/-- rev32(c) as a polynomial: bit k of the register is the coefficient of x^(31 − k). -/
noncomputable def registerPoly (c : Word) : (ZMod 2)[X] := bitsPoly c.reverse

theorem registerPoly_eq (c : Word) : registerPoly c = ∑ k ∈ Finset.range 32, bitTerm (c.getLsbD k) (31 - k) := by
  rw [registerPoly, bitsPoly_eq, ← Finset.sum_range_reflect]
  refine Finset.sum_congr rfl fun k hk => ?_
  have hk : k < 32 := Finset.mem_range.1 hk
  rw [BitVec.getLsbD_reverse, BitVec.getMsbD_eq_getLsbD, decide_eq_true (by omega), Bool.true_and,
    show 32 - 1 - (32 - 1 - k) = k by omega]

theorem registerPoly_xor (c d : Word) : registerPoly (c ^^^ d) = registerPoly c + registerPoly d := by
  simp only [registerPoly_eq, BitVec.getLsbD_xor, bitTerm_xor, Finset.sum_add_distrib]

/-- Multiplication by x moves each bit one place up: the bits but the lowest by one index, the lowest out at the top. -/
theorem sum_bitTerm_mul_X (f : Nat → Bool) (n : Nat) :
    (∑ k ∈ Finset.range (n + 1), bitTerm (f k) (n - k)) * X =
      ∑ k ∈ Finset.range n, bitTerm (f (k + 1)) (n - k) + bitTerm (f 0) (n + 1) := by
  rw [Finset.sum_range_succ', add_mul, Finset.sum_mul, ← pow_one X, bitTerm_mul_X_pow, Nat.sub_zero]
  refine congrArg (· + _) (Finset.sum_congr rfl fun k hk => ?_)
  have hk := Finset.mem_range.1 hk
  rw [bitTerm_mul_X_pow, show n - (k + 1) + 1 = n - k by omega]

theorem registerPoly_mul_X (c : Word) :
    registerPoly c * X = registerPoly (c >>> 1) + bitTerm (c.getLsbD 0) 32 := by
  have hshift : registerPoly (c >>> 1) = ∑ k ∈ Finset.range 31, bitTerm (c.getLsbD (k + 1)) (31 - k) := by
    have htop : bitTerm ((c >>> 1).getLsbD 31) (31 - 31) = 0 := by
      rw [BitVec.getLsbD_ushiftRight, BitVec.getLsbD_of_ge c (1 + 31) le_rfl]
      rfl
    rw [registerPoly_eq, Finset.sum_range_succ, htop, add_zero]
    simp only [BitVec.getLsbD_ushiftRight, Nat.add_comm 1]
  rw [hshift, registerPoly_eq, sum_bitTerm_mul_X]

/-- P(x) = 0x104C11DB7. -/
noncomputable def generator : (ZMod 2)[X] := bitsPoly 0x104C11DB7#33

theorem generator_eq : generator = registerPoly polyReflected + X ^ 32 := by
  have hbit : ∀ k < 32, (0x104C11DB7#33).getLsbD k = polyReflected.reverse.getLsbD k := by decide +kernel
  have htop : bitTerm ((0x104C11DB7#33).getLsbD 32) 32 = X ^ 32 := rfl
  rw [generator, bitsPoly_eq, Finset.sum_range_succ, htop, registerPoly, bitsPoly_eq]
  refine congrArg (· + _) (Finset.sum_congr rfl fun k hk => ?_)
  rw [hbit k (Finset.mem_range.1 hk)]

theorem degree_registerPoly_lt (c : Word) : (registerPoly c).degree < 32 := degree_bitsPoly_lt c.reverse

theorem monic_generator : generator.Monic := by
  rw [generator_eq, add_comm]
  exact monic_X_pow_add (degree_registerPoly_lt _)

theorem degree_generator : generator.degree = 32 := by
  have hlt : (registerPoly polyReflected).degree < (X ^ 32 : (ZMod 2)[X]).degree := by
    rw [degree_X_pow]
    exact degree_registerPoly_lt _
  rw [generator_eq, degree_add_eq_right_of_degree_lt hlt, degree_X_pow]
  rfl

/-- A shift step multiplies by x modulo P (R200, R203). -/
theorem registerPoly_crcStep (c : Word) :
    registerPoly c * X = registerPoly (crcStep c) + if c.getLsbD 0 then generator else 0 := by
  rw [registerPoly_mul_X, crcStep]
  split
  · next h =>
    have htwice := CharTwo.add_self_eq_zero (registerPoly polyReflected)
    rw [registerPoly_xor, generator_eq, h, bitTerm, if_pos rfl]
    linear_combination -htwice
  · next h => rw [Bool.eq_false_iff.2 h, bitTerm, if_neg Bool.false_ne_true]

/-! ### The quotient by P -/

/-- The class of a polynomial modulo P. -/
noncomputable def modGenerator : (ZMod 2)[X] →+* (ZMod 2)[X] ⧸ Ideal.span {generator} := Ideal.Quotient.mk _

theorem modGenerator_crcStep_iterate (n : Nat) (c : Word) :
    modGenerator (registerPoly (crcStep^[n] c)) = modGenerator (registerPoly c * X ^ n) := by
  induction n with
  | zero => rw [Function.iterate_zero_apply, pow_zero, mul_one]
  | succ n ih =>
    have hstep := congrArg modGenerator (registerPoly_crcStep (crcStep^[n] c))
    have hzero : modGenerator (if (crcStep^[n] c).getLsbD 0 then generator else 0) = 0 := by
      rw [modGenerator, Ideal.Quotient.eq_zero_iff_mem, Ideal.mem_span_singleton]
      split
      · exact dvd_rfl
      · exact dvd_zero _
    rw [map_add, hzero, add_zero, map_mul, ih] at hstep
    rw [Function.iterate_succ_apply', ← hstep, ← map_mul, pow_succ, mul_assoc]

/-- A polynomial of degree below 32 is its class's remainder. -/
theorem eq_modByMonic_of_modGenerator_eq {c : Word} {f : (ZMod 2)[X]} (h : modGenerator f = modGenerator (registerPoly c)) :
    registerPoly c = f %ₘ generator := by
  have hdvd : generator ∣ f - registerPoly c := Ideal.mem_span_singleton.1 (Ideal.Quotient.eq.1 h)
  rw [modByMonic_eq_of_dvd_sub monic_generator hdvd, eq_comm, modByMonic_eq_self_iff monic_generator, degree_generator]
  exact degree_registerPoly_lt c

/-! ### The stream -/

theorem registerPoly_setWidth (b : Byte) :
    registerPoly (b.setWidth 32) = ∑ k ∈ Finset.range 8, bitTerm (b.getLsbD k) (31 - k) := by
  rw [registerPoly_eq]
  symm
  refine Finset.sum_subset_zero_on_sdiff (Finset.range_mono (by decide)) (fun k hk => ?_) fun k hk => ?_
  · obtain ⟨-, hhigh⟩ := Finset.mem_sdiff.1 hk
    rw [BitVec.getLsbD_setWidth, BitVec.getLsbD_of_ge b k (by simpa using hhigh), Bool.and_false]
    rfl
  · have hlow : k < 8 := Finset.mem_range.1 hk
    rw [BitVec.getLsbD_setWidth, decide_eq_true (by omega), Bool.true_and]

/-- The first byte of a stream feeds in like a register, and the rest follow it (R203). -/
theorem streamPoly_cons (b : Byte) (bs : List Byte) :
    streamPoly (b :: bs) = registerPoly (b.setWidth 32) * X ^ (8 * (bs.length + 1)) + streamPoly bs := by
  rw [streamPoly, List.length_cons, Finset.sum_range_succ', add_comm, registerPoly_setWidth, Finset.sum_mul]
  refine congrArg₂ (· + ·) (Finset.sum_congr rfl fun k hk => ?_)
    (Finset.sum_congr rfl fun p hp => Finset.sum_congr rfl fun k hk => ?_)
  · have hk := Finset.mem_range.1 hk
    rw [bitTerm_mul_X_pow, show 31 - k + 8 * (bs.length + 1) = 32 + 8 * (bs.length + 1) - 1 - (8 * 0 + k) by omega]
    rfl
  · have hp := Finset.mem_range.1 hp
    rw [List.getD_cons_succ,
      show 32 + 8 * (bs.length + 1) - 1 - (8 * (p + 1) + k) = 32 + 8 * bs.length - 1 - (8 * p + k) by omega]

/-- R203 modulo P. -/
theorem modGenerator_crcRaw (c : Word) (bs : List Byte) :
    modGenerator (registerPoly c * X ^ (8 * bs.length) + streamPoly bs) = modGenerator (registerPoly (crcRaw c bs)) := by
  induction bs generalizing c with
  | nil => simp [streamPoly]
  | cons b bs ih =>
    have hbyte : modGenerator (registerPoly (byteStep c b) * X ^ (8 * bs.length)) =
        modGenerator (registerPoly (c ^^^ b.setWidth 32) * X ^ (8 * (bs.length + 1))) := by
      rw [byteStep_eq, map_mul, modGenerator_crcStep_iterate, ← map_mul, mul_assoc, ← pow_add, Nat.mul_succ, Nat.add_comm]
    rw [crcRaw_cons, ← ih, map_add _ (_ * X ^ (8 * bs.length)), hbyte, ← map_add, streamPoly_cons, registerPoly_xor, List.length_cons, add_mul,
      add_assoc]

end Sys2Proof.Machine
end

section
/-! SUPPORT. The statement about polynomial division that is settled here (41_scalar.md R203). -/

namespace Sys2Proof.Proofs

open Machine

/-- Settles O47: each byte adds itself to the register and multiplies it by x^8 modulo P, and the register's degree stays
below P's. -/
theorem rawRegisterIsPolynomialDivision : Obligations.RawRegisterIsPolynomialDivision :=
  fun c bs => eq_modByMonic_of_modGenerator_eq (modGenerator_crcRaw c bs)

end Sys2Proof.Proofs
end

section
/-! SUPPORT. What a command can do, said once: how it ends, what its body writes, and what it reads (20_memory.md R73, R74;
40_dispatcher.md R150, R151; 60_exceptions.md R371, R379). -/

namespace Sys2Proof.Machine

/-! ### How a command ends -/

section Exec

variable {i : Instr} {s t : State}

/-- A command that answers a next state ended with a fault its checks raised, or ran its body and ended with OK. -/
theorem exec_cases (h : exec i s = .next t) :
    (∃ f, Raises i s f ∧ t = raiseFault f.code f.info s) ∨
      (check i s = none ∧ t = finish .ok (bodyOf i s).2 (bodyOf i s).1) := by
  cases hcheck : check i s with
  | some f => exact .inl ⟨f, raises_of_check hcheck, Host.Outcome.next.inj (h.symm.trans (exec_of_check_some hcheck))⟩
  | none => exact .inr ⟨rfl, Host.Outcome.next.inj (h.symm.trans (exec_of_check_none hcheck))⟩

/-- Every command answers a next state. -/
theorem exists_exec (i : Instr) (s : State) : ∃ t, exec i s = .next t := by
  cases hcheck : check i s with
  | some f => exact ⟨_, exec_of_check_some hcheck⟩
  | none => exact ⟨_, exec_of_check_none hcheck⟩

theorem statusCode_of_endsWith {code : BitVec 4} {tier : BitVec 3} {u : State} (h : EndsWith code tier u t) :
    statusCode t.status = code := by
  obtain ⟨-, -, hcode, -⟩ := h
  exact hcode

/-! ### What a body writes -/

/-- `t` is `s` but for the pieces a body may write: ACC, FOLD, the ring and memory. -/
def BodyWrites (s t : State) : Prop := t = { s with acc := t.acc, fold := t.fold, ring := t.ring, mem := t.mem }

theorem bodyWrites_setAcc (s : State) (v : Word) : BodyWrites s (s.setAcc v) := rfl

theorem bodyWrites_setFold (s : State) (f : Fold) : BodyWrites s (s.setFold f) := rfl

theorem bodyWrites_setMem (s : State) (m : Memory) : BodyWrites s (s.setMem m) := rfl

theorem BodyWrites.status {s t : State} (h : BodyWrites s t) : t.status = s.status := by
  rw [BodyWrites] at h
  rw [h]

theorem BodyWrites.faddr {s t : State} (h : BodyWrites s t) : t.faddrLo = s.faddrLo ∧ t.faddrHi = s.faddrHi := by
  rw [BodyWrites] at h
  rw [h]
  exact ⟨rfl, rfl⟩

theorem bodyWrites_bodyOf (i : Instr) (s : State) : BodyWrites s (bodyOf i s).1 := by
  by_cases hi : i ∈ crc32Commands
  · obtain ⟨k, hbody, -⟩ := bodyOf_crc32 hi s
    rw [hbody]
    rfl
  · cases i with
    | nop => rfl
    | foldInit | foldUpdate | foldLoad => exact bodyWrites_setFold s _
    | foldCopy => rfl
    | foldFinal => exact bodyWrites_setAcc s _
    | foldSave => exact bodyWrites_setMem s _
    | crc32Auto | crc32Scalar | crc32Braid | crc32ChorbaS | crc32ChorbaL | crc32Simd => exact absurd (by decide) hi

/-- Only the CRC32 commands and FOLD_FINAL write ACC (10_state.md R31). -/
theorem bodyOf_acc (hi : i ∉ .foldFinal :: crc32Commands) (s : State) : (bodyOf i s).1.acc = s.acc := by
  cases i with
  | nop => rfl
  | foldInit | foldUpdate | foldLoad => exact State.setFold_acc s _
  | foldCopy => exact (State.setMem_acc _ _).trans (State.setFold_acc s _)
  | foldSave => exact State.setMem_acc s _
  | foldFinal | crc32Auto | crc32Scalar | crc32Braid | crc32ChorbaS | crc32ChorbaL | crc32Simd =>
    exact absurd (by decide) hi

/-- Only FOLD_INIT, FOLD_UPDATE, FOLD_COPY and FOLD_LOAD write FOLD (10_state.md R46). -/
theorem bodyOf_fold (hi : i ∉ [.foldInit, .foldUpdate false, .foldUpdate true, .foldCopy, .foldLoad]) (s : State) :
    (bodyOf i s).1.fold = s.fold := by
  by_cases hcrc : i ∈ crc32Commands
  · obtain ⟨k, hbody, -⟩ := bodyOf_crc32 hcrc s
    rw [hbody]
  · cases i with
    | nop => rfl
    | foldFinal => exact State.setAcc_fold s _
    | foldSave => exact State.setMem_fold s _
    | foldInit | foldCopy | foldLoad => exact absurd (by decide) hi
    | foldUpdate inj => exact absurd (by cases inj <;> decide) hi
    | crc32Auto | crc32Scalar | crc32Braid | crc32ChorbaS | crc32ChorbaL | crc32Simd => exact absurd (by decide) hcrc

/-- A body writes the bytes of the command's write range and no other byte of memory (20_memory.md R74). -/
theorem bodyOf_mem (i : Instr) (s : State) :
    (bodyOf i s).1.mem = s.mem ∨
      ∃ a bs, ⟨a, bs.length, .write⟩ ∈ ranges i s ∧ (bodyOf i s).1.mem = writeBytes s.mem a bs := by
  by_cases hcrc : i ∈ crc32Commands
  · obtain ⟨k, hbody, -⟩ := bodyOf_crc32 hcrc s
    exact .inl (by rw [hbody])
  · cases i with
    | nop => exact .inl rfl
    | foldInit | foldUpdate | foldLoad => exact .inl (State.setFold_mem s _)
    | foldFinal => exact .inl (State.setAcc_mem s _)
    | foldCopy =>
      refine .inr ⟨dstOp s, engineRead s (lenOp s) (srcOp s) (lenOp s), ?_, State.setMem_mem _ _⟩
      rw [length_engineRead]
      exact List.mem_cons_of_mem _ (List.mem_singleton_self _)
    | foldSave =>
      refine .inr ⟨dstOp s, serFold s.fold, ?_, State.setMem_mem _ _⟩
      rw [length_serFold]
      exact List.mem_singleton_self _
    | crc32Auto | crc32Scalar | crc32Braid | crc32ChorbaS | crc32ChorbaL | crc32Simd => exact absurd (by decide) hcrc

/-- The tiers a command can report when it ends with OK (R151, R157). -/
def reportableTiers (i : Instr) : List (BitVec 3) :=
  match i with
  | .nop | .foldInit | .foldFinal | .foldSave | .foldLoad => [0#3]
  | .foldUpdate _ | .foldCopy => [5#3]
  | .crc32Simd => [1#3, 5#3]
  | .crc32Auto => [1#3, 2#3, 3#3, 4#3, 5#3]
  | .crc32Scalar => [1#3]
  | .crc32Braid => [1#3, 2#3]
  | .crc32ChorbaS => [1#3, 3#3]
  | .crc32ChorbaL => [1#3, 3#3, 4#3]

/-- The selector picks a tier that computes a CRC. -/
theorem selectedTier_ne_none (p : Params) (en : Enables) (n a : Nat) : selectedTier p en n a ≠ .none := by
  unfold selectedTier afterPrefixTier braidedOrScalarTier
  split_ifs <;> decide

theorem tierBits_bodyOf_mem (i : Instr) (s : State) : tierBits (bodyOf i s).2 ∈ reportableTiers i := by
  by_cases hcrc : i ∈ crc32Commands
  · obtain ⟨k, hbody, -⟩ := bodyOf_crc32 hcrc s
    rw [hbody]
    dsimp only
    cases i with
    | nop | foldInit | foldFinal | foldSave | foldLoad | foldUpdate | foldCopy => simp at hcrc
    | crc32Auto =>
      rw [crcTier]
      have hne := selectedTier_ne_none s.params (enables s) (lenOp s) (srcOp s)
      cases h : selectedTier s.params (enables s) (lenOp s) (srcOp s) with
      | none => exact absurd h hne
      | scalar | braid | chorbaS | chorbaL | simd => decide
    | crc32Scalar => exact List.mem_singleton_self _
    | crc32Braid | crc32ChorbaS | crc32ChorbaL | crc32Simd =>
      rw [crcTier]
      split_ifs <;> decide
  · cases i with
    | nop | foldInit | foldUpdate | foldCopy | foldFinal | foldSave | foldLoad => exact List.mem_singleton_self _
    | crc32Auto | crc32Scalar | crc32Braid | crc32ChorbaS | crc32ChorbaL | crc32Simd => exact absurd (by decide) hcrc

/-- Every command ends with `finish`: with a fault's code and tier code 0, or with OK and a tier code of its own (R151). -/
theorem finished_exec (h : exec i s = .next t) :
    t.seq = .idle ∧ ((∃ f, Raises i s f ∧ Finished (codeBits f.code) 0 s.status t.status) ∨
      ∃ tier ∈ reportableTiers i, Finished 0 tier s.status t.status) := by
  obtain ⟨f, hraise, rfl⟩ | ⟨-, rfl⟩ := exec_cases h
  · exact ⟨congrArg State.seq (raiseFault_eq _ _ _), .inl ⟨f, hraise, (endsFault_raiseFault f.code f.info s).2⟩⟩
  · have hstatus : (bodyOf i s).1.status = s.status := (bodyWrites_bodyOf i s).status
    have hend := (endsOk_finish (bodyOf i s).2 (bodyOf i s).1).2
    rw [hstatus] at hend
    exact ⟨rfl, .inr ⟨_, tierBits_bodyOf_mem i s, hend⟩⟩

/-! ### The codes a command can report (R371) -/

/-- The result codes of R371 that the conditions of a command can lead to. -/
def reportableCodes (i : Instr) : List (BitVec 4) :=
  match i with
  | .nop => [0#4]
  | .crc32Auto | .crc32Scalar => [0#4, 3#4, 6#4]
  | .crc32Braid | .crc32ChorbaS | .crc32ChorbaL | .crc32Simd => [0#4, 2#4, 3#4, 6#4]
  | .foldInit | .foldFinal => [0#4, 2#4]
  | .foldUpdate inj => if inj then [0#4, 2#4, 3#4, 4#4, 6#4] else [0#4, 2#4, 3#4, 6#4]
  | .foldCopy => [0#4, 2#4, 3#4, 5#4, 6#4]
  | .foldSave | .foldLoad => [0#4, 2#4, 3#4, 6#4]

theorem ok_mem_reportableCodes (i : Instr) : 0 ∈ reportableCodes i := by
  cases i with
  | foldUpdate inj => cases inj <;> decide
  | nop | crc32Auto | crc32Scalar | crc32Braid | crc32ChorbaS | crc32ChorbaL | crc32Simd | foldInit | foldCopy
  | foldFinal | foldSave | foldLoad => decide

/-- A command with a range can end with E_RANGE or E_BUS. -/
theorem range_codes_mem_reportableCodes (h : ranges i s ≠ []) : 3 ∈ reportableCodes i ∧ 6 ∈ reportableCodes i := by
  cases i with
  | nop | foldInit | foldFinal => exact absurd rfl h
  | foldUpdate inj => cases inj <;> decide
  | crc32Auto | crc32Scalar | crc32Braid | crc32ChorbaS | crc32ChorbaL | crc32Simd | foldCopy | foldSave | foldLoad =>
    decide

theorem Raises.code_mem {f : Raised} (h : Raises i s f) : codeBits f.code ∈ reportableCodes i := by
  cases h with
  | unavail hu =>
    cases i with
    | nop | crc32Auto | crc32Scalar => cases hu
    | foldUpdate inj => cases inj <;> decide
    | crc32Braid | crc32ChorbaS | crc32ChorbaL | crc32Simd | foldInit | foldCopy | foldFinal | foldSave | foldLoad =>
      decide
  | range ho =>
    refine (range_codes_mem_reportableCodes (s := s) fun hnil => ?_).1
    rw [outOfRange, hnil] at ho
    cases ho
  | seed hs =>
    obtain ⟨rfl, -⟩ := seedTooShort_eq_true.1 hs
    decide
  | overlap hc =>
    obtain ⟨rfl, -⟩ := copyOverlaps_eq_true.1 hc
    decide
  | bus _ hb =>
    refine (range_codes_mem_reportableCodes (s := s) fun hnil => ?_).2
    rw [refusedAddress, hnil] at hb
    cases hb

/-! ### What a command leaves -/

/-- Only a byte of the write range changes (R74). -/
theorem memRead_exec (h : exec i s = .next t) {x : Nat}
    (hx : ∀ r ∈ ranges i s, r.kind = .write → x < r.base ∨ r.base + r.size ≤ x) :
    memRead t.mem x = memRead s.mem x := by
  obtain ⟨f, -, rfl⟩ | ⟨-, rfl⟩ := exec_cases h
  · rw [raiseFault_eq]
  · rw [finish_mem]
    obtain hmem | ⟨a, bs, hrange, hmem⟩ := bodyOf_mem i s
    · rw [hmem]
    · rw [hmem, memRead_writeBytes_outside s.mem (hx _ hrange rfl)]

/-- A command's writes keep memory canonical: the range check came first (R374). -/
theorem wf_mem_exec (h : exec i s = .next t) (hwf : Memory.wf s.mem) : Memory.wf t.mem := by
  obtain ⟨f, -, rfl⟩ | ⟨hcheck, rfl⟩ := exec_cases h
  · rwa [raiseFault_eq]
  · rw [finish_mem]
    obtain hmem | ⟨a, bs, hrange, hmem⟩ := bodyOf_mem i s
    · rwa [hmem]
    · obtain ⟨-, ho, -⟩ := conditions_of_check_none hcheck
      rw [hmem]
      obtain hempty | hfit := outOfRange_eq_false.1 ho _ hrange
      · obtain rfl : bs = [] := List.length_eq_zero_iff.1 hempty
        exact hwf
      · exact Memory.wf_writeBytes hwf hfit

/-- The pieces no command writes (10_state.md R31). -/
theorem exec_frame (h : exec i s = .next t) :
    t = { s with status := t.status, acc := t.acc, faddrLo := t.faddrLo, faddrHi := t.faddrHi, fold := t.fold,
                 ring := t.ring, seq := t.seq, mem := t.mem } := by
  obtain ⟨f, -, rfl⟩ | ⟨-, rfl⟩ := exec_cases h
  · rw [raiseFault_eq]
  · rw [finish, bodyWrites_bodyOf i s]
    rfl

/-- FADDR is written with E_BUS alone (R377). -/
theorem faddr_exec (h : exec i s = .next t) (hcode : statusCode t.status ≠ 6) :
    t.faddrLo = s.faddrLo ∧ t.faddrHi = s.faddrHi := by
  obtain ⟨f, hraise, rfl⟩ | ⟨-, rfl⟩ := exec_cases h
  · cases hraise with
    | unavail | range | seed | overlap => exact ⟨rfl, rfl⟩
    | bus => exact absurd (statusCode_raiseFault .eBus _ s) hcode
  · exact (bodyWrites_bodyOf i s).faddr

/-- ACC is written by the CRC32 commands and FOLD_FINAL alone, when they end with OK. -/
theorem acc_exec (h : exec i s = .next t) (hwrites : statusCode t.status ≠ 0 ∨ i ∉ .foldFinal :: crc32Commands) :
    t.acc = s.acc := by
  obtain ⟨f, -, rfl⟩ | ⟨-, rfl⟩ := exec_cases h
  · rw [raiseFault_eq]
  · exact bodyOf_acc (hwrites.resolve_left fun hne => hne (statusCode_statusAfter .ok _ _)) s

/-- FOLD is written by the commands that feed, clear or load it alone. -/
theorem fold_exec (h : exec i s = .next t)
    (hi : i ∉ [.foldInit, .foldUpdate false, .foldUpdate true, .foldCopy, .foldLoad]) : t.fold = s.fold := by
  obtain ⟨f, -, rfl⟩ | ⟨-, rfl⟩ := exec_cases h
  · rw [raiseFault_eq]
  · exact bodyOf_fold hi s

end Exec

/-! ### What a command reads -/

section Reads

variable {i : Instr} {s : State}

/-- The checks read no byte of memory (R378). -/
theorem check_setMem (i : Instr) (s : State) (m : Memory) : check i (s.setMem m) = check i s := rfl

theorem check_setFold (i : Instr) (s : State) (f : Fold) : check i (s.setFold f) = check i s := rfl

theorem raiseFault_setMem (code : ResultCode) (info : Option Nat) (s : State) (m : Memory) :
    raiseFault code info (s.setMem m) = (raiseFault code info s).setMem m := by
  cases info <;> rfl

theorem raiseFault_setFold (code : ResultCode) (info : Option Nat) (s : State) (f : Fold) :
    raiseFault code info (s.setFold f) = (raiseFault code info s).setFold f := by
  cases info <;> rfl

/-- A CRC32 command's body is R153 over a tier function that the parameters and CTRL alone fix. -/
theorem exists_tierfn (hi : i ∈ crc32Commands) (s : State) :
    ∃ tierfn, ∀ u : State, u.params = s.params → u.ctrl = s.ctrl → bodyOf i u = crc32Body tierfn u := by
  simp only [List.mem_cons, List.not_mem_nil, or_false] at hi
  obtain rfl | rfl | rfl | rfl | rfl | rfl := hi
  · refine ⟨autoTier s.params (enables s), fun u hp hc => ?_⟩
    have hen : enables u = enables s := by rw [enables, enables, braidEn, chorbaEn, simdEn, hc]; rfl
    rw [← hp, ← hen]
    rfl
  · exact ⟨fun c bs _ => scalarTier (braidW s.params) c bs, fun u hp _ => by rw [← hp]; rfl⟩
  · exact ⟨braidedTier (braidW s.params) (braidN s.params), fun u hp _ => by rw [← hp]; rfl⟩
  · exact ⟨fun c bs _ => chorbaSmallTier (braidW s.params) c bs, fun u hp _ => by rw [← hp]; rfl⟩
  · exact ⟨fun c bs _ => chorbaLargeTier (braidW s.params) c bs, fun u hp _ => by rw [← hp]; rfl⟩
  · exact ⟨simdTier (braidW s.params), fun u hp _ => by rw [← hp]; rfl⟩

theorem srcOp_setFold (s : State) (f : Fold) : srcOp (s.setFold f) = srcOp s := rfl

theorem lenOp_setFold (s : State) (f : Fold) : lenOp (s.setFold f) = lenOp s := rfl

theorem srcOp_setMem (s : State) (m : Memory) : srcOp (s.setMem m) = srcOp s := rfl

theorem lenOp_setMem (s : State) (m : Memory) : lenOp (s.setMem m) = lenOp s := rfl

theorem dstOp_setMem (s : State) (m : Memory) : dstOp (s.setMem m) = dstOp s := rfl

theorem crc32Body_setFold (tierfn : Word → List Byte → Nat → Word × Tier) (s : State) (f : Fold) :
    crc32Body tierfn (s.setFold f) = ((crc32Body tierfn s).1.setFold f, (crc32Body tierfn s).2) := by
  have hread : engineRead (s.setFold f) 0 (srcOp s) (lenOp s) = engineRead s 0 (srcOp s) (lenOp s) :=
    engineRead_congr (State.setFold_racing s f) (State.setFold_draws s f) fun x _ _ => by rw [State.setFold_mem]
  simp only [crc32Body, srcOp_setFold, lenOp_setFold, State.setFold_acc, hread]
  split_ifs <;> rfl

theorem crc32Body_setMem (tierfn : Word → List Byte → Nat → Word × Tier) {m : Memory}
    (h : engineRead (s.setMem m) 0 (srcOp s) (lenOp s) = engineRead s 0 (srcOp s) (lenOp s)) :
    crc32Body tierfn (s.setMem m) = ((crc32Body tierfn s).1.setMem m, (crc32Body tierfn s).2) := by
  simp only [crc32Body, srcOp_setMem, lenOp_setMem, State.setMem_acc, h]
  split_ifs <;> rfl

/-- No CRC32 command's body depends on FOLD (10_state.md R46). -/
theorem bodyOf_setFold (hi : i ∈ crc32Commands) (s : State) (f : Fold) :
    bodyOf i (s.setFold f) = ((bodyOf i s).1.setFold f, (bodyOf i s).2) := by
  obtain ⟨tierfn, hbody⟩ := exists_tierfn hi s
  rw [hbody s rfl rfl, hbody (s.setFold f) rfl rfl, crc32Body_setFold]

/-- The two memories agree on every byte of the command's read range (20_memory.md R73). -/
def AgreeOnReads (i : Instr) (s : State) (m : Memory) : Prop :=
  ∀ r ∈ ranges i s, r.kind = .read → ∀ x, r.base ≤ x → x < r.base + r.size → memRead m x = memRead s.mem x

/-- The engine reads the same bytes of a range the memories agree on. -/
theorem engineRead_setMem {m : Memory} (h : AgreeOnReads i s m) {a n : Nat} (hr : ⟨a, n, .read⟩ ∈ ranges i s) (j : Nat) :
    engineRead (s.setMem m) j a n = engineRead s j a n :=
  engineRead_congr (State.setMem_racing s m) (State.setMem_draws s m) (h _ hr rfl)

theorem fedWindow_setMem (s : State) (m : Memory) (bs : List Byte) (a : Nat) (v : Word) :
    fedWindow (s.setMem m) bs a v = fedWindow s bs a v := rfl

theorem State.setMem_setMem (s : State) (m m' : Memory) : (s.setMem m).setMem m' = s.setMem m' := rfl

theorem State.setMem_setFold (s : State) (m : Memory) (f : Fold) : (s.setMem m).setFold f = (s.setFold f).setMem m := rfl

/-- What a body does to the rest of the state depends on memory only through the command's read range (R73). -/
theorem bodyOf_setMem {m : Memory} (h : AgreeOnReads i s m) :
    ∃ m', bodyOf i (s.setMem m) = ((bodyOf i s).1.setMem m', (bodyOf i s).2) := by
  by_cases hcrc : i ∈ crc32Commands
  · obtain ⟨tierfn, hbody⟩ := exists_tierfn hcrc s
    have hr : ⟨srcOp s, lenOp s, .read⟩ ∈ ranges i s := by
      rw [ranges_of_source (List.mem_cons_of_mem _ (List.mem_cons_of_mem _ hcrc))]
      exact List.mem_singleton_self _
    exact ⟨m, by rw [hbody s rfl rfl, hbody (s.setMem m) rfl rfl, crc32Body_setMem tierfn (engineRead_setMem h hr 0)]⟩
  · cases i with
    | nop | foldInit | foldFinal => exact ⟨m, rfl⟩
    | foldSave =>
      refine ⟨writeBytes m (dstOp s) (serFold s.fold), ?_⟩
      simp only [bodyOf, foldSaveBody, dstOp_setMem, State.setMem_mem, State.setMem_fold, State.setMem_setMem]
    | foldUpdate inj =>
      have hread := engineRead_setMem h (List.mem_singleton_self _) 0
      refine ⟨m, ?_⟩
      simp only [bodyOf, foldUpdateBody, srcOp_setMem, lenOp_setMem, hread, fedWindow_setMem]
      rfl
    | foldLoad =>
      have hread := engineRead_setMem h (a := srcOp s) (n := 64) (List.mem_singleton_self _) 0
      refine ⟨m, ?_⟩
      simp only [bodyOf, foldLoadBody, srcOp_setMem, hread, State.setMem_setFold]
    | foldCopy =>
      have hread := engineRead_setMem h List.mem_cons_self
      refine ⟨writeBytes m (dstOp s) (engineRead s (lenOp s) (srcOp s) (lenOp s)), ?_⟩
      simp only [bodyOf, foldCopyBody, srcOp_setMem, lenOp_setMem, hread, fedWindow_setMem]
      rfl
    | crc32Auto | crc32Scalar | crc32Braid | crc32ChorbaS | crc32ChorbaL | crc32Simd => exact absurd (by decide) hcrc

end Reads

end Sys2Proof.Machine
end

section
/-! SUPPORT. What an event that is served does: the register block, memory bytes the engine and the host read and write, and
what each leaves of the invariant (10_state.md R31 to R35; 20_memory.md R84, R85; 70_reset_and_hazards.md R410, R411). -/

namespace Sys2Proof.Machine

/-! ### The register block (R31) -/

theorem regAt_regOffset (r : Reg) : regAt (regOffset r) = some r := by
  cases r <;> rfl

/-- Every register lies at an aligned slot of the block. -/
theorem regOffset_slot (r : Reg) : regOffset r % 4 = 0 ∧ regOffset r < 0x40 := by
  cases r <;> decide

/-- An offset that is served lies in the block. -/
theorem lt_of_accessStop {off width : Nat} (h : accessStop off width = none) : off < 0x40 := by
  unfold accessStop at h
  split_ifs at h with halign hblock
  exact Nat.lt_of_not_le hblock

/-- STATUS lies at one offset of the block. -/
theorem eq_of_regAt_status : ∀ off < 0x40, regAt off = some .status → off = 0x04 := by
  decide

theorem hostWrite_reg {r : Reg} (hr : r ≠ .cmd) (v : Word) (s : State) :
    hostWrite (regOffset r) v s = .next (writeReg r v s) := by
  cases r with
  | cmd => exact absurd rfl hr
  | status | ctrl | cap | acc | lenLo | lenHi | srcLo | srcHi | dstLo | dstHi | faddrLo | faddrHi => rfl

theorem readOffset_regOffset (r : Reg) (s : State) : readOffset (regOffset r) s = readReg r s := by
  rw [readOffset, regAt_regOffset]

theorem readReg_pending (q : Reg) (s : State) (rest : List HostEvent) :
    readReg q { s with pending := rest } = readReg q s := by
  cases q <;> rfl

/-- A host write of a register changes no other register: one field of the state per register. -/
theorem readReg_writeReg_ne {q r : Reg} (h : q ≠ r) (v : Word) (s : State) :
    readReg q (writeReg r v s) = readReg q s := by
  cases r <;> cases q <;> first | exact absurd rfl h | rfl

/-- A host write of a register writes nothing but registers. -/
theorem writeReg_frame (r : Reg) (v : Word) (s : State) :
    (writeReg r v s).fold = s.fold ∧ (writeReg r v s).mem = s.mem ∧ (writeReg r v s).seq = s.seq ∧
      (writeReg r v s).pending = s.pending ∧ (writeReg r v s).racing = s.racing := by
  cases r <;> exact ⟨rfl, rfl, rfl, rfl, rfl⟩

theorem writeReg_status {r : Reg} (hr : r ≠ .status) (v : Word) (s : State) : (writeReg r v s).status = s.status :=
  readReg_writeReg_ne (q := .status) hr.symm v s

/-- The host clears ERR with a mask (R34). -/
theorem statusHostWrite_eq (v old : Word) :
    statusHostWrite v old = if v.getLsbD 8 then old &&& 0xFFFFFEFF#32 else old := by
  have herr : insertBits old 8 0#1 = old &&& 0xFFFFFEFF#32 := BitVec.or_zero
  rw [statusHostWrite, herr]

/-! ### The bytes of memory -/

theorem mem_racingValues {others : List Host.Cell} {a : Nat} {b : Byte} : b ∈ racingValues others a ↔ (a, b) ∈ others := by
  simp [racingValues]

theorem getD_eq_or_mem {α : Type} (xs : List α) (k : Nat) (d : α) : xs.getD k d = d ∨ xs.getD k d ∈ xs := by
  obtain hlt | hge := Nat.lt_or_ge k xs.length
  · rw [List.getD_eq_getElem _ _ hlt]
    exact .inr (List.getElem_mem hlt)
  · exact .inl (List.getD_eq_default _ _ hge)

/-- A byte the engine reads is memory's, or one that a write in flight gives (R85). -/
theorem engineByte_cases (s : State) (j a : Nat) :
    engineByte s j a = memRead s.mem a ∨ (a, engineByte s j a) ∈ s.racing := by
  rw [← mem_racingValues, engineByte]
  cases racingValues s.racing a with
  | nil => exact .inl rfl
  | cons v vs =>
    obtain hmem | hin := getD_eq_or_mem (memRead s.mem a :: v :: vs) (Config.raceChoice s.draws j % (vs.length + 2))
      (memRead s.mem a)
    · exact .inl hmem
    · exact List.mem_cons.1 hin

theorem getElem?_engineRead (s : State) (j a : Nat) {n k : Nat} (hk : k < n) :
    (engineRead s j a n)[k]? = some (engineByte s (j + k) (a + k)) := by
  induction n generalizing j a k with
  | zero => exact absurd hk (Nat.not_lt_zero k)
  | succ n ih =>
    cases k with
    | zero => rfl
    | succ k =>
      rw [engineRead, List.getElem?_cons_succ, ih _ _ (Nat.lt_of_succ_lt_succ hk), Nat.add_right_comm j, Nat.add_right_comm a]
      rfl

/-- Each byte of a scrambled range is a free value, and no other byte changes (R411). -/
theorem memRead_scramble {m : Memory} (h : Memory.wf m) (draw : Nat) {a n : Nat} (ha : a + n ≤ 2 ^ 64) (x : Nat) :
    memRead (scramble draw m a n) x = if a ≤ x ∧ x < a + n then Config.resetByte draw x else memRead m x := by
  split
  · next hin => exact memRead_scramble_inside h draw ha hin.1 hin.2
  · exact memRead_scramble_outside draw m (by omega)

/-- The existing bytes of a range end at the top. -/
theorem add_existingBytes_le {r : MemRange} (h : r.base ≤ 2 ^ 64) : r.base + existingBytes r ≤ 2 ^ 64 := by
  unfold existingBytes
  omega

/-- Scrambling the write ranges leaves a free value in each existing byte of any of them (R411). -/
theorem memRead_scrambleWrites_inside {m : Memory} (hwf : Memory.wf m) (draw : Nat) {rs : List MemRange}
    (hb : ∀ r ∈ rs, r.base ≤ 2 ^ 64) {x : Nat} (hx : x < 2 ^ 64)
    (h : memRead m x = Config.resetByte draw x ∨ ∃ r ∈ rs, r.kind = .write ∧ r.base ≤ x ∧ x < r.base + r.size) :
    memRead (scrambleWrites draw m rs) x = Config.resetByte draw x := by
  induction rs generalizing m with
  | nil => exact h.resolve_right (by simp)
  | cons r rs ih =>
    have htop := add_existingBytes_le (hb r List.mem_cons_self)
    by_cases hk : r.kind = .write
    · have hstep : scrambleWrites draw m (r :: rs) = scrambleWrites draw (scramble draw m r.base (existingBytes r)) rs := by
        rw [scrambleWrites, List.foldl_cons, if_pos hk, scrambleWrites]
      rw [hstep]
      refine ih (Memory.wf_scramble hwf draw htop) (fun q hq => hb q (List.mem_cons_of_mem _ hq)) ?_
      rw [memRead_scramble hwf draw htop]
      split
      · exact .inl rfl
      · next hout =>
        refine h.imp_right fun ⟨q, hq, hqk, hlo, hhi⟩ => ⟨q, (List.mem_cons.1 hq).resolve_left ?_, hqk, hlo, hhi⟩
        rintro rfl
        exact hout ⟨hlo, by unfold existingBytes; omega⟩
    · have hstep : scrambleWrites draw m (r :: rs) = scrambleWrites draw m rs := by
        rw [scrambleWrites, List.foldl_cons, if_neg hk, scrambleWrites]
      rw [hstep]
      refine ih hwf (fun q hq => hb q (List.mem_cons_of_mem _ hq)) ?_
      refine h.imp_right fun ⟨q, hq, hqk, hlo, hhi⟩ => ⟨q, (List.mem_cons.1 hq).resolve_left ?_, hqk, hlo, hhi⟩
      rintro rfl
      exact hk hqk

/-- Every range starts at an address: its base is SRC or DST. -/
theorem base_lt_of_mem_ranges {i : Instr} {s : State} {r : MemRange} (h : r ∈ ranges i s) : r.base < 2 ^ 64 := by
  have hsrc := srcOp_lt s
  have hdst := dstOp_lt s
  cases i with
  | nop | foldInit | foldFinal => cases h
  | crc32Auto | crc32Scalar | crc32Braid | crc32ChorbaS | crc32ChorbaL | crc32Simd | foldUpdate | foldLoad =>
    obtain rfl := List.mem_singleton.1 h
    exact hsrc
  | foldSave =>
    obtain rfl := List.mem_singleton.1 h
    exact hdst
  | foldCopy =>
    obtain rfl | h := List.mem_cons.1 h
    · exact hsrc
    · obtain rfl := List.mem_singleton.1 h
      exact hdst

/-! ### Memory accesses of the host and of other agents -/

/-- An event that is no register access is served whatever the sequencer does (R52). -/
theorem step_of_not_registerAccess {s : State} {e : HostEvent} {rest : List HostEvent} (hp : s.pending = e :: rest)
    (he : isRegisterAccess e = false) : step s = handle e { s with pending := rest } := by
  simp [step, serve, hp, he]

theorem storeStop_of_free {s : State} {a : Nat} (ha : a < 2 ^ 64) (hblock : inRegisterBlock s.params a = false) :
    storeStop s a = none := by
  rw [storeStop, if_neg (Nat.not_le.2 ha), hblock]
  rfl

theorem storeStop_of_beyond {s : State} {a : Nat} (ha : 2 ^ 64 ≤ a) : storeStop s a = some (.inl (.noSuchAddress a)) :=
  if_pos ha

theorem storeStop_of_block {s : State} {a : Nat} (ha : a < 2 ^ 64) (hblock : inRegisterBlock s.params a = true) :
    storeStop s a = some (.inr (.notAligned32 (a - s.params.engineBase.toNat) 1)) := by
  rw [storeStop, if_neg (Nat.not_le.2 ha), hblock]
  rfl

theorem lt_of_storeStop {s : State} {a : Nat} (h : storeStop s a = none) : a < 2 ^ 64 := by
  by_contra hge
  rw [storeStop_of_beyond (Nat.le_of_not_lt hge)] at h
  cases h

theorem storesStop_of_free {s : State} {others : List Host.Cell}
    (h : ∀ c ∈ others, c.1 < 2 ^ 64 ∧ inRegisterBlock s.params c.1 = false) : storesStop s others = none := by
  induction others with
  | nil => rfl
  | cons c others ih =>
    obtain ⟨ha, hblock⟩ := h c List.mem_cons_self
    rw [storesStop, storeStop_of_free ha hblock]
    exact ih fun d hd => h d (List.mem_cons_of_mem _ hd)

theorem lt_of_storesStop {s : State} {others : List Host.Cell} (h : storesStop s others = none) :
    ∀ c ∈ others, c.1 < 2 ^ 64 := by
  induction others with
  | nil => exact List.forall_mem_nil _
  | cons c others ih =>
    rw [storesStop] at h
    split at h
    · cases h
    · next hc => exact List.forall_mem_cons.2 ⟨lt_of_storeStop hc, ih h⟩

/-- The other agent's writes keep memory canonical, whichever of them stay. -/
theorem wf_settle (lands : Nat → Bool) {m : Memory} (hwf : Memory.wf m) {others : List Host.Cell}
    (h : ∀ c ∈ others, c.1 < 2 ^ 64) : Memory.wf (settle lands m others) := by
  induction others generalizing m with
  | nil => exact hwf
  | cons c others ih =>
    obtain ⟨hc, hrest⟩ := List.forall_mem_cons.1 h
    rw [settle]
    split
    · exact ih (Memory.wf_memWrite hwf hc c.2) hrest
    · exact ih hwf hrest

theorem racingValues_cons (c : Host.Cell) (others : List Host.Cell) (x : Nat) :
    racingValues (c :: others) x = if c.1 = x then c.2 :: racingValues others x else racingValues others x := by
  by_cases h : c.1 = x <;> simp [racingValues, h]

/-- Where the other agent's writes stay, a byte holds the last value it gave, or the old one (R85). -/
theorem memRead_settle {lands : Nat → Bool} {m : Memory} (hwf : Memory.wf m) {others : List Host.Cell}
    (h : ∀ c ∈ others, c.1 < 2 ^ 64) {x : Nat} (hx : lands x = true) :
    memRead (settle lands m others) x = (racingValues others x).getLastD (memRead m x) := by
  induction others generalizing m with
  | nil => rfl
  | cons c others ih =>
    obtain ⟨hc, hrest⟩ := List.forall_mem_cons.1 h
    rw [settle, racingValues_cons]
    by_cases hcx : c.1 = x
    · rw [if_pos hcx, hcx, if_pos hx, ih (Memory.wf_memWrite hwf (hcx ▸ hc) c.2) hrest, memRead_memWrite_same hwf,
        List.getLastD_cons]
    · rw [if_neg hcx]
      split
      · rw [ih (Memory.wf_memWrite hwf hc c.2) hrest, memRead_memWrite_ne _ _ (Ne.symm hcx)]
      · exact ih hwf hrest

/-! ### A CMD write and its command -/

section Word

variable {w : Word} {s t : State}

theorem exists_runWord (w : Word) (s : State) : ∃ t, runWord w s = .next t := by
  unfold runWord
  split
  · exact exists_exec _ _
  · exact ⟨_, rfl⟩

/-- A CMD write changes what its command may write, CMD and the counter of free values. -/
theorem runWord_frame (h : runWord w s = .next t) :
    t = { s with cmd := w, status := t.status, acc := t.acc, faddrLo := t.faddrLo, faddrHi := t.faddrHi, fold := t.fold,
                 ring := t.ring, seq := t.seq, mem := t.mem, draws := s.draws + 1 } := by
  obtain ⟨i, -, hexec⟩ | ⟨r, -, rfl⟩ := runWord_cases h
  · exact exec_frame hexec
  · rw [raiseFault_eq]
    rfl

theorem codeBits_le_six (code : ResultCode) : codeBits code ≤ 6 := by
  cases code <;> decide

theorem le_five_of_mem_reportableTiers {i : Instr} {tier : BitVec 3} (h : tier ∈ reportableTiers i) : tier ≤ 5 := by
  cases i with
  | foldUpdate | foldCopy =>
    obtain rfl := List.mem_singleton.1 h
    decide
  | nop | crc32Auto | crc32Scalar | crc32Braid | crc32ChorbaS | crc32ChorbaL | crc32Simd | foldInit | foldFinal | foldSave
  | foldLoad =>
    revert tier
    decide

theorem runWord_cmd (h : runWord w s = .next t) : t.cmd = w := (congrArg State.cmd (runWord_frame h) :)

theorem runWord_ctrl (h : runWord w s = .next t) : t.ctrl = s.ctrl := (congrArg State.ctrl (runWord_frame h) :)

theorem runWord_racing (h : runWord w s = .next t) : t.racing = s.racing := (congrArg State.racing (runWord_frame h) :)

/-- A CMD write ends as a command does, with a code of R371 and a tier code of R33. -/
theorem finished_runWord (h : runWord w s = .next t) :
    t.seq = .idle ∧ ∃ code tier,
      Finished code tier s.status t.status ∧ code ≤ 6 ∧ tier ≤ 5 ∧ (code ≠ 0 → tier = 0) := by
  obtain ⟨i, -, hexec⟩ | ⟨r, -, rfl⟩ := runWord_cases h
  · obtain ⟨hidle, ⟨f, -, hend⟩ | ⟨tier, htier, hend⟩⟩ := finished_exec hexec
    · exact ⟨hidle, _, _, hend, codeBits_le_six _, by decide, fun _ => rfl⟩
    · exact ⟨hidle, _, _, hend, by decide, le_five_of_mem_reportableTiers htier, fun hne => absurd rfl hne⟩
  · exact ⟨rfl, _, _, finished_statusAfter .eIllegal .none s.status, by decide, by decide, fun _ => rfl⟩

/-- A CMD write changes no byte of memory outside the write range of its command. -/
theorem memRead_runWord (h : runWord w s = .next t) {x : Nat} (hx : OutsideWriteRange w s x) :
    memRead t.mem x = memRead s.mem x := by
  obtain ⟨i, hdecode, hexec⟩ | ⟨r, -, rfl⟩ := runWord_cases h
  · exact memRead_exec hexec (hx i hdecode)
  · rfl

theorem wf_mem_runWord (h : runWord w s = .next t) (hwf : Memory.wf s.mem) : Memory.wf t.mem := by
  obtain ⟨i, -, hexec⟩ | ⟨r, -, rfl⟩ := runWord_cases h
  · exact wf_mem_exec hexec hwf
  · exact hwf

/-- Outside the write range the engine writes nothing, so another agent's writes stay. -/
theorem otherStays_of_outsideWriteRange {x : Nat} (h : OutsideWriteRange w s x) : otherStays w s x = true := by
  unfold otherStays
  split
  · next i hdecode =>
    have hnone : engineWrote i s x = false := by
      simp only [engineWrote, Bool.and_eq_false_iff, List.any_eq_false, Bool.and_eq_true, decide_eq_true_eq]
      refine .inr fun r hr ⟨⟨hk, hlo⟩, hhi⟩ => ?_
      have := h i hdecode r hr hk
      omega
    rw [hnone]
    rfl
  · rfl

theorem runRacing_of_runWord {others : List Host.Cell} (h : runWord w { s with racing := others } = .next t) :
    runRacing w others s =
      .next { t with mem := settle (otherStays w (startWord w s)) t.mem others, racing := [] } := by
  rw [runRacing, h]

end Word

end Sys2Proof.Machine
end

section
/-! SUPPORT. What each event leaves of the invariant, and of ERR (10_state.md R33 to R35, R52; 60_exceptions.md R380). -/

namespace Sys2Proof.Machine

/-! ### STATUS -/

theorem statusLegal_zero : statusLegal 0 := by
  unfold statusLegal
  decide

/-- The end of a command leaves a legal STATUS legal. -/
theorem statusLegal_of_finished {code : BitVec 4} {tier : BitVec 3} {old new : Word} (h : Finished code tier old new)
    (hold : statusLegal old) (hcode : code ≤ 6) (htier : tier ≤ 5) (hfault : code ≠ 0 → tier = 0) : statusLegal new := by
  obtain ⟨hdone, rfl, -, rfl, hreserved⟩ := h
  obtain ⟨hzero, -⟩ := hold
  exact ⟨hreserved.trans hzero, hcode, htier, hfault, fun hf => by rw [hdone] at hf; cases hf⟩

/-- A host write of STATUS writes no field but ERR (R34). -/
theorem fields_statusHostWrite (v old : Word) :
    statusDone (statusHostWrite v old) = statusDone old ∧ statusCode (statusHostWrite v old) = statusCode old ∧
      statusTier (statusHostWrite v old) = statusTier old := by
  refine ⟨?_, ?_, ?_⟩
  · exact (getLsbD_statusHostWrite v old (by decide)).trans (if_neg fun h => absurd h.1 (by decide))
  · ext k hk
    have hne : 4 + k ≠ 8 := by omega
    rw [← BitVec.getLsbD_eq_getElem, ← BitVec.getLsbD_eq_getElem, statusCode, statusCode, BitVec.getLsbD_extractLsb',
      BitVec.getLsbD_extractLsb', getLsbD_statusHostWrite v old (by omega), if_neg fun h => hne h.1]
  · ext k hk
    have hne : 12 + k ≠ 8 := by omega
    rw [← BitVec.getLsbD_eq_getElem, ← BitVec.getLsbD_eq_getElem, statusTier, statusTier, BitVec.getLsbD_extractLsb',
      BitVec.getLsbD_extractLsb', getLsbD_statusHostWrite v old (by omega), if_neg fun h => hne h.1]

theorem statusLegal_statusHostWrite (v : Word) {old : Word} (h : statusLegal old) :
    statusLegal (statusHostWrite v old) := by
  obtain ⟨hdone, hcode, htier⟩ := fields_statusHostWrite v old
  obtain ⟨hreserved, hcode6, htier5, hfault, hfresh⟩ := h
  rw [statusLegal, hdone, hcode, htier]
  refine ⟨?_, hcode6, htier5, hfault, fun hd => ?_⟩
  · rw [statusHostWrite_eq]
    split
    · rw [BitVec.and_assoc, BitVec.and_comm 0xFFFFFEFF#32, ← BitVec.and_assoc, hreserved]
      exact BitVec.zero_and
    · exact hreserved
  · rw [hfresh hd, statusHostWrite_eq]
    split
    · exact BitVec.zero_and
    · rfl

/-! ### ERR (R380) -/

/-- The end of a command leaves a set ERR set. -/
theorem statusErr_of_finished {code : BitVec 4} {tier : BitVec 3} {old new : Word} (h : Finished code tier old new)
    (herr : statusErr old = true) : statusErr new = true := by
  obtain ⟨-, -, hnew, -, -⟩ := h
  rw [hnew, herr, Bool.true_or]

theorem statusErr_runWord {w : Word} {s t : State} (h : runWord w s = .next t) (herr : statusErr s.status = true) :
    statusErr t.status = true := by
  obtain ⟨-, code, tier, hend, -⟩ := finished_runWord h
  exact statusErr_of_finished hend herr

/-- A host write clears ERR only if it writes STATUS with bit 8 = 1. -/
theorem statusErr_hostWrite {off : Nat} {v : Word} {s t : State} (hoff : off < 0x40) (h : hostWrite off v s = .next t)
    (herr : statusErr s.status = true) : statusErr t.status = true ∨ off = 0x04 ∧ v.getLsbD 8 = true := by
  obtain ⟨-, hrun⟩ | ⟨r, -, hreg, rfl⟩ | ⟨-, rfl⟩ := hostWrite_cases h
  · exact .inl (statusErr_runWord hrun herr)
  · by_cases hr : r = .status
    · subst hr
      cases hv : v.getLsbD 8 with
      | true => exact .inr ⟨eq_of_regAt_status off hoff hreg, rfl⟩
      | false =>
        have hsame : statusHostWrite v s.status = s.status := by
          rw [statusHostWrite, hv]
          rfl
        exact .inl ((congrArg statusErr hsame).trans herr)
    · exact .inl (by rwa [writeReg_status hr])
  · exact .inl herr

theorem statusErr_runRacing {w : Word} {others : List Host.Cell} {s t : State} (h : runRacing w others s = .next t)
    (herr : statusErr s.status = true) : statusErr t.status = true := by
  obtain ⟨u, hrun, rfl⟩ := runRacing_next h
  exact (statusErr_runWord hrun herr :)

/-! ### The invariant -/

section Invariant

variable {s t : State}

/-- CTRL after a masked write is within CAP (R35). -/
theorem and_capTiers_legal (p : Params) (v : Word) : v &&& capTiers p &&& ~~~ capTiers p = 0 := by
  rw [BitVec.and_assoc, BitVec.and_not_self]
  exact BitVec.and_zero

theorem inv_applyReset (h : Memory.wf s.mem) : Inv (applyReset s) where
  memory := h
  status := statusLegal_zero
  ctrl := BitVec.and_not_self _
  idle := rfl
  quiet := rfl

theorem inv_abandonWord (h : Memory.wf s.mem) (w : Word) : Inv (abandonWord w s) := by
  unfold abandonWord
  split
  · exact inv_applyReset (Memory.wf_scrambleWrites h _ fun r hr => (base_lt_of_mem_ranges hr).le)
  · exact inv_applyReset h

theorem inv_writeReg {r : Reg} (h : Inv s) (v : Word) : Inv (writeReg r v s) := by
  obtain ⟨hmem, hstatus, hctrl, hidle, hquiet⟩ := h
  cases r with
  | status => exact ⟨hmem, statusLegal_statusHostWrite v hstatus, hctrl, hidle, hquiet⟩
  | ctrl => exact ⟨hmem, hstatus, and_capTiers_legal s.params v, hidle, hquiet⟩
  | cmd | cap | acc | lenLo | lenHi | srcLo | srcHi | dstLo | dstHi | faddrLo | faddrHi =>
    exact ⟨hmem, hstatus, hctrl, hidle, hquiet⟩

theorem inv_runRacing {w : Word} {others : List Host.Cell} (h : Inv s) (hothers : ∀ c ∈ others, c.1 < 2 ^ 64)
    (hrun : runRacing w others s = .next t) : Inv t := by
  obtain ⟨u, hword, rfl⟩ := runRacing_next hrun
  obtain ⟨hidle, code, tier, hend, hcode, htier, hfault⟩ := finished_runWord hword
  have hparams : u.params = s.params := (runWord_params hword :)
  have hctrl : u.ctrl = s.ctrl := (runWord_ctrl hword :)
  exact
    { memory := wf_settle _ (wf_mem_runWord hword h.memory) hothers
      status := statusLegal_of_finished hend h.status hcode htier hfault
      ctrl := (congrArg₂ (fun c p => c &&& ~~~ capTiers p) hctrl hparams).trans h.ctrl
      idle := hidle
      quiet := rfl }

/-- A CMD write is one that races with no other write. -/
theorem runRacing_nil {w : Word} (hquiet : s.racing = []) (h : runWord w s = .next t) : runRacing w [] s = .next t := by
  have hracing : t.racing = [] := (runWord_racing h).trans hquiet
  have hsame : { s with racing := [] } = s := by rw [← hquiet]
  rw [runRacing_of_runWord (hsame.symm ▸ h), settle, ← hracing]

theorem inv_runWord {w : Word} (h : Inv s) (hrun : runWord w s = .next t) : Inv t :=
  inv_runRacing h (List.forall_mem_nil _) (runRacing_nil h.quiet hrun)

theorem inv_hostWrite {off : Nat} {v : Word} (h : Inv s) (hwrite : hostWrite off v s = .next t) : Inv t := by
  obtain ⟨-, hrun⟩ | ⟨r, -, -, rfl⟩ | ⟨-, rfl⟩ := hostWrite_cases hwrite
  · exact inv_runWord h hrun
  · exact inv_writeReg h v
  · exact h

theorem inv_served {e : HostEvent} (h : Inv s) (hserved : Served s t e) : Inv t := by
  cases hserved with
  | write _ hnext => exact inv_hostWrite h hnext
  | commandRacing _ hfree hnext => exact inv_runRacing h (lt_of_storesStop hfree) hnext
  | store hfree hnext =>
    subst hnext
    exact ⟨Memory.wf_memWrite h.memory (lt_of_storeStop hfree) _, h.status, h.ctrl, h.idle, h.quiet⟩
  | read _ hnext | load _ hnext =>
    subst hnext
    exact ⟨h.memory, h.status, h.ctrl, h.idle, h.quiet⟩
  | reset hnext =>
    subst hnext
    exact inv_applyReset h.memory
  | commandReset hnext =>
    subst hnext
    exact inv_abandonWord h.memory _

end Invariant

end Sys2Proof.Machine
end

section
/-! SUPPORT. The statements about reset, the step and the register block that are settled here (10_state.md R31 to R35;
60_exceptions.md R380; 70_reset_and_hazards.md R410, R411). -/

namespace Sys2Proof.Proofs

open Machine

/-- Settles O6: the values the reset state is written with. -/
theorem resetStateHoldsTheSpecsValues : Obligations.ResetStateHoldsTheSpecsValues := by
  refine ⟨rfl, rfl, by decide, capWord_default, rfl, rfl, rfl, rfl, rfl, rfl, rfl, rfl, rfl, rfl, rfl, fun off hoff => ?_⟩
  obtain ⟨-, -, hreg⟩ := reservedSlot hoff
  exact readOffset_of_noReg hreg _

/-- Settles O8: nothing is listed, set or pending. -/
theorem resetMeetsTheInvariant : Obligations.ResetMeetsTheInvariant where
  memory := ⟨.nil, List.forall_mem_nil _⟩
  status := statusLegal_zero
  ctrl := BitVec.and_not_self _
  idle := rfl
  quiet := rfl

/-- Settles O9: by the event that is served; a CMD write ends as a command does, and its writes passed the range check. -/
theorem stepKeepsTheInvariant : Obligations.StepKeepsTheInvariant := by
  intro s t h hstep
  obtain rfl | ⟨e, rest, -, hserved⟩ := step_cases hstep
  · exact h
  · exact inv_served (s := { s with pending := rest }) ⟨h.memory, h.status, h.ctrl, h.idle, h.quiet⟩ hserved

/-- Settles O12: the write range starts at an address, so its existing bytes are those the model scrambles. -/
theorem abandonedWriteRangeIsUnspecified : Obligations.AbandonedWriteRangeIsUnspecified := by
  intro s w i rest hp hidle hdecode hwf
  have hmem : (abandonWord w { s with pending := rest }).mem = scrambleWrites (s.draws + 1) s.mem (ranges i s) := by
    rw [abandonWord, hdecode]
    rfl
  have hbase : ∀ r ∈ ranges i s, r.base ≤ 2 ^ 64 := fun r hr => (base_lt_of_mem_ranges hr).le
  refine ⟨_, step_commandReset hp hidle, ?_, fun r hr hk x hlo hhi hx => ?_⟩
  · rw [hmem]
    exact Memory.wf_scrambleWrites hwf _ hbase
  · rw [hmem]
    exact memRead_scrambleWrites_inside hwf _ hbase hx (.inr ⟨r, hr, hk, hlo, hhi⟩)

/-- Settles O13: each register is one field of the state, and its offset is its own. -/
theorem hostWriteOfARegister : Obligations.HostWriteOfARegister := by
  intro s r v rest hp hidle hr
  obtain ⟨halign, hlt⟩ := regOffset_slot r
  have hstep := (step_write hp hidle halign hlt).trans (hostWrite_reg hr v _)
  obtain ⟨hfold, hmem, hseq, hpending, -⟩ := writeReg_frame r v { s with pending := rest }
  refine ⟨_, hstep, ?_, fun q hq => (readReg_writeReg_ne hq v _).trans (readReg_pending q s rest), hfold, hmem,
    hseq.trans hidle, hpending⟩
  cases r with
  | cmd => exact absurd rfl hr
  | status => exact statusHostWrite_eq v s.status
  | ctrl => exact (BitVec.and_assoc v (capWord s.params) 7#32).symm
  | cap | faddrLo | faddrHi | acc | lenLo | lenHi | srcLo | srcHi | dstLo | dstHi => rfl

/-- Settles O17: the register at a register's offset is that register. -/
theorem hostReadYieldsTheRegister : Obligations.HostReadYieldsTheRegister := by
  intro s r rest hp hidle
  obtain ⟨halign, hlt⟩ := regOffset_slot r
  rw [step_read hp hidle halign hlt, hostRead, readOffset_regOffset, readReg_pending]

/-- Settles O28: by the event that is served; the end of a command never clears ERR. -/
theorem errStaysUntilClearedOrReset : Obligations.ErrStaysUntilClearedOrReset := by
  intro s t hstep herr
  obtain rfl | ⟨e, rest, hp, hserved⟩ := step_cases hstep
  · exact .inl herr
  cases hserved with
  | @write off v hslot hnext =>
    obtain hset | ⟨rfl, hv⟩ := statusErr_hostWrite (lt_of_accessStop hslot) hnext herr
    · exact .inl hset
    · exact .inr (.inl ⟨v, rest, hp, hv⟩)
  | commandRacing _ _ hnext => exact .inl (statusErr_runRacing hnext herr)
  | read _ hnext | store _ hnext | load _ hnext =>
    subst hnext
    exact .inl herr
  | reset => exact .inr (.inr (.inl ⟨rest, hp⟩))
  | @commandReset w => exact .inr (.inr (.inr ⟨w, rest, hp⟩))

end Sys2Proof.Proofs
end

section
/-! SUPPORT. The statements about what a command can do that are settled here (10_state.md R31, R46; 20_memory.md R73, R74, R84,
R85; 40_dispatcher.md R151; 60_exceptions.md R371). -/

namespace Sys2Proof.Proofs

open Machine

/-- Settles O19: a command ends with a fault its checks raise, or with OK and the tier its body reports. -/
theorem everyCommandEndsWithFinish : Obligations.EveryCommandEndsWithFinish := by
  constructor
  · intro code t s
    have hend := endsWith_finish code t s
    rwa [reportedTier, apply_ite tierBits] at hend
  · intro i s t hexec
    obtain ⟨hidle, hend⟩ := finished_exec hexec
    obtain ⟨f, hraise, hend⟩ | ⟨tier, htier, hend⟩ := hend
    · obtain ⟨-, hcode, -, hzero, -⟩ := id hend
      have hne : statusCode t.status ≠ 0 := by
        rw [hcode]
        exact fun hok => hraise.code_ne_ok (codeBits_injective hok)
      rw [hcode, hzero]
      exact ⟨hend, hidle, fun _ => rfl, fun hok => absurd (hcode.trans hok) hne⟩
    · obtain ⟨-, hcode, -, htier', -⟩ := id hend
      rw [hcode, htier']
      exact ⟨hend, hidle, fun hne => absurd rfl hne, fun _ => htier⟩

/-- Settles O27: each condition can hold for the commands that have it. -/
theorem codesEachCommandCanReport : Obligations.CodesEachCommandCanReport := by
  intro i s t hexec
  obtain ⟨-, ⟨f, hraise, hend⟩ | ⟨tier, -, hend⟩⟩ := finished_exec hexec
  · obtain ⟨-, hcode, -⟩ := hend
    rw [hcode]
    exact hraise.code_mem
  · obtain ⟨-, hcode, -⟩ := hend
    rw [hcode]
    exact ok_mem_reportableCodes i

/-- Settles O33: a body writes the bytes of the write range only. -/
theorem onlyTheWriteRangeChanges : Obligations.OnlyTheWriteRangeChanges :=
  fun _ _ _ hexec _ hx => memRead_exec hexec hx

/-- Settles O34: the frame of a command, and what its faults and its body write. -/
theorem registersACommandLeaves : Obligations.RegistersACommandLeaves := by
  intro i s t hexec
  have hframe := exec_frame hexec
  exact ⟨(congrArg State.cmd hframe :), (congrArg State.ctrl hframe :), (congrArg State.lenLo hframe :),
    (congrArg State.lenHi hframe :), (congrArg State.srcLo hframe :), (congrArg State.srcHi hframe :),
    (congrArg State.dstLo hframe :), (congrArg State.dstHi hframe :), (congrArg State.params hframe :), faddr_exec hexec,
    acc_exec hexec⟩

/-- Settles O35: neither the checks nor a CRC32 command's body read FOLD. -/
theorem foldIsTheFoldCommandsOwn : Obligations.FoldIsTheFoldCommandsOwn := by
  refine ⟨fun i s t hexec hi => fold_exec hexec hi, fun i s t f hi hexec => ?_⟩
  change exec i (s.setFold f) = .next (t.setFold f)
  cases hcheck : check i s with
  | some r =>
    obtain rfl := Host.Outcome.next.inj ((exec_of_check_some hcheck).symm.trans hexec)
    rw [exec_of_check_some ((check_setFold i s f).trans hcheck), raiseFault_setFold]
  | none =>
    obtain rfl := Host.Outcome.next.inj ((exec_of_check_none hcheck).symm.trans hexec)
    rw [exec_of_check_none ((check_setFold i s f).trans hcheck), bodyOf_setFold hi]
    rfl

/-- Settles O32: neither the checks nor a body reads a byte outside the read range. -/
theorem onlyTheReadRangeMatters : Obligations.OnlyTheReadRangeMatters := by
  intro i s t m hexec hread
  change ∃ u, exec i (s.setMem m) = .next u ∧ u = t.setMem u.mem
  cases hcheck : check i s with
  | some f =>
    obtain rfl := Host.Outcome.next.inj ((exec_of_check_some hcheck).symm.trans hexec)
    refine ⟨_, exec_of_check_some ((check_setMem i s m).trans hcheck), ?_⟩
    rw [raiseFault_setMem, State.setMem_mem]
  | none =>
    obtain rfl := Host.Outcome.next.inj ((exec_of_check_none hcheck).symm.trans hexec)
    obtain ⟨m', hbody⟩ := bodyOf_setMem hread
    refine ⟨_, exec_of_check_none ((check_setMem i s m).trans hcheck), ?_⟩
    rw [hbody]
    rfl

/-- Settles O29: a read draws among memory's byte and those of the writes in flight. -/
theorem engineReadsYieldMemoryOrARacingWrite : Obligations.EngineReadsYieldMemoryOrARacingWrite := by
  refine ⟨fun s j a n hquiet => engineRead_quiet hquiet j a n, fun s j a n k b hb => ?_⟩
  have hk : k < n := by
    have hlt := (List.getElem?_eq_some_iff.1 hb).1
    rwa [length_engineRead] at hlt
  obtain rfl := Option.some.inj ((getElem?_engineRead s j a hk).symm.trans hb)
  exact engineByte_cases s (j + k) (a + k)

/-- Settles O30: a store and a load are served whatever the sequencer does, unless their address stops them. -/
theorem hostMemoryAccesses : Obligations.HostMemoryAccesses := by
  intro s a b rest
  refine ⟨fun ha hblock hwf hp => ?_, fun ha hblock hp => ?_, fun ha hp => ?_, fun ha hblock hp => ?_⟩
  · have hstop : storeStop { s with pending := rest } a = none := storeStop_of_free ha hblock
    refine ⟨{ s with pending := rest, mem := memWrite s.mem a b }, ?_, rfl, memRead_memWrite_same hwf a b,
      fun x hx => memRead_memWrite_ne s.mem b hx⟩
    rw [step_of_not_registerAccess hp rfl, handle, hstop]
    rfl
  · have hstop : storeStop { s with pending := rest } a = none := storeStop_of_free ha hblock
    rw [step_of_not_registerAccess hp rfl, handle, hstop]
  · have hstop : storeStop { s with pending := rest } a = some (.inl (.noSuchAddress a)) := storeStop_of_beyond ha
    obtain hp | hp := hp <;>
    · rw [step_of_not_registerAccess hp rfl, handle, hstop]
      rfl
  · have hstop : storeStop { s with pending := rest } a = some (.inr (.notAligned32 (a - s.params.engineBase.toNat) 1)) :=
      storeStop_of_block ha hblock
    obtain hp | hp := hp <;>
    · rw [step_of_not_registerAccess hp rfl, handle, hstop]
      rfl

/-- Settles O31: outside the write range the engine wrote nothing, and the other agent's writes land last. -/
theorem racingWritesLandOutsideTheWriteRange : Obligations.RacingWritesLandOutsideTheWriteRange := by
  intro s w others rest hp hidle
  have hstep := step_of_idle hp hidle
  refine ⟨fun hconc => ?_, fun hconc hwf hothers => ?_⟩
  · simpa [handle, hconc] using hstep
  · have hfree : storesStop { s with pending := rest } others = none := storesStop_of_free hothers
    obtain ⟨u, hrun⟩ := exists_runWord w { s with pending := rest, racing := others }
    have hrace : handle (.commandRacing w others) { s with pending := rest } =
        runRacing w others { s with pending := rest } := by
      simp [handle, hconc, hfree]
    have hland := runRacing_of_runWord (s := { s with pending := rest }) hrun
    refine ⟨_, (hstep.trans hrace).trans hland, rfl, (finished_runWord hrun).1, (runWord_cmd hrun :), fun x hx => ?_⟩
    have hstays : otherStays w (startWord w { s with pending := rest }) x = true := otherStays_of_outsideWriteRange hx
    have hsame : memRead u.mem x = memRead s.mem x := memRead_runWord hrun hx
    rw [← hsame]
    exact memRead_settle (wf_mem_runWord hrun hwf) (fun c hc => (hothers c hc).1) hstays

end Sys2Proof.Proofs
end
